-- ==== Sys2Proof/Word.lean ====
section
/-! DEFINITION. The two data widths of CMX: the 32-bit word and the 8-bit byte (spec 00_scope R9, R13). -/

namespace Sys2Proof

/-- A word of CMX: 32 bits, bit 0 the least significant (R13). Every register, slot word and stream word is one. -/
abbrev Word := BitVec 32

/-- A byte of hash input or of a digest; four of them make a word (R9, W = 4). -/
abbrev Byte := BitVec 8

end Sys2Proof
end

