-- ==== Sys2Proof/Syntax.lean ====
section
/-! DEFINITION. The seven commands of spec/opcode_table.json, one constructor each (30_encoding R101 to R108, R125).
A command carries the fields of its packet as the host sent them: no field is checked here beyond its width. -/

namespace Sys2Proof

/-- The two ways a cipher initialization is described (44_cipher_adapter R230, R231; SHAPE bit of R101). -/
inductive Shape where
  /-- SHAPE = 0: one pre-constructed handle. -/
  | handle
  /-- SHAPE = 1: generic parameters and key parameters, two structures. -/
  | struct
deriving DecidableEq, Repr

/-- The descriptor blocks of an AINIT packet (R107). The words are opaque to CMX. -/
inductive Blocks where
  /-- SHAPE = 0: the L1 words of the handle. -/
  | handle (h : List Word)
  /-- SHAPE = 1: the L1 words of the generic parameters, then the L2 words of the key parameters. -/
  | structs (generic key : List Word)
deriving DecidableEq, Repr

/-- The commands of CMX (00_scope R2; 30_encoding R102, R125). -/
inductive Instr where
  /-- DETECT: answer the Capability Descriptor (R141). -/
  | detect
  /-- HINIT: make slot `ctx` Fresh (R152). -/
  | hinit (ctx : BitVec 8)
  /-- HUPDATE: absorb the first `len` bytes of `payload` into slot `ctx` (R155, packet of R105). -/
  | hupdate (alg : BitVec 4) (ctx : BitVec 8) (len : Word) (payload : List Word)
  /-- HFINAL: finish slot `ctx` and answer `dsz` digest bytes (R166, packet of R106). -/
  | hfinal (alg : BitVec 4) (ctx : BitVec 8) (dsz : BitVec 8)
  /-- CLOAD: make slot `ctx` the loaded snapshot (R189). -/
  | cload (alg : BitVec 4) (ctx : BitVec 8)
  /-- CSAVE: capture the live registers into slot `ctx` if it is the owner (R191). -/
  | csave (ctx : BitVec 8)
  /-- AINIT: bind session record `sess` to cipher family `fam` (R233, packet of R107). -/
  | ainit (fam : BitVec 4) (sess : BitVec 8) (blocks : Blocks)
deriving DecidableEq, Repr

end Sys2Proof
end

