-- ==== Sys2Proof/WellFormed.lean ====
section
/-! DEFINITION. When a command can be written as a packet: the payload has the words its length word announces
(30_encoding R104, R105, R107), and every block length fits its 32-bit length word. Operand values that a packet can
carry but CMX turns away (a slot out of range, a reserved algorithm) are well formed here: CMX answers them. -/

namespace Sys2Proof

/-- How many payload words `len` bytes take: `ceil(len / 4)`, computed without overflow (R104). -/
def payloadWords (len : Word) : Nat := (len.toNat + 3) / 4

/-- The descriptor blocks fit their length words L1 and L2 (R107). -/
def Blocks.wf : Blocks → Bool
  | .handle h => decide (h.length < 2 ^ 32)
  | .structs g k => decide (g.length < 2 ^ 32) && decide (k.length < 2 ^ 32)

/-- The command has a packet (R104 to R107). -/
def Instr.wf : Instr → Bool
  | .detect => true
  | .hinit _ => true
  | .hupdate _ _ len payload => decide (payload.length = payloadWords len)
  | .hfinal _ _ _ => true
  | .cload _ _ => true
  | .csave _ => true
  | .ainit _ _ blocks => blocks.wf

end Sys2Proof
end

