-- ==== Sys2Proof/Decode.lean ====
section
/-! DEFINITION. Decoding of the host command stream, and the encoder beside it (30_encoding R100 to R108, R115, R125).
The decoder is total on every list of words: framing comes first (R104), then the opcode table (R125). -/

namespace Sys2Proof

/-! ## Header fields (R101) -/

/-- OPC, bits [31:28] (R101). -/
def hdrOpc (h : Word) : BitVec 4 := h.extractLsb' 28 4
/-- ALG (FAM for AINIT), bits [27:24] (R101). -/
def hdrAlg (h : Word) : BitVec 4 := h.extractLsb' 24 4
/-- CTX (SESS for AINIT), bits [23:16] (R101). -/
def hdrCtx (h : Word) : BitVec 8 := h.extractLsb' 16 8
/-- DSZ, bits [15:8] (R101). -/
def hdrDsz (h : Word) : BitVec 8 := h.extractLsb' 8 8
/-- RSV, bits [7:1] (R101). -/
def hdrRsv (h : Word) : BitVec 7 := h.extractLsb' 1 7
/-- SHAPE, bit [0] (R101). -/
def hdrShape (h : Word) : BitVec 1 := h.extractLsb' 0 1

/-- A header with the given fields, RSV = 0 (R101). -/
def mkHeader (opc alg : BitVec 4) (ctx dsz : BitVec 8) (shape : BitVec 1) : Word :=
  opc ++ alg ++ ctx ++ dsz ++ (0#7) ++ shape

/-! ## The opcode table (R125) -/

/-- The rows of the opcode table (R125). -/
inductive Op where
  | detect | hinit | hupdate | hfinal | cload | csave | ainit
deriving DecidableEq, Repr

/-- One row: a header `h` selects it when `h &&& mask = pattern` (R125). -/
structure Row where
  op : Op
  pattern : Word
  mask : Word
deriving DecidableEq, Repr

/-- The seven rows, as spec/opcode_table.json has them (R125). -/
def opcodeTable : List Row :=
  [⟨.detect, 0x10000000#32, 0xFFFFFFFF#32⟩,
   ⟨.hinit, 0x20000000#32, 0xFF00FFFF#32⟩,
   ⟨.hupdate, 0x30000000#32, 0xF000FFFF#32⟩,
   ⟨.hfinal, 0x40000000#32, 0xF00000FF#32⟩,
   ⟨.cload, 0x50000000#32, 0xF000FFFF#32⟩,
   ⟨.csave, 0x60000000#32, 0xFF00FFFF#32⟩,
   ⟨.ainit, 0x70000000#32, 0xF000FFFE#32⟩]

/-- `h` selects the row `r` (R125). -/
def Row.selects (r : Row) (h : Word) : Bool := h &&& r.mask == r.pattern

/-- The row a header selects, none when it is ill-formed (R115, R125). -/
def selectRow (h : Word) : Option Op := (opcodeTable.find? (·.selects h)).map (·.op)

/-! ## Framing (R104) -/

/-- The length of the packet at the front of a stream, in words; none when the words that decide it have not come.
It reads OPC, SHAPE for OPC = 7, and the length words, and nothing else (R104). -/
def packetWords : List Word → Option Nat
  | [] => none
  | h :: rest =>
    if hdrOpc h = 3#4 then
      match rest with
      | [] => none
      | len :: _ => some (2 + payloadWords len)
    else if hdrOpc h = 7#4 then
      match rest with
      | [] => none
      | l1 :: tail =>
        if hdrShape h = 0#1 then some (2 + l1.toNat)
        else match tail.drop l1.toNat with
          | [] => none
          | l2 :: _ => some (3 + l1.toNat + l2.toNat)
    else some 1

/-! ## Decoding -/

/-- Why a header selects no row (R115). -/
inductive IllFormed where
  /-- OPC is 0x0 or 0x8 to 0xF (R103). -/
  | reservedOpcode
  /-- A field that must be 0 for this OPC is not 0 (R115). -/
  | fieldNotZero
deriving DecidableEq, Repr

/-- What stands at the front of the command stream. -/
inductive Decoded where
  /-- A whole packet whose header selects a row: the command, the packet's words, the words after it. -/
  | command (i : Instr) (packet rest : List Word)
  /-- A whole packet whose header selects no row (R115): it is consumed whole and answered Rejected (R116). -/
  | illFormed (why : IllFormed) (packet rest : List Word)
  /-- The stream ends before the packet does: nothing to run yet. -/
  | incomplete
deriving DecidableEq, Repr

/-- The name of an ill-formed header's fault (R103, R115). -/
def illFormedWhy (h : Word) : IllFormed :=
  if hdrOpc h = 0#4 ∨ 8#4 ≤ hdrOpc h then .reservedOpcode else .fieldNotZero

/-- The AINIT blocks of a whole packet: word 1 is L1, L1 words follow; for SHAPE = 1 then L2 and L2 words (R107). -/
def decodeBlocks (packet : List Word) : Blocks :=
  let h := packet.getD 0 0#32
  let l1 := (packet.getD 1 0#32).toNat
  if hdrShape h = 0#1 then .handle (packet.drop 2)
  else .structs ((packet.drop 2).take l1) (packet.drop (3 + l1))

/-- The command of a whole packet whose header selects row `op` (R102, R105 to R107). -/
def decodeOp (op : Op) (packet : List Word) : Instr :=
  let h := packet.getD 0 0#32
  match op with
  | .detect => .detect
  | .hinit => .hinit (hdrCtx h)
  | .hupdate => .hupdate (hdrAlg h) (hdrCtx h) (packet.getD 1 0#32) (packet.drop 2)
  | .hfinal => .hfinal (hdrAlg h) (hdrCtx h) (hdrDsz h)
  | .cload => .cload (hdrAlg h) (hdrCtx h)
  | .csave => .csave (hdrCtx h)
  | .ainit => .ainit (hdrAlg h) (hdrCtx h) (decodeBlocks packet)

/-- Decode the front of a stream: frame first, then select a row (R104, R115, R125). -/
def decode (ws : List Word) : Decoded :=
  match packetWords ws with
  | none => .incomplete
  | some n =>
    if ws.length < n then .incomplete
    else
      let packet := ws.take n
      let h := ws.getD 0 0#32
      match selectRow h with
      | some op => .command (decodeOp op packet) packet (ws.drop n)
      | none => .illFormed (illFormedWhy h) packet (ws.drop n)

/-! ## Encoding -/

/-- The packet of a command (R101, R105 to R107, R125). -/
def encode : Instr → List Word
  | .detect => [mkHeader 1#4 0#4 0#8 0#8 0#1]
  | .hinit ctx => [mkHeader 2#4 0#4 ctx 0#8 0#1]
  | .hupdate alg ctx len payload => mkHeader 3#4 alg ctx 0#8 0#1 :: len :: payload
  | .hfinal alg ctx dsz => [mkHeader 4#4 alg ctx dsz 0#1]
  | .cload alg ctx => [mkHeader 5#4 alg ctx 0#8 0#1]
  | .csave ctx => [mkHeader 6#4 0#4 ctx 0#8 0#1]
  | .ainit fam sess (.handle h) => mkHeader 7#4 fam sess 0#8 0#1 :: BitVec.ofNat 32 h.length :: h
  | .ainit fam sess (.structs g k) =>
    mkHeader 7#4 fam sess 0#8 1#1 :: BitVec.ofNat 32 g.length :: (g ++ BitVec.ofNat 32 k.length :: k)

/-! ## Words numbered as spec/opcode_table.json numbers them -/

/-- The first `k` 32-bit words of the number `w`, the first word in the least significant bits. -/
def wordsOfNat : Nat → Nat → List Word
  | 0, _ => []
  | k + 1, w => BitVec.ofNat 32 w :: wordsOfNat k (w / 2 ^ 32)

/-- The packet whose first `nbits` bits are `w` and whose other bits are 0: the header, then as many words of zeros as
the framing of R104 asks for. -/
def tablePacket (nbits w : Nat) : List Word :=
  let ws := wordsOfNat (max 1 ((nbits + 31) / 32)) (w % 2 ^ nbits)
  match packetWords (ws ++ List.replicate ((ws.getD 1 0#32).toNat + 2) 0#32) with
  | none => ws
  | some n => ws.take n ++ List.replicate (n - ws.length) 0#32

/-- The instruction the decoder reads from the packet of `tablePacket`; none where it gives none. -/
def decodeTableWord (nbits w : Nat) : Option Instr :=
  match decode (tablePacket nbits w) with
  | .command i _ _ => some i
  | .illFormed _ _ _ => none
  | .incomplete => none

end Sys2Proof
end

