-- ==== Sys2Proof/Config.lean ====
section
/-! DEFINITION. The parameters of CMX (00_scope R9 to R12) and the values the spec leaves open.

A `Config` is plain data and stands in `State` as the read-only registers CAP and CFG do (10_state R38 to R40) together
with the sizes NCTX and NSESS; so a statement about every state is a statement about every configuration. What the spec
leaves without any value (the peripheral's transform, its flags, the registers it calls unspecified) is an opaque
constant: nothing can be proved of its values. -/

namespace Sys2Proof

/-- Which byte lane of a word holds the first byte (BYTE_ORDER, R9, R14). -/
inductive ByteOrder where
  | little
  | big
deriving DecidableEq, Repr

/-- Which peripheral functions periph_start, periph_absorb, periph_final (10_state R52) the unit has. -/
inductive Transform where
  /-- The real unit's: open, given by the opaque constants below. -/
  | supplied
  /-- The spec's own test double T0 (95_test_vectors section 2). -/
  | testDouble
deriving DecidableEq, Repr

/-- Which `lencfg` the configuration has (43_word_submission R216, R217). -/
inductive LengthRule where
  /-- The default `zext_32(LOLEN[5:0]) << 3` (R217). -/
  | standard
  /-- Another one that the configuration supplies: open. -/
  | supplied
deriving DecidableEq, Repr

/-- The parameters of R9, fixed before reset is released and never changed (R11). -/
structure Config where
  /-- EXT: SHA-224 and SHA-256 available. N, MAXDIG, NRES and SLOT_WORDS follow from it (R10). -/
  ext : Bool
  /-- TMO: the poll budget T (10_state R40). -/
  tmo : Word
  /-- SINGLE_CIPHER (R40). -/
  singleCipher : Bool
  /-- CIPHER_SHAPE: the one initialization strategy this build has (R40). -/
  cipherShape : Shape
  /-- SUPPORTED_FAM: the one family a restricted unit accepts (R40). -/
  supportedFam : BitVec 4
  /-- BYTE_ORDER (R40). -/
  byteOrder : ByteOrder
  /-- NCTX: the slots of the context store, 1 to 256 (R9). -/
  nctx : Nat
  /-- NSESS: the cipher session records, 1 to 256 (R9). -/
  nsess : Nat
  /-- Which peripheral functions are configured (10_state R52). -/
  transform : Transform
  /-- Which length rule is configured (43_word_submission R217). -/
  lengthRule : LengthRule
deriving DecidableEq, Repr

/-- The values R9 allows for NCTX and NSESS. -/
def Config.wf (c : Config) : Bool :=
  decide (1 ≤ c.nctx) && decide (c.nctx ≤ 256) && decide (1 ≤ c.nsess) && decide (c.nsess ≤ 256)

/-- The configuration `State.reset` is built for: the defaults and suggested values of R9 (T = 0xFFFF, little-endian,
NCTX = 4, NSESS = 1, SUPPORTED_FAM = 0, standard lencfg), and for the parameters R9 gives no value the configuration
that 95_test_vectors section 2 starts from (EXT = 1, SINGLE_CIPHER = 0, CIPHER_SHAPE = 0).
DESIGN CHOICE, unsafe: a claim about `State.reset` alone speaks of this configuration only (log entry 2). -/
def Config.baseline : Config where
  ext := true
  tmo := 0xFFFF#32
  singleCipher := false
  cipherShape := .handle
  supportedFam := 0#4
  byteOrder := .little
  nctx := 4
  nsess := 1
  transform := .supplied
  lengthRule := .standard

/-! ## Open values. Each is free: no proof can learn what it is. -/

/-- The word an address of the context store holds before anything has been written to it (10_state R59, R60;
93_implementation_defined U3, `any value`). -/
opaque Config.initialWord : Nat → Word

/-- A word of a register or slot that a rule makes unspecified (00_scope R17, `draw`), by the number of the draw. -/
opaque Config.freeWord : Nat → Word

/-- The value of P.FLAGS at a read for which the state holds no sample (10_state R54), by the number of the draw. -/
opaque Config.freeFlags : Nat → Word

/-- Word `k` of the register state `periph_start` gives for an algorithm (10_state R52); the Bool is EXT. -/
opaque Config.startWord : Bool → BitVec 4 → Nat → Word

/-- Word `k` of the register state `periph_absorb` gives, from the words of PR and the word submitted (R52). -/
opaque Config.absorbWord : List Word → Word → Nat → Word

/-- Word `j` of the results `periph_final` gives, from the words of PR and the length configuration (R52). -/
opaque Config.finalWord : List Word → Word → Nat → Word

/-- The length configuration a configuration supplies in place of the default, from ALG and LOLEN[5:0] (R216). -/
opaque Config.lengthWord : BitVec 4 → BitVec 6 → Word

end Sys2Proof
end

