-- ==== Sys2Proof/Machine/Params.lean ====
section
/-! DEFINITION. The sizes that follow from EXT, and the CAP register (00_scope R9, R10, R12; 10_state R39). -/

namespace Sys2Proof

/-- N, `contextRegisterCount`: accumulator words in a snapshot (R9). -/
def Config.accWords (c : Config) : Nat := if c.ext then 54 else 50

/-- MAXDIG, `maxDigestBytes` (R9). -/
def Config.maxDigest (c : Config) : Nat := if c.ext then 32 else 20

/-- NRES: result registers read at finalization, MAXDIG / 4 (R9; 43_word_submission R220). -/
def Config.resultWords (c : Config) : Nat := c.maxDigest / 4

/-- N + 3: the words of the register state PR, IMR, SCR, CR, ACC[0..N-1] (10_state R52). -/
def Config.contextWords (c : Config) : Nat := c.accWords + 3

/-- SLOT_WORDS: words in one snapshot slot, N + 7 (R9; 20_memory R72). -/
def Config.slotWords (c : Config) : Nat := c.accWords + 7

/-- The words of the context store: addresses 0 to NCTX * SLOT_WORDS - 1 (20_memory R71). -/
def Config.storeWords (c : Config) : Nat := c.nctx * c.slotWords

/-- T, the poll budget, as a count (R9). -/
def Config.budget (c : Config) : Nat := c.tmo.toNat

/-- CAP, the Capability Descriptor as a 32-bit value (10_state R39): MAXDIG in [23:16], CTXREGS in [15:8], EXT in [0]. -/
def Config.cap (c : Config) : Word :=
  (0#8) ++ BitVec.ofNat 8 c.maxDigest ++ BitVec.ofNat 8 c.accWords ++ (0#7) ++ BitVec.ofBool c.ext

end Sys2Proof
end

