-- ==== Sys2Proof/Machine/Store.lean ====
section
/-! DEFINITION. The context store as a word-addressed memory (20_memory R70, R71): its representation and the two
accesses it has, one whole word read and one whole word written.

The store is a list of (word address, word) pairs in one canonical form, the addresses strictly rising: the words that
have been written, each with its last value. An address that is not listed has no value of its own, and reading it gives a
free value (log entry 3). The cell is the 32-bit word because R71 gives the store no byte address and R74 says that words
moved whole are never seen as bytes (log entry 4). -/

namespace Sys2Proof.Machine

/-- The written words of the context store, by word address. -/
abbrev Store := List (Nat × Word)

/-- The word last written at address `a`, none where nothing has been written. -/
def Store.find : Store → Nat → Option Word
  | [], _ => none
  | (k, v) :: m, a => if k = a then some v else Store.find m a

/-- What an unlisted address reads as: a free value. The spec leaves the store unspecified after reset, "not zero"
(10_state R59, R60; 00_scope R17; 93_implementation_defined U3). -/
def Store.unlisted (a : Nat) : Word := Config.initialWord a

/-- MemRead(a, 4): the word at address `a` (00_scope R15). -/
def Store.read (m : Store) (a : Nat) : Word := (Store.find m a).getD (Store.unlisted a)

/-- MemWrite(a, 4, v): put the word `v` at address `a` (00_scope R15), keeping the canonical form. -/
def Store.write : Store → Nat → Word → Store
  | [], a, v => [(a, v)]
  | (k, w) :: m, a, v =>
    if a < k then (a, v) :: (k, w) :: m
    else if a = k then (a, v) :: m
    else (k, w) :: Store.write m a v

/-- Write the words `ws` at the addresses `a`, `a + 1`, ... in that order. -/
def Store.writeAll : Store → Nat → List Word → Store
  | m, _, [] => m
  | m, a, w :: ws => Store.writeAll (Store.write m a w) (a + 1) ws

/-- The `n` words at the addresses `a`, `a + 1`, ... -/
def Store.readAll (m : Store) (a n : Nat) : List Word :=
  (List.range n).map fun k => Store.read m (a + k)

/-- The canonical form: addresses strictly rising. What an unlisted address holds is no value, so no entry equals it. -/
abbrev Store.wf (m : Store) : Prop := m.Pairwise (fun x y => x.1 < y.1)

end Sys2Proof.Machine
end

