-- ==== Sys2Proof/Machine/State.lean ====
section
/-! DEFINITION. The state of CMX (10_state R30): its working registers, its read-only configuration, the context store,
the cipher session records and the peripheral's registers as far as CMX touches them; beside them the two host streams
(20_memory R70, R91) and the model's own fields, each marked so. Plain data: no field is a function. -/

namespace Sys2Proof.Machine

/-- PR, the session-relevant registers of the peripheral: IMR, SCR, CR and ACC[0..N-1] (10_state R52, R53).
STG, the staging buffer, has the same N + 3 words (R34). -/
structure PR where
  imr : Word
  scr : Word
  cr : Word
  acc : List Word
deriving DecidableEq, Repr

/-- The registers of PR by name, in the order a capture and a load move them (20_memory R81). -/
inductive CtxReg where
  | imr
  | scr
  | cr
  | acc (i : Nat)
deriving DecidableEq, Repr

/-- The peripheral registers CMX reads (10_state R51; 20_memory R78). -/
inductive ReadReg where
  /-- P.IMR, P.SCR, P.CR, P.ACC[i], read at capture. -/
  | ctx (r : CtxReg)
  /-- P.FLAGS, bit 0 P.READY and bit 1 P.DREADY. -/
  | flags
  /-- P.RES[j], read after digest ready. -/
  | res (j : Nat)
deriving DecidableEq, Repr

/-- The peripheral registers CMX writes (10_state R51; 20_memory R78). -/
inductive WriteReg where
  /-- P.IMR, P.SCR, P.CR, P.ACC[i], written at load. -/
  | ctx (r : CtxReg)
  /-- P.DIN, written by SubmitWord. -/
  | din
  /-- P.LENCFG, the finalization trigger. -/
  | lencfg
  /-- P.START, a write-only event. -/
  | start
deriving DecidableEq, Repr

/-- One access on the peripheral port: a register and the word that passed (20_memory R78, R81). -/
inductive PortAccess where
  | read (r : ReadReg) (v : Word)
  | write (r : WriteReg) (v : Word)
deriving DecidableEq, Repr

/-- The peripheral's registers that CMX touches (10_state R51). P.START is an event and the flags are draws: neither
is stored. -/
structure Periph where
  /-- P.IMR, P.SCR, P.CR, P.ACC. -/
  pr : PR
  /-- P.DIN: the last word submitted. -/
  din : Word
  /-- P.LENCFG: the last length configuration written. -/
  lencfg : Word
  /-- P.RES[0..NRES-1]. -/
  res : List Word
deriving DecidableEq, Repr

/-- One cipher session record of CSESS (10_state R56). -/
structure CipherRecord where
  bound : Bool
  fam : BitVec 4
  blob : List Word
deriving DecidableEq, Repr

/-- The command latch (10_state R35): the header of the command in progress, its length words (LEN for HUPDATE; L1 and,
for SHAPE = 1, L2 for AINIT) and the count of payload words still to come. -/
structure CmdLatch where
  header : Word
  lengths : List Word
  toCome : Nat
deriving DecidableEq, Repr

/-- The whole machine. -/
structure State where
  /-- CAP and CFG (R39, R40) with NCTX and NSESS: read-only, never written by a step (00_scope R11). -/
  cfg : Config
  /-- OWNER (R31), 9 bits: `none` is VALID = 0 with index 0, `some c` is VALID = 1 with index `c`. -/
  owner : Option (BitVec 8)
  /-- PCNT, the poll counter (R32). -/
  pcnt : Word
  /-- STG, the staging buffer, N + 3 words (R34). -/
  stg : PR
  /-- The command latch (R35): `none` is no command in progress. -/
  latch : Option CmdLatch
  /-- The response register, the response header being built (R35): `none` is empty. -/
  response : Option Word
  /-- CS, the context store: NCTX slots of SLOT_WORDS words (R41 to R50; 20_memory R71). -/
  store : Store
  /-- CSESS, NSESS records (R56). -/
  sessions : List CipherRecord
  /-- The peripheral's registers (R51). -/
  periph : Periph
  /-- The host command stream: the words presented and not yet consumed, the next one first (20_memory R70, R91). -/
  commands : List Word
  /-- The host response stream: the words emitted so far, in order (20_memory R70, R91). -/
  responses : List Word
  /-- MODEL'S OWN. The peripheral agent's answers to the coming reads of P.FLAGS, the next one first (00_scope R20, R21:
  the draws are a parameter of the step). After the last one a read is `Config.freeFlags` (log entry 5). -/
  flagSamples : List Word
  /-- MODEL'S OWN. The number of free values drawn so far; the next one is that constant of Config applied to it. -/
  draws : Nat
  /-- MODEL'S OWN. Whether PR is defined in the sense of R55. No operation reads it. -/
  prDefined : Bool
  /-- MODEL'S OWN. Every access made on the peripheral port, the latest first (20_memory R81: the order is fixed so that
  a trace of the port is determined). No operation reads it. -/
  portLog : List PortAccess
deriving DecidableEq, Repr

/-- Why the machine stops with a fault. CMX itself has no fault: every error it knows is a status in a response
(60_exceptions R250, R260). -/
inductive Fault where
  /-- OWNER names a slot at or above NCTX and the command would capture into it: an access to addresses that the context
  store does not have (20_memory R71). Raised by HUPDATE, HFINAL, CLOAD and AINIT, before they change anything. Safe: the
  machine stops. No reachable state has such an OWNER (10_state R57 item 1). -/
  | strayOwner
deriving DecidableEq, Repr

/-- Why an instruction is given no meaning. -/
inductive Refusal where
  /-- The instruction is not modelled: raised by an arm of `exec` only. Safe. No arm raises it. -/
  | notModelled (mnemonic : String)
  /-- The slot holds what CMX never writes: STAT.LIFE = 3, a reserved bit of STAT set, or BUFLEN above 3; the spec gives
  a command that reads it no meaning (93_implementation_defined U4, `refuse`). Raised by HUPDATE, HFINAL and CLOAD, before
  they change anything. Safe: the machine stops. Reachable only through unspecified words: those of a slot that no HINIT has
named since reset, and those a data-phase Timeout leaves. -/
  | malformedSlot
deriving DecidableEq, Repr

/-- N + 3 words of zeros. -/
def PR.zero (n : Nat) : PR where
  imr := 0#32
  scr := 0#32
  cr := 0#32
  acc := List.replicate n 0#32

/-- The state right after reset of a machine with configuration `c` (10_state R59; 70_reset_and_hazards R291): OWNER =
NONE, no command in progress, every session record unbound, CAP and CFG hardwired. The context store is unspecified there:
nothing is listed, so every word of it is a free value (log entry 3). PCNT, STG and the peripheral's registers are
unspecified too, and the model names 0 for each (DESIGN CHOICE, unsafe: log entry 1). -/
def State.resetOf (c : Config) : State where
  cfg := c
  owner := none
  pcnt := 0#32
  stg := PR.zero c.accWords
  latch := none
  response := none
  store := []
  sessions := List.replicate c.nsess ⟨false, 0#4, []⟩
  periph := { pr := PR.zero c.accWords, din := 0#32, lencfg := 0#32, res := List.replicate c.resultWords 0#32 }
  commands := []
  responses := []
  flagSamples := []
  draws := 0
  prDefined := false
  portLog := []

/-- The state right after reset, in the baseline configuration (log entry 2). -/
def State.reset : State := State.resetOf Config.baseline

end Sys2Proof.Machine
end

