-- ==== Sys2Proof/Machine/Operands.lean ====
section
/-! DEFINITION. The forms an operand takes: byte lanes of a word (00_scope R14; 20_memory R74), payload bytes, algorithm
ids (30_encoding R109, R118), the fields of a slot (20_memory R72) and of its STAT word (10_state R48). -/

namespace Sys2Proof.Machine

/-! ## Byte lanes (00_scope R14) -/

/-- The position of the least significant bit of lane `b` of a word. -/
def laneShift (o : ByteOrder) (b : Nat) : Nat :=
  match o with
  | .little => 8 * b
  | .big => 24 - 8 * b

/-- `lane(w, b)`: byte `b` of `w`, for `b` in 0..3 (R14). -/
def lane (o : ByteOrder) (w : Word) (b : Nat) : Byte := w.extractLsb' (laneShift o b) 8

/-- `setlane(w, b, x)`: `w` with lane `b` replaced by `x` (R14). -/
def setLane (o : ByteOrder) (w : Word) (b : Nat) (x : Byte) : Word :=
  (w &&& ~~~(0xFF#32 <<< laneShift o b)) ||| (x.zeroExtend 32 <<< laneShift o b)

/-- The four bytes of a word, lane 0 first. -/
def lanes (o : ByteOrder) (w : Word) : List Byte := [lane o w 0, lane o w 1, lane o w 2, lane o w 3]

/-- `pack` of exactly the lanes 0 to 3 (R14); an absent byte is 0. -/
def pack4 (o : ByteOrder) (b0 b1 b2 b3 : Byte) : Word :=
  setLane o (setLane o (setLane o (setLane o 0#32 0 b0) 1 b1) 2 b2) 3 b3

/-- A byte sequence as words: byte `k` in lane `k mod 4` of word `k div 4`, the other lanes 0 (20_memory R74). -/
def packBytes (o : ByteOrder) : List Byte → List Word
  | [] => []
  | [b0] => [pack4 o b0 0#8 0#8 0#8]
  | [b0, b1] => [pack4 o b0 b1 0#8 0#8]
  | [b0, b1, b2] => [pack4 o b0 b1 b2 0#8]
  | b0 :: b1 :: b2 :: b3 :: rest => pack4 o b0 b1 b2 b3 :: packBytes o rest

/-- The first `n` bytes of a sequence of words, byte `k` from lane `k mod 4` of word `k div 4` (20_memory R74). -/
def bytesOf (o : ByteOrder) (n : Nat) (ws : List Word) : List Byte := (ws.flatMap (lanes o)).take n

/-- The data of an HUPDATE: LEN bytes of its payload; the lanes beyond are ignored (30_encoding R105). -/
def updateData (c : Config) (len : Word) (payload : List Word) : List Byte := bytesOf c.byteOrder len.toNat payload

/-! ## Algorithms (30_encoding R109, R118) -/

/-- `alg_ok(a) = (a ≤ 1) or (a ≤ 3 and EXT = 1)` (R109). -/
def algOk (c : Config) (a : BitVec 4) : Bool := decide (a.toNat ≤ 1) || (decide (a.toNat ≤ 3) && c.ext)

/-! ## Slots (20_memory R72) -/

/-- The fields of a slot (10_state R42). -/
inductive Field where
  | imr | scr | cr
  | acc (i : Nat)
  | buf | bufLen | loLen | stat
deriving DecidableEq, Repr

/-- `slotaddr(s) = s × SLOT_WORDS` (R72). -/
def slotAddr (c : Config) (slot : BitVec 8) : Nat := slot.toNat * c.slotWords

/-- The offset of a field inside a slot (R72). -/
def Field.offset (c : Config) : Field → Nat
  | .imr => 0
  | .scr => 1
  | .cr => 2
  | .acc i => 3 + i
  | .buf => c.accWords + 3
  | .bufLen => c.accWords + 4
  | .loLen => c.accWords + 5
  | .stat => c.accWords + 6

/-- The address of field `f` of slot `slot`: `slotaddr(s) + off(F)` (R72, 30_encoding R108). -/
def fieldAddr (c : Config) (slot : BitVec 8) (f : Field) : Nat := slotAddr c slot + f.offset c

/-- The slot number names a slot (30_encoding R117). -/
def slotExists (c : Config) (slot : BitVec 8) : Bool := decide (slot.toNat < c.nctx)

/-! ## The STAT word (10_state R48) -/

/-- LIFE, bits [1:0] of STAT (R48, R49). -/
inductive Life where
  | fresh | active | finalized
  /-- 3: never written by CMX. -/
  | reserved
deriving DecidableEq, Repr

/-- The encoding of LIFE (R48). -/
def Life.bits : Life → BitVec 2
  | .fresh => 0#2
  | .active => 1#2
  | .finalized => 2#2
  | .reserved => 3#2

/-- The LIFE that two bits encode (R48). -/
def Life.ofBits (b : BitVec 2) : Life :=
  if b = 0#2 then .fresh else if b = 1#2 then .active else if b = 2#2 then .finalized else .reserved

/-- STAT.LIFE (R48). -/
def statLife (st : Word) : Life := Life.ofBits (st.extractLsb' 0 2)
/-- STAT.SHV, shadow valid (R48). -/
def statShv (st : Word) : Bool := st.getLsbD 2
/-- STAT.ALGV (R48). -/
def statAlgv (st : Word) : Bool := st.getLsbD 3
/-- STAT.ALG (R48). -/
def statAlg (st : Word) : BitVec 4 := st.extractLsb' 4 4
/-- The reserved bits [31:8] of STAT (R48). -/
def statReserved (st : Word) : BitVec 24 := st.extractLsb' 8 24

/-- The STAT word `{ LIFE, SHV, ALGV, ALG }`, reserved bits 0 (R48). -/
def mkStat (life : Life) (shv algv : Bool) (alg : BitVec 4) : Word :=
  (0#24) ++ alg ++ BitVec.ofBool algv ++ BitVec.ofBool shv ++ life.bits

/-- STAT with SHV set and every other bit as it was (42_arbiter_swap R186). -/
def statSetShv (st : Word) : Word := st ||| 4#32

/-! ## Context registers (20_memory R78, R81) -/

/-- The registers of PR in the order a capture reads and a load writes them (R81). -/
def contextRegs (c : Config) : List CtxReg := [.imr, .scr, .cr] ++ (List.range c.accWords).map .acc

/-- The N + 3 words of PR in that order. -/
def PR.words (c : Config) (p : PR) : List Word :=
  [p.imr, p.scr, p.cr] ++ (List.range c.accWords).map fun i => p.acc.getD i 0#32

/-- The PR with those words. -/
def PR.ofWords (ws : List Word) : PR where
  imr := ws.getD 0 0#32
  scr := ws.getD 1 0#32
  cr := ws.getD 2 0#32
  acc := ws.drop 3

/-- The port index of a register of PR (20_memory R78). -/
def CtxReg.index : CtxReg → Nat
  | .imr => 0x00
  | .scr => 0x01
  | .cr => 0x02
  | .acc i => 0x40 + i

/-- The port index of a register CMX reads (20_memory R78). -/
def ReadReg.index : ReadReg → Nat
  | .ctx r => r.index
  | .flags => 0x05
  | .res j => 0x10 + j

/-- The port index of a register CMX writes (20_memory R78). -/
def WriteReg.index : WriteReg → Nat
  | .ctx r => r.index
  | .din => 0x03
  | .lencfg => 0x04
  | .start => 0x06

end Sys2Proof.Machine
end

