-- ==== Sys2Proof/Machine/Transform.lean ====
section
/-! DEFINITION. The peripheral's behaviour as three total functions (10_state R52), and `lencfg` (43_word_submission
R216, R217). The real unit's functions are open: each word of their results is an opaque constant of Config. The test
double T0 is the spec's own stand-in (95_test_vectors section 2); a claim must hold for both. -/

namespace Sys2Proof.Machine

/-- `periph_start(a)`: PR just after a new computation of algorithm `a` is started (R52). -/
def periphStart (c : Config) (a : BitVec 4) : PR :=
  match c.transform with
  | .supplied => PR.ofWords ((List.range c.contextWords).map (Config.startWord c.ext a))
  | .testDouble =>
    { imr := 0#32, scr := 0#32, cr := 0x100#32 ||| a.zeroExtend 32, acc := List.replicate c.accWords 0#32 }

/-- `periph_absorb(PR, w)`: PR after the unit has taken the word `w` written to P.DIN (R52). -/
def periphAbsorb (c : Config) (p : PR) (w : Word) : PR :=
  match c.transform with
  | .supplied => PR.ofWords ((List.range c.contextWords).map (Config.absorbWord (p.words c) w))
  | .testDouble =>
    let a := (p.words c).drop 3
    { p with acc := (((a.set 0 (a.getD 0 0#32 * 31#32 + w)).set 1 (a.getD 1 0#32 ^^^ w)).set 2 (a.getD 2 0#32 + 1#32)) }

/-- `periph_final(PR, v)`: P.RES[0..NRES-1] after `v` is written to P.LENCFG (R52). -/
def periphFinal (c : Config) (p : PR) (v : Word) : List Word :=
  match c.transform with
  | .supplied => (List.range c.resultWords).map (Config.finalWord (p.words c) v)
  | .testDouble =>
    [p.acc.getD 0 0#32, p.acc.getD 1 0#32, p.acc.getD 2 0#32, v, p.cr] ++ List.replicate (c.resultWords - 5) 0#32

/-- `lencfg(a, LOLEN[5:0])`: the value written to P.LENCFG (R216), by default the six bits shifted left by 3 (R217). -/
def lencfg (c : Config) (a : BitVec 4) (l6 : BitVec 6) : Word :=
  match c.lengthRule with
  | .standard => l6.zeroExtend 32 <<< 3
  | .supplied => Config.lengthWord a l6

end Sys2Proof.Machine
end

