-- ==== Sys2Proof/Machine/Flags.lean ====
section
/-! DEFINITION. The two flags of the peripheral and the bounded poll of one (10_state R37, R54; 42_arbiter_swap R184).
CMX keeps no condition codes of its own (R37). -/

namespace Sys2Proof.Machine

/-- The flag a poll waits for (R37): P.READY or P.DREADY. -/
inductive Flag where
  | ready
  | dready
deriving DecidableEq, Repr

/-- The flag's bit in a value of P.FLAGS: bit 0 is P.READY, bit 1 is P.DREADY, bits [31:2] are ignored (20_memory R78). -/
def Flag.isSet (f : Flag) (v : Word) : Bool :=
  match f with
  | .ready => v.getLsbD 0
  | .dready => v.getLsbD 1

/-- How a step that may time out ended, with the state it left. -/
inductive Polled where
  | ok (s : State)
  | timeout (s : State)
deriving DecidableEq, Repr

/-- The state a step left, however it ended. -/
def Polled.state : Polled → State
  | .ok s => s
  | .timeout s => s

/-- The step ended OK. -/
def Polled.isOk : Polled → Bool
  | .ok _ => true
  | .timeout _ => false

/-- The value the next read of P.FLAGS will give: the peripheral agent's next answer, or a free value when the state
holds none (R54). -/
def flagsValue (s : State) : Word :=
  match s.flagSamples with
  | v :: _ => v
  | [] => Config.freeFlags s.draws

/-- The state after one read of P.FLAGS. Reading changes no register (20_memory R78). -/
def afterFlagsRead (s : State) : State :=
  match s.flagSamples with
  | v :: vs => { s with flagSamples := vs, portLog := .read .flags v :: s.portLog }
  | [] => { s with draws := s.draws + 1, portLog := .read .flags (Config.freeFlags s.draws) :: s.portLog }

/-- The loop of PollReady with `k` reads left (R184). -/
def pollLoop (f : Flag) : Nat → State → Polled
  | 0, s => .timeout s
  | k + 1, s =>
    let s' := { afterFlagsRead s with pcnt := s.pcnt + 1#32 }
    if f.isSet (flagsValue s) then .ok s' else pollLoop f k s'

/-- PollReady(f): PCNT cleared, then at most T reads of P.FLAGS until one has the flag set (R184). -/
def pollReady (f : Flag) (s : State) : Polled := pollLoop f s.cfg.budget { s with pcnt := 0#32 }

end Sys2Proof.Machine
end

