-- ==== Sys2Proof/Machine/Ops.lean ====
section
/-! DEFINITION. The named operations the commands are made of: slot accesses (20_memory R72), the peripheral port
(R78), responses and errors (30_encoding R111 to R113; 60_exceptions R260 to R263), the swap (42_arbiter_swap R185,
R186) and the word path (43_word_submission R211 to R219). Errors are CMX's exceptions: `raise` and `dataPhaseTimeout`
take one, and nothing returns from one (60_exceptions R264). -/

namespace Sys2Proof.Machine

/-! ## Slot accesses -/

/-- `CS[c].F` (00_scope R15). -/
def State.slotGet (s : State) (c : BitVec 8) (f : Field) : Word := Store.read s.store (fieldAddr s.cfg c f)

/-- `CS[c].F <- v` (00_scope R15). -/
def State.slotPut (s : State) (c : BitVec 8) (f : Field) (v : Word) : State :=
  { s with store := Store.write s.store (fieldAddr s.cfg c f) v }

/-- Write the words `ws` to slot `c` from its first word on. -/
def State.slotFill (s : State) (c : BitVec 8) (ws : List Word) : State :=
  { s with store := Store.writeAll s.store (slotAddr s.cfg c) ws }

/-- The shadow of slot `c`: its IMR, SCR, CR and ACC[0..N-1] (00_scope R19). -/
def State.shadow (s : State) (c : BitVec 8) : PR :=
  PR.ofWords (Store.readAll s.store (slotAddr s.cfg c) s.cfg.contextWords)

/-! ## Unspecified values -/

/-- The next `n` free values (00_scope R17, `draw`). -/
def State.freeWords (s : State) (n : Nat) : List Word := (List.range n).map fun k => Config.freeWord (s.draws + k)

/-- PR becomes unspecified: N + 3 words are drawn (10_state R55). -/
def State.unspecifyPR (s : State) : State :=
  { s with
    periph := { s.periph with pr := PR.ofWords (s.freeWords s.cfg.contextWords) }
    draws := s.draws + s.cfg.contextWords
    prDefined := false }

/-- Every word of slot `c` becomes unspecified (60_exceptions R263). -/
def State.unspecifySlot (s : State) (c : BitVec 8) : State :=
  { s.slotFill c (s.freeWords s.cfg.slotWords) with draws := s.draws + s.cfg.slotWords }

/-- OWNER <- NONE and PR <- unspecified (41_session_lifecycle R153, R170; 60_exceptions R263). -/
def State.releaseUnit (s : State) : State := { s.unspecifyPR with owner := none }

/-! ## The peripheral port (20_memory R78) -/

/-- `P.START <- zext_32(a)`: a new computation of algorithm `a` starts (R78; 42_arbiter_swap R188). -/
def startUnit (a : BitVec 4) (s : State) : State :=
  { s with
    periph := { s.periph with pr := periphStart s.cfg a }
    prDefined := true
    portLog := .write .start (a.zeroExtend 32) :: s.portLog }

/-- SubmitWord(w): `P.DIN <- w`, and the peripheral takes the word (43_word_submission R213). -/
def submitWord (w : Word) (s : State) : State :=
  { s with
    periph := { s.periph with din := w, pr := periphAbsorb s.cfg s.periph.pr w }
    portLog := .write .din w :: s.portLog }

/-- Finalize(a, len): `P.LENCFG <- lencfg(a, len[5:0])`, the finalization trigger (43_word_submission R216, R218). -/
def finalize (a : BitVec 4) (len : Word) (s : State) : State :=
  let v := lencfg s.cfg a (len.extractLsb' 0 6)
  { s with
    periph := { s.periph with lencfg := v, res := periphFinal s.cfg s.periph.pr v }
    portLog := .write .lencfg v :: s.portLog }

/-- The reads of P.RES[0] to P.RES[n-1], in that order, for the port log (R219). -/
def resultReads (s : State) (n : Nat) : List PortAccess :=
  (List.range n).map fun j => .read (.res j) (s.periph.res.getD j 0#32)

/-- How many result registers a digest of `d` bytes takes: `ceil(d / 4)` (R219). -/
def digestWords (d : BitVec 8) : Nat := (d.toNat + 3) / 4

/-- ReadDigest(d), the bytes: byte `k` is lane `k mod 4` of P.RES[k div 4] (43_word_submission R219). -/
def digestBytes (s : State) (d : BitVec 8) : List Byte :=
  bytesOf s.cfg.byteOrder d.toNat ((List.range (digestWords d)).map fun j => s.periph.res.getD j 0#32)

/-- ReadDigest(d), the state after the reads: `ceil(d / 4)` result registers, ascending (R219). -/
def afterDigestRead (d : BitVec 8) (s : State) : State :=
  { s with portLog := (resultReads s (digestWords d)).reverse ++ s.portLog }

/-! ## Capture, load, resume (42_arbiter_swap) -/

/-- The reads of a capture in the order of 20_memory R81. -/
def captureReads (s : State) : List PortAccess :=
  List.zipWith (fun r v => .read (.ctx r) v) (contextRegs s.cfg) (s.periph.pr.words s.cfg)

/-- STG after the N + 3 registers are read into it (R186). -/
def stageRegisters (s : State) : State :=
  { s with
    stg := PR.ofWords (s.periph.pr.words s.cfg)
    portLog := (captureReads s).reverse ++ s.portLog }

/-- The indivisible commit of a capture: STG to the shadow of slot `t`, and its SHV set (R186, R187). -/
def commitCapture (t : BitVec 8) (s : State) : State :=
  let s' := s.slotFill t (s.stg.words s.cfg)
  s'.slotPut t .stat (statSetShv (s'.slotGet t .stat))

/-- CaptureInto(t): save the live registers into slot `t` (R186). -/
def captureInto (t : BitVec 8) (s : State) : State := commitCapture t (stageRegisters s)

/-- The writes of a load in the order of 20_memory R81. -/
def restoreWrites (c : BitVec 8) (s : State) : List PortAccess :=
  List.zipWith (fun r v => .write (.ctx r) v) (contextRegs s.cfg) (Store.readAll s.store (slotAddr s.cfg c) s.cfg.contextWords)

/-- The restore path of LoadOrResume: the shadow of slot `c` is written to the peripheral (R185). -/
def restoreFrom (c : BitVec 8) (s : State) : State :=
  { s with
    periph := { s.periph with pr := s.shadow c }
    prDefined := true
    portLog := (restoreWrites c s).reverse ++ s.portLog }

/-- Save the owner, if any (R181, R185). -/
def evictOwner (s : State) : State :=
  match s.owner with
  | none => s
  | some t => captureInto t s

/-- Bring slot `c` into the unit, the previous owner being saved: restore if SHV = 1, else start; OWNER <- c (R185). -/
def bringIn (c : BitVec 8) (a : BitVec 4) (s : State) : State :=
  let s' := if statShv (s.slotGet c .stat) then restoreFrom c s else startUnit a s
  { s' with owner := some c }

/-- LoadOrResume(c, a): make slot `c` the loaded snapshot (R185). -/
def loadOrResume (c : BitVec 8) (a : BitVec 4) (s : State) : Polled :=
  if s.owner = some c then .ok s
  else
    match pollReady .ready s with
    | .timeout s' => .timeout s'
    | .ok s' => .ok (bringIn c a (evictOwner s'))

/-- OWNER names a slot that does not exist, other than `c`: a capture would leave the context store (20_memory R71). -/
def strayOwner (s : State) (c : Option (BitVec 8)) : Bool :=
  match s.owner with
  | none => false
  | some t => decide (some t ≠ c) && !slotExists s.cfg t

/-! ## Responses (30_encoding R111 to R113) -/

/-- The statuses of a response (R112; 60_exceptions R250, R251). -/
inductive Status where
  | ok
  | timeout
  | unsupportedDigestSize
  | unsupportedCipherFamily
  | invalidState
  | rejected
deriving DecidableEq, Repr

/-- The status codes (R112). -/
def Status.code : Status → BitVec 4
  | .ok => 0#4
  | .timeout => 1#4
  | .unsupportedDigestSize => 2#4
  | .unsupportedCipherFamily => 3#4
  | .invalidState => 4#4
  | .rejected => 5#4

/-- A response header: OPC echoed, STATUS, CTX echoed, PLEN, zeros (R111). -/
def responseHeader (opc : BitVec 4) (st : Status) (ctx plen : BitVec 8) : Word :=
  opc ++ st.code ++ ctx ++ plen ++ (0#8)

/-- The response header is built in the response register (10_state R35). -/
def buildResponse (h : Word) (s : State) : State := { s with response := some h }

/-- The response packet goes to the host, and the command is over: latch and response register are empty again
(10_state R35, R37; 20_memory R91). -/
def emitResponse (payload : List Word) (s : State) : State :=
  { s with
    responses := s.responses ++ (s.response.toList ++ payload)
    response := none
    latch := none }

/-- The command ends with a response (R111). -/
def respond (h : Word) (payload : List Word) (s : State) : State := emitResponse payload (buildResponse h s)

/-- `return OK` without payload (00_scope R15; R113). -/
def returnOk (opc : BitVec 4) (ctx : BitVec 8) (s : State) : State := respond (responseHeader opc .ok ctx 0#8) [] s

/-- `raise <Status>`: the command ends at once with that status and no payload, and the state changes made before stand
(00_scope R15; 60_exceptions R260). -/
def raise (opc : BitVec 4) (ctx : BitVec 8) (st : Status) (s : State) : State := respond (responseHeader opc st ctx 0#8) [] s

/-- DataPhaseTimeout(c): slot `c` unspecified, OWNER NONE, PR unspecified, Timeout raised (60_exceptions R263). -/
def dataPhaseTimeout (opc : BitVec 4) (c : BitVec 8) (s : State) : State :=
  raise opc c .timeout (s.unspecifySlot c).releaseUnit

/-- An ill-formed command ends Rejected and changes no state (30_encoding R115, R116). -/
def rejectHeader (h : Word) (s : State) : State := raise (hdrOpc h) (hdrCtx h) .rejected s

/-! ## Pre-checks (41_session_lifecycle R154; 60_exceptions R256) -/

/-- What the checks of a command come to. -/
inductive Check where
  /-- All passed. -/
  | pass
  /-- The command ends with this status. -/
  | raise (st : Status)
  /-- The spec gives the command no meaning here. -/
  | stop (r : Refusal)
deriving DecidableEq, Repr

/-- The checks in order: the first that does not pass decides (R256). -/
def Check.andThen : Check → Check → Check
  | .pass, k => k
  | .raise st, _ => .raise st
  | .stop r, _ => .stop r

/-- A check that raises `st` when `b` holds. -/
def Check.raiseIf (b : Bool) (st : Status) : Check := if b then .raise st else .pass

/-- Pre-checks 1 and 2: the slot exists, the algorithm is available (R154; 30_encoding R117, R118). -/
def operandCheck (s : State) (a : BitVec 4) (c : BitVec 8) : Check :=
  (Check.raiseIf (!slotExists s.cfg c) .rejected).andThen (Check.raiseIf (!algOk s.cfg a) .rejected)

/-- Pre-check 3, HFINAL only: DSZ does not exceed MAXDIG (41_session_lifecycle R165). -/
def digestSizeCheck (s : State) (d : BitVec 8) : Check :=
  Check.raiseIf (decide (s.cfg.maxDigest < d.toNat)) .unsupportedDigestSize

/-- STAT holds what CMX never writes: LIFE = 3 or a reserved bit (93_implementation_defined U4). -/
def statMalformed (st : Word) : Bool := decide (statLife st = .reserved) || decide (statReserved st ≠ 0#24)

/-- BUFLEN holds what CMX never leaves: more than 3 (93_implementation_defined U4; 10_state R46). -/
def bufLenMalformed (n : Word) : Bool := decide (3 < n.toNat)

/-- A slot whose STAT is malformed is given no meaning (93_implementation_defined U4, `refuse`). -/
def statSoundCheck (s : State) (c : BitVec 8) : Check :=
  if statMalformed (s.slotGet c .stat) then .stop .malformedSlot else .pass

/-- A slot whose BUFLEN is malformed is given no meaning (93_implementation_defined U4, `refuse`). -/
def bufLenSoundCheck (s : State) (c : BitVec 8) : Check :=
  if bufLenMalformed (s.slotGet c .bufLen) then .stop .malformedSlot else .pass

/-- Pre-checks 4 and 5: not Finalized; the algorithm is the latched one (R154; 30_encoding R119). -/
def lifecycleCheck (s : State) (a : BitVec 4) (c : BitVec 8) : Check :=
  let st := s.slotGet c .stat
  (Check.raiseIf (decide (statLife st = .finalized)) .invalidState).andThen
    (Check.raiseIf (statAlgv st && decide (statAlg st ≠ a)) .rejected)

/-- `CS[c].STAT <- { LIFE = Active, SHV = shv, ALGV = 1, ALG = a }` (R155, R189). -/
def activate (c : BitVec 8) (shv : Bool) (a : BitVec 4) (s : State) : State := s.slotPut c .stat (mkStat .active shv true a)

/-! ## The Word Buffer (43_word_submission R210 to R215) -/

/-- Append one byte to the buffer of slot `c` and count it (R211; 41_session_lifecycle R157). -/
def appendByte (c : BitVec 8) (x : Byte) (s : State) : State :=
  let s1 := s.slotPut c .buf (setLane s.cfg.byteOrder (s.slotGet c .buf) (s.slotGet c .bufLen).toNat x)
  let s2 := s1.slotPut c .bufLen (s1.slotGet c .bufLen + 1#32)
  s2.slotPut c .loLen (s2.slotGet c .loLen + 1#32)

/-- Take the word out of the buffer of slot `c`, submit it, and wait for P.READY (R212, R213). -/
def submitBuffer (c : BitVec 8) (s : State) : Polled :=
  let w := s.slotGet c .buf
  pollReady .ready (submitWord w ((s.slotPut c .buf 0#32).slotPut c .bufLen 0#32))

/-- Absorb one byte: append it, and submit the word if it is complete (R211). -/
def absorbByte (c : BitVec 8) (x : Byte) (s : State) : Polled :=
  let s' := appendByte c x s
  if s'.slotGet c .bufLen = 4#32 then submitBuffer c s' else .ok s'

/-- Absorb the bytes in order, stopping at a Timeout (41_session_lifecycle R155, R160). -/
def absorbBytes (c : BitVec 8) : List Byte → State → Polled
  | [], s => .ok s
  | x :: xs, s =>
    match absorbByte c x s with
    | .ok s' => absorbBytes c xs s'
    | .timeout s' => .timeout s'

end Sys2Proof.Machine
end

