-- ==== Sys2Proof/Machine/Arbiter.lean ====
section
/-! DEFINITION. The arbiter family: CLOAD and CSAVE (42_arbiter_swap). -/

namespace Sys2Proof.Machine

/-- The pre-checks 1, 2, 4, 5 of CLOAD (R189; 41_session_lifecycle R154; 93_implementation_defined U4). -/
def cloadCheck (a : BitVec 4) (c : BitVec 8) (s : State) : Check :=
  (operandCheck s a c).andThen ((statSoundCheck s c).andThen (lifecycleCheck s a c))

/-- CLOAD after its pre-checks (R189, R190). -/
def cloadRun (a : BitVec 4) (c : BitVec 8) (s : State) : State :=
  match loadOrResume c a s with
  | .timeout s' => raise 5#4 c .timeout s'
  | .ok s' => returnOk 5#4 c (activate c (statShv (s.slotGet c .stat)) a s')

/-- CLOAD (R189). -/
def execCload (alg : BitVec 4) (ctx : BitVec 8) (s : State) : Host.Outcome State Fault Refusal :=
  match cloadCheck alg ctx s with
  | .stop r => .refused r
  | .raise st => .next (raise 5#4 ctx st s)
  | .pass =>
    if strayOwner s (some ctx) then .fault .strayOwner
    else .next (cloadRun alg ctx s)

/-- CSAVE of an existing slot: nothing for a slot that is not the owner, else idle check and capture (R191, R192). -/
def csaveRun (c : BitVec 8) (s : State) : State :=
  if s.owner = some c then
    match pollReady .ready s with
    | .timeout s' => raise 6#4 c .timeout s'
    | .ok s' => returnOk 6#4 c (captureInto c s')
  else returnOk 6#4 c s

/-- CSAVE (R191). -/
def execCsave (ctx : BitVec 8) (s : State) : Host.Outcome State Fault Refusal :=
  if slotExists s.cfg ctx then .next (csaveRun ctx s)
  else .next (raise 6#4 ctx .rejected s)

end Sys2Proof.Machine
end

