-- ==== Sys2Proof/Machine/Capability.lean ====
section
/-! DEFINITION. The capability family: DETECT (40_capability). -/

namespace Sys2Proof.Machine

/-- DETECT: answer CAP as one whole payload word, PLEN = 4 (R141, R143). -/
def execDetect (s : State) : Host.Outcome State Fault Refusal :=
  .next (respond (responseHeader 1#4 .ok 0#8 4#8) [s.cfg.cap] s)

end Sys2Proof.Machine
end

