-- ==== Sys2Proof/Machine/Cipher.lean ====
section
/-! DEFINITION. The cipher adapter family: AINIT (44_cipher_adapter). -/

namespace Sys2Proof.Machine

/-- The SHAPE bit of the blocks (R231). -/
def blocksShape : Blocks → Shape
  | .handle _ => .handle
  | .structs _ _ => .struct

/-- A block that must not be empty is: L1 = 0, or L2 = 0 for SHAPE = 1 (30_encoding R120). -/
def blocksEmpty : Blocks → Bool
  | .handle h => h.isEmpty
  | .structs g k => g.isEmpty || k.isEmpty

/-- BLOB: the handle's words, or the generic words followed by the key words (R231; 10_state R56). -/
def blocksBlob : Blocks → List Word
  | .handle h => h
  | .structs g k => g ++ k

/-- The checks of AINIT, in the order of R234: range, shape, block lengths, then the family (R232, R233). -/
def ainitCheck (f : BitVec 4) (k : BitVec 8) (b : Blocks) (s : State) : Check :=
  (Check.raiseIf (decide (s.cfg.nsess ≤ k.toNat)) .rejected).andThen
    ((Check.raiseIf (decide (blocksShape b ≠ s.cfg.cipherShape)) .rejected).andThen
      ((Check.raiseIf (blocksEmpty b) .rejected).andThen
        (Check.raiseIf (s.cfg.singleCipher && decide (f ≠ s.cfg.supportedFam)) .unsupportedCipherFamily)))

/-- The loaded snapshot is captured and the unit given over: OWNER <- NONE, PR unspecified; no poll when nothing is
loaded (R233, R236). -/
def evictForCipher (s : State) : Polled :=
  match s.owner with
  | none => .ok s.unspecifyPR
  | some t =>
    match pollReady .ready s with
    | .timeout s' => .timeout s'
    | .ok s' => .ok (captureInto t s').releaseUnit

/-- AINIT after its checks (R233, R235). -/
def ainitRun (f : BitVec 4) (k : BitVec 8) (b : Blocks) (s : State) : State :=
  match evictForCipher s with
  | .timeout s' => raise 7#4 k .timeout s'
  | .ok s' => returnOk 7#4 k { s' with sessions := s'.sessions.set k.toNat ⟨true, f, blocksBlob b⟩ }

/-- AINIT (R233). -/
def execAinit (fam : BitVec 4) (sess : BitVec 8) (blocks : Blocks) (s : State) : Host.Outcome State Fault Refusal :=
  match ainitCheck fam sess blocks s with
  | .stop r => .refused r
  | .raise st => .next (raise 7#4 sess st s)
  | .pass =>
    if strayOwner s none then .fault .strayOwner
    else .next (ainitRun fam sess blocks s)

end Sys2Proof.Machine
end

