-- ==== Sys2Proof/Machine/Session.lean ====
section
/-! DEFINITION. The session lifecycle family: HINIT, HUPDATE, HFINAL (41_session_lifecycle). -/

namespace Sys2Proof.Machine

/-- The effect of HINIT on an existing slot: every word 0; a loaded session is dropped without a capture (R152, R153). -/
def initSlot (c : BitVec 8) (s : State) : State :=
  let s' := s.slotFill c (List.replicate s.cfg.slotWords 0#32)
  if s'.owner = some c then s'.releaseUnit else s'

/-- HINIT (R152). -/
def execHinit (ctx : BitVec 8) (s : State) : Host.Outcome State Fault Refusal :=
  if slotExists s.cfg ctx then .next (returnOk 2#4 ctx (initSlot ctx s))
  else .next (raise 2#4 ctx .rejected s)

/-- The pre-checks of HUPDATE (R154; 93_implementation_defined U4). -/
def hupdateCheck (a : BitVec 4) (c : BitVec 8) (s : State) : Check :=
  (operandCheck s a c).andThen
    ((statSoundCheck s c).andThen ((bufLenSoundCheck s c).andThen (lifecycleCheck s a c)))

/-- Some word of `data` will be completed: `CS[c].BUFLEN + n >= 4`, the sum not truncated (R155, R156). -/
def completesWord (c : BitVec 8) (data : List Byte) (s : State) : Bool :=
  decide (4 ≤ (s.slotGet c .bufLen).toNat + data.length)

/-- The swap of HUPDATE: before any change to the slot, and only when a word will be completed (R156). -/
def hupdateSwap (a : BitVec 4) (c : BitVec 8) (data : List Byte) (s : State) : Polled :=
  if completesWord c data s then loadOrResume c a s else .ok s

/-- The body of HUPDATE once the swap is done: latch the algorithm, absorb the bytes (R155); `shv` is the STAT.SHV that
was read before the swap. -/
def hupdateBody (a : BitVec 4) (c : BitVec 8) (shv : Bool) (data : List Byte) (s : State) : State :=
  match absorbBytes c data (activate c shv a s) with
  | .ok s' => returnOk 3#4 c s'
  | .timeout s' => dataPhaseTimeout 3#4 c s'

/-- HUPDATE after its pre-checks (R155). -/
def hupdateRun (a : BitVec 4) (c : BitVec 8) (data : List Byte) (s : State) : State :=
  match hupdateSwap a c data s with
  | .timeout s' => raise 3#4 c .timeout s'
  | .ok s' => hupdateBody a c (statShv (s.slotGet c .stat)) data s'

/-- HUPDATE (R155). -/
def execHupdate (alg : BitVec 4) (ctx : BitVec 8) (len : Word) (payload : List Word) (s : State) :
    Host.Outcome State Fault Refusal :=
  match hupdateCheck alg ctx s with
  | .stop r => .refused r
  | .raise st => .next (raise 3#4 ctx st s)
  | .pass =>
    let data := updateData s.cfg len payload
    if completesWord ctx data s && strayOwner s (some ctx) then .fault .strayOwner
    else .next (hupdateRun alg ctx data s)

/-- The pre-checks of HFINAL (R154, R165; 93_implementation_defined U4). -/
def hfinalCheck (a : BitVec 4) (c d : BitVec 8) (s : State) : Check :=
  (operandCheck s a c).andThen ((digestSizeCheck s d).andThen
    ((statSoundCheck s c).andThen ((bufLenSoundCheck s c).andThen (lifecycleCheck s a c))))

/-- Flush the partial word, if any bytes are buffered; no empty word is submitted (43_word_submission R215). -/
def flushPartial (c : BitVec 8) (s : State) : Polled :=
  if s.slotGet c .bufLen = 0#32 then .ok s else submitBuffer c s

/-- Flush, write the length configuration, wait for P.DREADY (R166; 43_word_submission R215 to R218). -/
def hfinalDrain (a : BitVec 4) (c : BitVec 8) (s : State) : Polled :=
  match flushPartial c s with
  | .timeout s' => .timeout s'
  | .ok s' => pollReady .dready (finalize a (s'.slotGet c .loLen) s')

/-- The digest is ready: read it, finalize the slot, release the unit, answer (R166, R170). -/
def hfinalDeliver (a : BitVec 4) (c d : BitVec 8) (s : State) : State :=
  let payload := packBytes s.cfg.byteOrder (digestBytes s d)
  respond (responseHeader 4#4 .ok c d) payload
    (((afterDigestRead d s).slotPut c .stat (mkStat .finalized false true a)).releaseUnit)

/-- HFINAL after its pre-checks (R166). -/
def hfinalRun (a : BitVec 4) (c d : BitVec 8) (s : State) : State :=
  match loadOrResume c a s with
  | .timeout s' => raise 4#4 c .timeout s'
  | .ok s' =>
    match hfinalDrain a c s' with
    | .timeout s'' => dataPhaseTimeout 4#4 c s''
    | .ok s'' => hfinalDeliver a c d s''

/-- HFINAL (R166). -/
def execHfinal (alg : BitVec 4) (ctx dsz : BitVec 8) (s : State) : Host.Outcome State Fault Refusal :=
  match hfinalCheck alg ctx dsz s with
  | .stop r => .refused r
  | .raise st => .next (raise 4#4 ctx st s)
  | .pass =>
    if strayOwner s (some ctx) then .fault .strayOwner
    else .next (hfinalRun alg ctx dsz s)

end Sys2Proof.Machine
end

