-- ==== Sys2Proof/Machine/Dispatch.lean ====
section
/-! DEFINITION. One arm per command: a direct call of its meaning. -/

namespace Sys2Proof.Machine

def exec (i : Instr) (s : State) : Host.Outcome State Fault Refusal :=
  match i with
  | .detect => Sys2Proof.Machine.execDetect s
  | .hinit ctx => Sys2Proof.Machine.execHinit ctx s
  | .hupdate alg ctx len payload => Sys2Proof.Machine.execHupdate alg ctx len payload s
  | .hfinal alg ctx dsz => Sys2Proof.Machine.execHfinal alg ctx dsz s
  | .cload alg ctx => Sys2Proof.Machine.execCload alg ctx s
  | .csave ctx => Sys2Proof.Machine.execCsave ctx s
  | .ainit fam sess blocks => Sys2Proof.Machine.execAinit fam sess blocks s

end Sys2Proof.Machine
end

