-- ==== Sys2Proof/Machine/Fetch.lean ====
section
/-! DEFINITION. Taking a command from the host stream (20_memory R86, R91; 30_encoding R104; 10_state R35). -/

namespace Sys2Proof.Machine

/-- The length words of a whole packet: LEN for HUPDATE, L1 and for SHAPE = 1 L2 for AINIT (10_state R35). -/
def lengthWords (packet : List Word) : List Word :=
  let h := packet.getD 0 0#32
  let l1 := packet.getD 1 0#32
  if hdrOpc h = 3#4 then [l1]
  else if hdrOpc h = 7#4 then
    if hdrShape h = 0#1 then [l1] else [l1, packet.getD (2 + l1.toNat) 0#32]
  else []

/-- The packet is consumed whole and its header latched; no payload word is still to come (10_state R35; 20_memory R91). -/
def accept (packet rest : List Word) (s : State) : State :=
  { s with commands := rest, latch := some ⟨packet.getD 0 0#32, lengthWords packet, 0⟩ }

/-- The stream with the packet of a table word placed at its front (see `tablePacket`). -/
def placePacket (nbits w : Nat) (s : State) : State := { s with commands := tablePacket nbits w ++ s.commands }

end Sys2Proof.Machine
end

