-- ==== Sys2Proof/Machine/Step.lean ====
section
/-! DEFINITION. One step: one command, from its header to its response (00_scope R16; 20_memory R86). -/

namespace Sys2Proof.Machine

/-- Take the packet at the front of the command stream and run it to its response. An ill-formed one is consumed and
answered Rejected (30_encoding R116). While no whole packet has come, CMX waits (60_exceptions R274). -/
def step (s : State) : Host.Outcome State Fault Refusal :=
  match decode s.commands with
  | .command i packet rest => exec i (accept packet rest s)
  | .illFormed _ packet rest => .next (rejectHeader (packet.getD 0 0#32) (accept packet rest s))
  | .incomplete => .next s

/-- `s` with the packet of the table word `w` at the front of its command stream: the next step runs exactly it. -/
def State.withFetchWord (s : State) (nbits w : Nat) : State := placePacket nbits w s

end Sys2Proof.Machine
end

