-- ==== Sys2Proof/Safety.lean ====
section
/-! DEFINITION. The terms claims are made in: what a good state is (10_state R57), what a poll may touch, when the
peripheral is responsive (10_state R54), which slot a command names, and runs of commands. -/

namespace Sys2Proof.Machine

/-! ## What commands name -/

/-- The OPC of a command (30_encoding R103). -/
def opcOf : Instr → BitVec 4
  | .detect => 1#4
  | .hinit _ => 2#4
  | .hupdate _ _ _ _ => 3#4
  | .hfinal _ _ _ => 4#4
  | .cload _ _ => 5#4
  | .csave _ => 6#4
  | .ainit _ _ _ => 7#4

/-- The CTX (SESS) field of a command, 0 for DETECT (30_encoding R101). -/
def ctxOf : Instr → BitVec 8
  | .detect => 0#8
  | .hinit c => c
  | .hupdate _ c _ _ => c
  | .hfinal _ c _ => c
  | .cload _ c => c
  | .csave c => c
  | .ainit _ k _ => k

/-- The slot a command names, none for DETECT and AINIT (30_encoding R102). -/
def slotOf : Instr → Option (BitVec 8)
  | .detect => none
  | .hinit c => some c
  | .hupdate _ c _ _ => some c
  | .hfinal _ c _ => some c
  | .cload _ c => some c
  | .csave c => some c
  | .ainit _ _ _ => none

/-! ## Effects in closed form -/

/-- `s` after one response packet: the header and payload appended, latch and response register empty. -/
def answered (h : Word) (payload : List Word) (s : State) : State :=
  { s with responses := s.responses ++ h :: payload, response := none, latch := none }

/-- `t` is `s` up to what polling touches: PCNT, the samples and free values used, the port log (42_arbiter_swap R184). -/
def onlyPolled (s t : State) : Prop :=
  t = { s with pcnt := t.pcnt, flagSamples := t.flagSamples, draws := t.draws, portLog := t.portLog }

/-- `t` is `s` up to the response just emitted. -/
def onlyAnswered (s t : State) : Prop :=
  t = { s with responses := t.responses, response := none, latch := none }

/-- Every word of slot `c` reads the same in `s` and `t`. -/
def sameSlot (c : BitVec 8) (s t : State) : Prop :=
  ∀ k < s.cfg.slotWords, Store.read t.store (slotAddr s.cfg c + k) = Store.read s.store (slotAddr s.cfg c + k)

/-- Every word of the store outside slot `c` reads the same in `s` and `t`. -/
def sameOutside (c : BitVec 8) (s t : State) : Prop :=
  ∀ a, (a < slotAddr s.cfg c ∨ slotAddr s.cfg c + s.cfg.slotWords ≤ a) → Store.read t.store a = Store.read s.store a

/-! ## The live state of a session -/

/-- The register state that LoadOrResume of slot `c` for algorithm `a` leaves in the unit (42_arbiter_swap R185):
the live one if `c` is the owner, else the shadow if SHV = 1, else a fresh start. -/
def loadedPR (s : State) (a : BitVec 4) (c : BitVec 8) : PR :=
  if s.owner = some c then s.periph.pr
  else if statShv (s.slotGet c .stat) then s.shadow c
  else periphStart s.cfg a

/-- The bytes received for slot `c` and not yet submitted: lanes 0 to BUFLEN - 1 of BUF (10_state R45). -/
def pendingBytes (s : State) (c : BitVec 8) : List Byte :=
  bytesOf s.cfg.byteOrder (s.slotGet c .bufLen).toNat [s.slotGet c .buf]

/-- The whole words among the bytes `bs`. -/
def wholeWords (o : ByteOrder) (bs : List Byte) : List Word := packBytes o (bs.take (4 * (bs.length / 4)))

/-- The bytes after the last whole word. -/
def leftover (bs : List Byte) : List Byte := bs.drop (4 * (bs.length / 4))

/-! ## A responsive peripheral -/

/-- What the read of P.FLAGS that comes after `k` others will give: the samples the state holds, then free values
(10_state R54). -/
def flagsAhead (s : State) (k : Nat) : Word :=
  if k < s.flagSamples.length then s.flagSamples.getD k 0#32 else Config.freeFlags (s.draws + (k - s.flagSamples.length))

/-- Polls of the flags `fs`, one after the other and the first beginning after `j` reads, all end well: the flag of each is
set in one of the first T samples of that poll, the next poll beginning after the first such sample (42_arbiter_swap
R184). Nothing is asked of the other flag, nor of any later sample. -/
def pollsAnswered (s : State) : List Flag → Nat → Prop
  | [], _ => True
  | f :: fs, j =>
    ∃ i < s.cfg.budget, f.isSet (flagsAhead s (j + i)) = true ∧ (∀ k < i, f.isSet (flagsAhead s (j + k)) = false) ∧
      pollsAnswered s fs (j + i + 1)

/-- ResponsivePeripheral (10_state R54) for the polls of the flags `fs` that come next. -/
def responsive (fs : List Flag) (s : State) : Prop := pollsAnswered s fs 0

/-- The poll of LoadOrResume(c): the idle check, unless `c` is the owner (42_arbiter_swap R185). -/
def swapPolls (s : State) (c : BitVec 8) : List Flag := if s.owner = some c then [] else [.ready]

/-- The polls of an HUPDATE of `n` bytes that completes a word: the swap's, then one for each word (41_session_lifecycle
R155, R156; 43_word_submission R213). P.DREADY is none of them. -/
def updatePolls (s : State) (c : BitVec 8) (n : Nat) : List Flag :=
  swapPolls s c ++ List.replicate (((s.slotGet c .bufLen).toNat + n) / 4) .ready

/-- The polls of an HFINAL: the swap's, one for a partial word, then the one of P.DREADY (41_session_lifecycle R166). -/
def finalPolls (s : State) (c : BitVec 8) : List Flag :=
  swapPolls s c ++ (if s.slotGet c .bufLen = 0#32 then [] else [.ready]) ++ [.dready]

/-! ## Good states (10_state R57) -/

/-- Items 3 to 6 of R57 for slot `c`, and that its STAT holds nothing CMX never writes (R48). -/
structure SlotSound (s : State) (c : BitVec 8) : Prop where
  bufLen_le : (s.slotGet c .bufLen).toNat ≤ 3
  spare_lanes : ∀ b, (s.slotGet c .bufLen).toNat ≤ b → b < 4 → lane s.cfg.byteOrder (s.slotGet c .buf) b = 0#8
  fresh_zero : statLife (s.slotGet c .stat) = .fresh →
    ∀ k < s.cfg.slotWords, Store.read s.store (slotAddr s.cfg c + k) = 0#32
  shv_active : statShv (s.slotGet c .stat) = true → statLife (s.slotGet c .stat) = .active
  unlatched_fresh : statAlgv (s.slotGet c .stat) = false → statLife (s.slotGet c .stat) = .fresh
  active_latched : statLife (s.slotGet c .stat) = .active → statAlgv (s.slotGet c .stat) = true
  stat_sound : statMalformed (s.slotGet c .stat) = false

/-- Items 1 and 2 of R57: OWNER names a slot that exists and is Active, and PR is then defined. -/
def ownerSound (s : State) : Prop :=
  ∀ c, s.owner = some c →
    slotExists s.cfg c = true ∧ statLife (s.slotGet c .stat) = .active ∧ s.prDefined = true

/-- The invariant of the machine's data: the store is in canonical form and inside its address space, the register lists
have the sizes of the configuration, and OWNER is sound. It holds during a command too. -/
structure Sound (s : State) : Prop where
  store_wf : Store.wf s.store
  store_bound : ∀ x ∈ s.store, x.1 < s.cfg.storeWords
  sessions_len : s.sessions.length = s.cfg.nsess
  acc_len : s.periph.pr.acc.length = s.cfg.accWords
  stg_len : s.stg.acc.length = s.cfg.accWords
  res_len : s.periph.res.length = s.cfg.resultWords
  owner_sound : ownerSound s

/-- The invariant between commands: sound data and no command in progress (10_state R35, R57). -/
structure Inv (s : State) : Prop where
  sound : Sound s
  no_command : s.latch = none
  no_response : s.response = none

/-! ## When a command is admitted -/

/-- The pre-checks 1, 2, 4, 5 of 41_session_lifecycle R154 pass, on a slot whose STAT CMX can have written. -/
structure SessionOpen (s : State) (a : BitVec 4) (c : BitVec 8) : Prop where
  slot : slotExists s.cfg c = true
  alg : algOk s.cfg a = true
  stat_sound : statMalformed (s.slotGet c .stat) = false
  not_finalized : statLife (s.slotGet c .stat) ≠ .finalized
  same_alg : statAlgv (s.slotGet c .stat) = true → statAlg (s.slotGet c .stat) = a

/-- The checks of AINIT pass (44_cipher_adapter R233, R234). -/
structure CipherOpen (s : State) (f : BitVec 4) (k : BitVec 8) (b : Blocks) : Prop where
  record : k.toNat < s.cfg.nsess
  shape : blocksShape b = s.cfg.cipherShape
  nonempty : blocksEmpty b = false
  family : s.cfg.singleCipher = true → f = s.cfg.supportedFam

/-- OWNER, if valid, names a slot that exists (10_state R57 item 1). -/
def ownerExists (s : State) : Prop := ∀ t, s.owner = some t → slotExists s.cfg t = true

/-- The command is ill-matched to the configuration in a way that R117, R118 or R120 of 30_encoding makes Rejected. -/
def operandRejected (s : State) : Instr → Prop
  | .detect => False
  | .hinit c => slotExists s.cfg c = false
  | .hupdate a c _ _ => slotExists s.cfg c = false ∨ algOk s.cfg a = false
  | .hfinal a c _ => slotExists s.cfg c = false ∨ algOk s.cfg a = false
  | .cload a c => slotExists s.cfg c = false ∨ algOk s.cfg a = false
  | .csave c => slotExists s.cfg c = false
  | .ainit _ k b => s.cfg.nsess ≤ k.toNat ∨ blocksShape b ≠ s.cfg.cipherShape ∨ blocksEmpty b = true

/-- The command passes its checks and makes an idle check before it goes on: a swap, a save or an eviction
(60_exceptions R262). -/
def idleChecks (s : State) : Instr → Prop
  | .detect => False
  | .hinit _ => False
  | .hupdate a c len payload =>
    SessionOpen s a c ∧ (s.slotGet c .bufLen).toNat ≤ 3 ∧ s.owner ≠ some c ∧
      4 ≤ (s.slotGet c .bufLen).toNat + (updateData s.cfg len payload).length
  | .hfinal a c d =>
    SessionOpen s a c ∧ (s.slotGet c .bufLen).toNat ≤ 3 ∧ s.owner ≠ some c ∧ d.toNat ≤ s.cfg.maxDigest
  | .cload a c => SessionOpen s a c ∧ s.owner ≠ some c
  | .csave c => slotExists s.cfg c = true ∧ s.owner = some c
  | .ainit f k b => CipherOpen s f k b ∧ s.owner ≠ none

/-- Address `x` is a word of slot `c` (20_memory R72). -/
def inSlot (s : State) (c : BitVec 8) (x : Nat) : Prop :=
  slotAddr s.cfg c ≤ x ∧ x < slotAddr s.cfg c + s.cfg.slotWords

/-- What a swap leaves of the previous owner, if it had one other than `c`: its shadow holds the live registers, SHV is
set, and BUF, BUFLEN, LOLEN and the rest of STAT are as they were (42_arbiter_swap R186). -/
def ownerSaved (c : BitVec 8) (s t : State) : Prop :=
  ∀ o, s.owner = some o → o ≠ c →
    t.shadow o = s.periph.pr ∧ t.slotGet o .stat = statSetShv (s.slotGet o .stat) ∧
    t.slotGet o .buf = s.slotGet o .buf ∧ t.slotGet o .bufLen = s.slotGet o .bufLen ∧
    t.slotGet o .loLen = s.slotGet o .loLen

/-- Every word of the store outside slot `c` and outside the previous owner's slot is unchanged (20_memory R73). -/
def othersKept (c : BitVec 8) (s t : State) : Prop :=
  ∀ x, ¬ inSlot s c x → (∀ o, s.owner = some o → ¬ inSlot s o x) → Store.read t.store x = Store.read s.store x

/-- The shadow words IMR, SCR, CR and ACC of slot `c` are unchanged. -/
def shadowKept (c : BitVec 8) (s t : State) : Prop :=
  ∀ k < s.cfg.contextWords, Store.read t.store (slotAddr s.cfg c + k) = Store.read s.store (slotAddr s.cfg c + k)

/-- The writes among port accesses, in the order of the list. -/
def portWrites : List PortAccess → List (WriteReg × Word)
  | [] => []
  | .write r v :: l => (r, v) :: portWrites l
  | .read _ _ :: l => portWrites l

/-- The writes LoadOrResume of slot `c` for algorithm `a` makes on the port: none for a resume, the N + 3 registers of the
shadow for a restore, P.START for a first start (42_arbiter_swap R185, R195; 20_memory R81). -/
def loadWrites (s : State) (a : BitVec 4) (c : BitVec 8) : List (WriteReg × Word) :=
  if s.owner = some c then []
  else if statShv (s.slotGet c .stat) then
    List.zip ((contextRegs s.cfg).map .ctx) ((s.shadow c).words s.cfg)
  else [(.start, a.zeroExtend 32)]

/-- The reads of P.FLAGS among port accesses. -/
def flagReads : List PortAccess → Nat
  | [] => 0
  | .read .flags _ :: l => flagReads l + 1
  | .read (.ctx _) _ :: l => flagReads l
  | .read (.res _) _ :: l => flagReads l
  | .write _ _ :: l => flagReads l

/-- The polls a command may contain (42_arbiter_swap R183). -/
def pollBound (s : State) : Instr → Nat
  | .detect => 0
  | .hinit _ => 0
  | .hupdate _ c len payload => 1 + ((s.slotGet c .bufLen).toNat + (updateData s.cfg len payload).length) / 4
  | .hfinal _ _ _ => 3
  | .cload _ _ => 1
  | .csave _ => 1
  | .ainit _ _ _ => 1

/-! ## Runs -/

/-- Run commands one after the other; the run ends at the first that stops. -/
def execAll : List Instr → State → Host.Outcome State Fault Refusal
  | [], s => .next s
  | i :: is, s =>
    match exec i s with
    | .next t => execAll is t
    | .fault f => .fault f
    | .refused r => .refused r

end Sys2Proof.Machine
end

