-- ==== Sys2Proof/Certificates/Slice0/Obligations.lean ====
section
/-! DEFINITION. What is claimed of the CMX model. Each statement's docstring names the rule of spec/ it formalises, or says
that it rests on a choice of the model. -/

open Sys2Proof Sys2Proof.Machine

/-! ## Encoding -/

/-- Decoding the packet of a well-formed command, whatever follows it in the stream, gives that command back and consumes
exactly its packet (30_encoding R101, R104 to R107, R125). -/
def Obligations.DecodeInvertsEncode : Prop :=
  ∀ (i : Instr) (rest : List Word), i.wf = true → decode (encode i ++ rest) = .command i (encode i) rest

/-- A packet that decodes is the packet of the command it decodes to, that command is well formed, and nothing of the
stream is lost: no bit of an accepted packet is dropped (30_encoding R101, R104 to R107, R125). -/
def Obligations.EncodeInvertsDecode : Prop :=
  ∀ (ws : List Word) (i : Instr) (packet rest : List Word), decode ws = .command i packet rest →
    i.wf = true ∧ encode i = packet ∧ packet ++ rest = ws

/-- A header word `h` selects a row when `h & mask = match`, for the seven rows of the opcode table; so it selects at most
one (30_encoding R125). -/
def Obligations.HeaderSelectsItsRow : Prop :=
  ∀ h : Word,
    (selectRow h = some .detect ↔ h &&& 0xFFFFFFFF#32 = 0x10000000#32) ∧
    (selectRow h = some .hinit ↔ h &&& 0xFF00FFFF#32 = 0x20000000#32) ∧
    (selectRow h = some .hupdate ↔ h &&& 0xF000FFFF#32 = 0x30000000#32) ∧
    (selectRow h = some .hfinal ↔ h &&& 0xF00000FF#32 = 0x40000000#32) ∧
    (selectRow h = some .cload ↔ h &&& 0xF000FFFF#32 = 0x50000000#32) ∧
    (selectRow h = some .csave ↔ h &&& 0xFF00FFFF#32 = 0x60000000#32) ∧
    (selectRow h = some .ainit ↔ h &&& 0xF000FFFE#32 = 0x70000000#32)

/-- A header is ill-formed exactly when its OPC is 0x0 or 0x8 to 0xF or a field that must be 0 for its OPC is not
(30_encoding R115). -/
def Obligations.IllFormedExactlyByFields : Prop :=
  ∀ h : Word, selectRow h = none ↔
    hdrOpc h = 0#4 ∨ 8#4 ≤ hdrOpc h ∨
    ((hdrOpc h = 1#4 ∨ hdrOpc h = 2#4 ∨ hdrOpc h = 6#4) ∧ hdrAlg h ≠ 0#4) ∨
    (hdrOpc h = 1#4 ∧ hdrCtx h ≠ 0#8) ∨
    (hdrOpc h ≠ 4#4 ∧ hdrDsz h ≠ 0#8) ∨
    hdrRsv h ≠ 0#7 ∨
    (hdrOpc h ≠ 7#4 ∧ hdrShape h ≠ 0#1)

/-- The packets of 30_encoding R126 decode to the commands R126 says they are, and the two response headers it gives are
those of an OK to HINIT c3 and of a Timeout to HUPDATE c1. -/
def Obligations.ExamplePacketsDecode : Prop :=
  decode [0x20030000#32] = .command (.hinit 3#8) [0x20030000#32] [] ∧
  decode [0x33010000#32, 3#32, 0x00636261#32] =
    .command (.hupdate 3#4 1#8 3#32 [0x00636261#32]) [0x33010000#32, 3#32, 0x00636261#32] [] ∧
  decode [0x43012000#32] = .command (.hfinal 3#4 1#8 32#8) [0x43012000#32] [] ∧
  decode [0x50000000#32] = .command (.cload 0#4 0#8) [0x50000000#32] [] ∧
  decode [0x60020000#32] = .command (.csave 2#8) [0x60020000#32] [] ∧
  decode [0x10000000#32] = .command .detect [0x10000000#32] [] ∧
  decode [0x70000000#32, 1#32, 0xDEADBEEF#32] =
    .command (.ainit 0#4 0#8 (.handle [0xDEADBEEF#32])) [0x70000000#32, 1#32, 0xDEADBEEF#32] [] ∧
  responseHeader 2#4 .ok 3#8 0#8 = 0x20030000#32 ∧ responseHeader 3#4 .timeout 1#8 0#8 = 0x31010000#32

/-! ## The step -/

/-- When the front of the command stream decodes to a command, the step consumes its packet, latches its header and
length words, and runs exactly that command (00_scope R16; 20_memory R86; 10_state R35). That the latch's count of payload
words still to come is 0 is the model's choice: the packet is taken whole before the command runs (log entries 6 and 13). -/
def Obligations.StepRunsTheDecodedCommand : Prop :=
  ∀ (s : State) (i : Instr) (packet rest : List Word), decode s.commands = .command i packet rest →
    step s = exec i { s with commands := rest, latch := some ⟨packet.getD 0 0#32, lengthWords packet, 0⟩ }

/-- A whole packet whose header selects no row is consumed whole by R104 and answered Rejected with OPC and CTX echoed and
no payload; nothing else changes and the peripheral is not accessed (30_encoding R104, R111, R115, R116). -/
def Obligations.IllFormedPacketIsRejected : Prop :=
  ∀ (s : State) (h : Word) (tail : List Word) (n : Nat), s.commands = h :: tail → selectRow h = none →
    packetWords s.commands = some n → n ≤ s.commands.length →
    step s = .next { s with
      commands := s.commands.drop n
      responses := s.responses ++ [hdrOpc h ++ 5#4 ++ hdrCtx h ++ 0#8 ++ 0#8]
      response := none
      latch := none }

/-- MODEL'S CHOICE (log entry 6): while the stream holds no whole packet, the step changes nothing; CMX waits for the rest
(60_exceptions R274). -/
def Obligations.StepWaitsForAWholePacket : Prop :=
  ∀ s : State, (packetWords s.commands = none ∨ ∃ n, packetWords s.commands = some n ∧ s.commands.length < n) →
    step s = .next s

/-- The packet placed by withFetchWord is the one the next step runs, the words behind it untouched (the model's own
interface; 20_memory R91). -/
def Obligations.PlacedPacketRunsNext : Prop :=
  ∀ (s : State) (nbits w : Nat) (i : Instr), decodeTableWord nbits w = some i →
    step (s.withFetchWord nbits w) = exec i (accept (tablePacket nbits w) s.commands s)

/-- No command writes a parameter: CAP, CFG and the sizes are the same after every step (00_scope R11). -/
def Obligations.ConfigurationNeverChanges : Prop :=
  ∀ s t : State, step s = .next t → t.cfg = s.cfg

/-- Every packet taken from the stream, accepted or not, is consumed whole and answered by exactly one response packet: a
header with the OPC and CTX bits echoed, then ceil(PLEN / 4) payload words, the lanes beyond byte PLEN - 1 being 0. DETECT
with status OK has PLEN = 4 and the payload word CAP; HFINAL with status OK has PLEN = DSZ; every other command, and every
response whose status is not OK, has PLEN = 0. The command is then over (30_encoding R111, R113; 20_memory R91). -/
def Obligations.OneResponsePerCommand : Prop :=
  ∀ (s t : State) (h : Word) (tail : List Word) (n : Nat), s.commands = h :: tail → packetWords s.commands = some n →
    n ≤ s.commands.length → step s = .next t →
    ∃ (st : Status) (plen : BitVec 8) (payload : List Word),
      t.responses = s.responses ++ responseHeader (hdrOpc h) st (hdrCtx h) plen :: payload ∧
      t.commands = s.commands.drop n ∧
      payload.length = (plen.toNat + 3) / 4 ∧
      (∀ j b, b < 4 → plen.toNat ≤ 4 * j + b → lane s.cfg.byteOrder (payload.getD j 0#32) b = 0#8) ∧
      (st ≠ .ok → plen = 0#8) ∧
      (hdrOpc h ≠ 1#4 → hdrOpc h ≠ 4#4 → plen = 0#8) ∧
      (hdrOpc h = 1#4 → st = .ok → plen = 4#8 ∧ payload = [s.cfg.cap]) ∧
      (hdrOpc h = 4#4 → st = .ok → plen = hdrDsz h) ∧
      t.latch = none ∧ t.response = none

/-- A command stops the machine only on a slot that holds what CMX never writes: for every other state with a sound OWNER
it runs to its response (70_reset_and_hazards R312; 93_implementation_defined U4, of whose treatments the refusal is the
model's choice, log entry 7). -/
def Obligations.CommandsRunToTheirResponse : Prop :=
  ∀ (i : Instr) (s : State), ownerExists s →
    (∀ c, slotOf i = some c → statMalformed (s.slotGet c .stat) = false ∧ (s.slotGet c .bufLen).toNat ≤ 3) →
    ∃ t, exec i s = .next t

/-- Only AINIT writes a cipher session record (10_state R56; 44_cipher_adapter R237). -/
def Obligations.OnlyAinitWritesSessions : Prop :=
  ∀ (i : Instr) (s t : State), exec i s = .next t → (∀ f k b, i ≠ .ainit f k b) → t.sessions = s.sessions

/-! ## Rejections and their order (60_exceptions R256) -/

/-- A command whose slot, algorithm, session number, shape or block length is out of range ends Rejected, whatever else is
wrong with it and whatever the slot holds; nothing but the response changes (30_encoding R116, R117, R118, R120). -/
def Obligations.BadOperandIsRejected : Prop :=
  ∀ (i : Instr) (s : State), operandRejected s i →
    exec i s = .next (answered (responseHeader (opcOf i) .rejected (ctxOf i) 0#8) [] s)

/-- An HFINAL of an existing slot and an available algorithm ends UnsupportedDigestSize exactly when DSZ exceeds MAXDIG,
which is 32 with EXT and 20 without; then no slot word, not OWNER, no peripheral register changes or is accessed
(41_session_lifecycle R165). -/
def Obligations.OversizedDigestIsRefusedFirst : Prop :=
  ∀ (a : BitVec 4) (c d : BitVec 8) (s : State), slotExists s.cfg c = true → algOk s.cfg a = true →
    ((if s.cfg.ext then 32 else 20) < d.toNat →
      exec (.hfinal a c d) s = .next (answered (responseHeader 4#4 .unsupportedDigestSize c 0#8) [] s)) ∧
    (d.toNat ≤ (if s.cfg.ext then 32 else 20) → ∀ t, exec (.hfinal a c d) s = .next t →
      t.responses ≠ s.responses ++ [responseHeader 4#4 .unsupportedDigestSize c 0#8])

/-- HUPDATE, HFINAL and CLOAD of a Finalized slot end InvalidState, before the latched algorithm is looked at, and change
nothing (41_session_lifecycle R154, R169; 60_exceptions R255, R256). -/
def Obligations.FinalizedSlotIsInvalidState : Prop :=
  ∀ (a : BitVec 4) (c : BitVec 8) (s : State), slotExists s.cfg c = true → algOk s.cfg a = true →
    statMalformed (s.slotGet c .stat) = false → (s.slotGet c .bufLen).toNat ≤ 3 →
    statLife (s.slotGet c .stat) = .finalized →
    (∀ len payload, exec (.hupdate a c len payload) s =
      .next (answered (responseHeader 3#4 .invalidState c 0#8) [] s)) ∧
    (∀ d : BitVec 8, d.toNat ≤ s.cfg.maxDigest →
      exec (.hfinal a c d) s = .next (answered (responseHeader 4#4 .invalidState c 0#8) [] s)) ∧
    exec (.cload a c) s = .next (answered (responseHeader 5#4 .invalidState c 0#8) [] s)

/-- HUPDATE, HFINAL and CLOAD with an algorithm other than the latched one end Rejected and change nothing
(30_encoding R119; 70_reset_and_hazards R304). -/
def Obligations.ChangedAlgorithmIsRejected : Prop :=
  ∀ (a : BitVec 4) (c : BitVec 8) (s : State), slotExists s.cfg c = true → algOk s.cfg a = true →
    statMalformed (s.slotGet c .stat) = false → (s.slotGet c .bufLen).toNat ≤ 3 →
    statLife (s.slotGet c .stat) ≠ .finalized →
    statAlgv (s.slotGet c .stat) = true → a ≠ statAlg (s.slotGet c .stat) →
    (∀ len payload, exec (.hupdate a c len payload) s = .next (answered (responseHeader 3#4 .rejected c 0#8) [] s)) ∧
    (∀ d : BitVec 8, d.toNat ≤ s.cfg.maxDigest →
      exec (.hfinal a c d) s = .next (answered (responseHeader 4#4 .rejected c 0#8) [] s)) ∧
    exec (.cload a c) s = .next (answered (responseHeader 5#4 .rejected c 0#8) [] s)

/-- A restricted unit turns away an AINIT for a family other than SUPPORTED_FAM before touching hardware: only the response
changes. On an unrestricted unit no family is turned away (44_cipher_adapter R232; 60_exceptions R254). -/
def Obligations.UnsupportedFamilyIsRefused : Prop :=
  ∀ (f : BitVec 4) (k : BitVec 8) (b : Blocks) (s : State), k.toNat < s.cfg.nsess →
    blocksShape b = s.cfg.cipherShape → blocksEmpty b = false →
    (s.cfg.singleCipher = true → f ≠ s.cfg.supportedFam →
      exec (.ainit f k b) s = .next (answered (responseHeader 7#4 .unsupportedCipherFamily k 0#8) [] s)) ∧
    (s.cfg.singleCipher = false → ∀ t, exec (.ainit f k b) s = .next t →
      t.responses ≠ s.responses ++ [responseHeader 7#4 .unsupportedCipherFamily k 0#8])

/-- MODEL'S CHOICE among the treatments of 93_implementation_defined U4 (log entry 7): a slot whose STAT has LIFE = 3 or a
reserved bit set, or (for the two commands that read it) whose BUFLEN is above 3, is given no meaning. -/
def Obligations.MalformedSlotIsRefused : Prop :=
  ∀ (a : BitVec 4) (c : BitVec 8) (s : State), slotExists s.cfg c = true → algOk s.cfg a = true →
    (statMalformed (s.slotGet c .stat) = true → exec (.cload a c) s = .refused .malformedSlot) ∧
    (statMalformed (s.slotGet c .stat) = true ∨ 3 < (s.slotGet c .bufLen).toNat →
      (∀ len payload, exec (.hupdate a c len payload) s = .refused .malformedSlot) ∧
      (∀ d : BitVec 8, d.toNat ≤ s.cfg.maxDigest → exec (.hfinal a c d) s = .refused .malformedSlot))

/-- MODEL'S CHOICE (log entry 8): a capture into a slot that does not exist would leave the context store, so the command
faults before anything changes (20_memory R71). -/
def Obligations.StrayOwnerFaults : Prop :=
  ∀ (s : State) (o : BitVec 8), s.owner = some o → slotExists s.cfg o = false →
    (∀ a c, SessionOpen s a c → exec (.cload a c) s = .fault .strayOwner) ∧
    (∀ a c (d : BitVec 8), SessionOpen s a c → (s.slotGet c .bufLen).toNat ≤ 3 → d.toNat ≤ s.cfg.maxDigest →
      exec (.hfinal a c d) s = .fault .strayOwner) ∧
    (∀ a c len payload, SessionOpen s a c → (s.slotGet c .bufLen).toNat ≤ 3 →
      4 ≤ (s.slotGet c .bufLen).toNat + (updateData s.cfg len payload).length →
      exec (.hupdate a c len payload) s = .fault .strayOwner) ∧
    (∀ f k b, CipherOpen s f k b → exec (.ainit f k b) s = .fault .strayOwner)

/-! ## Polling and timeouts -/

/-- PollReady(f): if sample i (1 ≤ i ≤ T) is the first with the flag set, exactly i reads are made and the result is OK; if
all T samples read 0, exactly T reads are made and the result is Timeout; with T = 0 no read is made. PCNT counts the reads
and no other register changes (42_arbiter_swap R184). -/
def Obligations.PollSamplesAtMostTheBudget : Prop :=
  ∀ (f : Flag) (s : State) (clear later : List Word), (∀ z ∈ clear, f.isSet z = false) →
    (∀ v, s.flagSamples = clear ++ v :: later → f.isSet v = true → clear.length < s.cfg.budget →
      pollReady f s = .ok { s with
        pcnt := BitVec.ofNat 32 (clear.length + 1)
        flagSamples := later
        portLog := ((clear ++ [v]).map (PortAccess.read .flags)).reverse ++ s.portLog }) ∧
    (s.flagSamples = clear ++ later → clear.length = s.cfg.budget →
      pollReady f s = .timeout { s with
        pcnt := s.cfg.tmo
        flagSamples := later
        portLog := (clear.map (PortAccess.read .flags)).reverse ++ s.portLog })

/-- No command hangs: the reads of P.FLAGS it makes are at most T for each poll it may contain, and those are at most
1 + (BUFLEN + n) div 4 for HUPDATE, 3 for HFINAL, 1 for CLOAD, CSAVE and AINIT, none for DETECT and HINIT
(42_arbiter_swap R183; 70_reset_and_hazards R312). The store is in canonical form, as it is in every state that a run
reaches (InvariantIsKept). -/
def Obligations.PollingIsBounded : Prop :=
  ∀ (i : Instr) (s t : State), Store.wf s.store → exec i s = .next t →
    ∃ log, t.portLog = log ++ s.portLog ∧ flagReads log ≤ pollBound s i * s.cfg.budget

/-- A swap-phase Timeout: the idle check of a swap, of CSAVE or of the evict in AINIT fails, and the command ends Timeout
with no slot, not OWNER, not PR, no session record changed; only flags were read (60_exceptions R261, R262). -/
def Obligations.SwapPhaseTimeoutChangesNothing : Prop :=
  ∀ (i : Instr) (s s' : State), ownerExists s → idleChecks s i → pollReady .ready s = .timeout s' →
    exec i s = .next (answered (responseHeader (opcOf i) .timeout (ctxOf i) 0#8) [] s') ∧ onlyPolled s s'

/-- DataPhaseTimeout(c): every word of slot `c` is a free value, no other word of the store changes, OWNER is NONE, PR is
unspecified and its words are free values, Timeout is answered, which ends the command, and nothing else changes
(60_exceptions R263). That the free values are drawn,
and in this order, is the model's choice (log entry 9). -/
def Obligations.DataPhaseTimeoutEffect : Prop :=
  ∀ (opc : BitVec 4) (c : BitVec 8) (s : State), Store.wf s.store →
    ∃ t, dataPhaseTimeout opc c s = t ∧
      (∀ k < s.cfg.slotWords, Store.read t.store (slotAddr s.cfg c + k) = Config.freeWord (s.draws + k)) ∧
      (∀ x, ¬ inSlot s c x → Store.read t.store x = Store.read s.store x) ∧
      t.owner = none ∧ t.prDefined = false ∧
      (∀ k < s.cfg.contextWords,
        (t.periph.pr.words s.cfg).getD k 0#32 = Config.freeWord (s.draws + s.cfg.slotWords + k)) ∧
      t = { s with
        store := t.store
        owner := none
        periph := { s.periph with pr := t.periph.pr }
        prDefined := false
        draws := s.draws + s.cfg.slotWords + s.cfg.contextWords
        responses := s.responses ++ [responseHeader opc .timeout c 0#8]
        response := none
        latch := none }

/-- When the poll after a word of an HUPDATE or after the flush or the length write of an HFINAL fails, the command ends by
DataPhaseTimeout: every word of the session's slot is a free value, OWNER is NONE, PR is unspecified, and no other slot is
harmed, the previous owner having been captured whole before (60_exceptions R261, R263). That the free values are drawn,
and in this order, is the model's choice (log entry 9). -/
def Obligations.DataPhaseTimeoutHarmsOneSlot : Prop :=
  ∀ (a : BitVec 4) (c : BitVec 8) (s s1 s2 : State), Sound s → SessionOpen s a c → (s.slotGet c .bufLen).toNat ≤ 3 →
    (∀ len payload, hupdateSwap a c (updateData s.cfg len payload) s = .ok s1 →
      absorbBytes c (updateData s.cfg len payload) (activate c (statShv (s.slotGet c .stat)) a s1) = .timeout s2 →
      ∃ t, exec (.hupdate a c len payload) s = .next t ∧ t = dataPhaseTimeout 3#4 c s2 ∧
        (∀ k < s.cfg.slotWords, Store.read t.store (slotAddr s.cfg c + k) = Config.freeWord (s2.draws + k)) ∧
        t.owner = none ∧ t.prDefined = false ∧ t.sessions = s.sessions ∧ ownerSaved c s t ∧ othersKept c s t ∧
        t.responses = s.responses ++ [responseHeader 3#4 .timeout c 0#8]) ∧
    (∀ d : BitVec 8, d.toNat ≤ s.cfg.maxDigest → loadOrResume c a s = .ok s1 → hfinalDrain a c s1 = .timeout s2 →
      ∃ t, exec (.hfinal a c d) s = .next t ∧ t = dataPhaseTimeout 4#4 c s2 ∧
        (∀ k < s.cfg.slotWords, Store.read t.store (slotAddr s.cfg c + k) = Config.freeWord (s2.draws + k)) ∧
        t.owner = none ∧ t.prDefined = false ∧ t.sessions = s.sessions ∧ ownerSaved c s t ∧ othersKept c s t ∧
        t.responses = s.responses ++ [responseHeader 4#4 .timeout c 0#8])

/-! ## DETECT -/

/-- DETECT always answers CAP as one payload word, 0x00203601 with EXT and 0x00143200 without; nothing else changes
(40_capability R141, R143; 10_state R39). -/
def Obligations.DetectAnswersTheDescriptor : Prop :=
  ∀ s : State, exec .detect s = .next (answered 0x10000400#32 [if s.cfg.ext then 0x00203601#32 else 0x00143200#32] s)

/-! ## HINIT -/

/-- HINIT of an existing slot zeroes all its words in every lifecycle state and answers OK; if the slot was the owner it is
dropped without a capture and PR becomes unspecified; nothing else changes and the port is not accessed. A second HINIT
changes nothing but the response stream. HINIT of a slot that does not exist is Rejected and changes nothing
(41_session_lifecycle R152, R153). -/
def Obligations.HinitClearsTheSlot : Prop :=
  ∀ (c : BitVec 8) (s : State), Store.wf s.store →
    (slotExists s.cfg c = false → exec (.hinit c) s = .next (answered (responseHeader 2#4 .rejected c 0#8) [] s)) ∧
    (slotExists s.cfg c = true → ∃ t, exec (.hinit c) s = .next t ∧
      (∀ k < s.cfg.slotWords, Store.read t.store (slotAddr s.cfg c + k) = 0#32) ∧
      (∀ x, ¬ inSlot s c x → Store.read t.store x = Store.read s.store x) ∧
      t.owner = (if s.owner = some c then none else s.owner) ∧
      (s.owner ≠ some c → t.periph = s.periph ∧ t.prDefined = s.prDefined ∧ t.draws = s.draws) ∧
      (s.owner = some c → t.prDefined = false ∧ t.periph = { s.periph with pr := t.periph.pr }) ∧
      t.pcnt = s.pcnt ∧ t.stg = s.stg ∧ t.sessions = s.sessions ∧ t.portLog = s.portLog ∧ t.cfg = s.cfg ∧
      t.flagSamples = s.flagSamples ∧ t.commands = s.commands ∧
      t.responses = s.responses ++ [responseHeader 2#4 .ok c 0#8] ∧
      exec (.hinit c) t = .next { t with responses := t.responses ++ [responseHeader 2#4 .ok c 0#8] })

/-! ## HUPDATE -/

/-- An HUPDATE that completes no word makes no swap and no port access: it appends its bytes to the next lanes of BUF,
counts them, latches the algorithm, and touches nothing else (41_session_lifecycle R155, R156, R158; 43_word_submission
R211). -/
def Obligations.HupdateBuffersAShortChunk : Prop :=
  ∀ (a : BitVec 4) (c : BitVec 8) (len : Word) (payload : List Word) (s : State), Store.wf s.store → SessionOpen s a c →
    (s.slotGet c .bufLen).toNat + (updateData s.cfg len payload).length < 4 →
    ∃ t, exec (.hupdate a c len payload) s = .next t ∧
      (∀ b < 4, lane s.cfg.byteOrder (t.slotGet c .buf) b =
        if (s.slotGet c .bufLen).toNat ≤ b ∧ b < (s.slotGet c .bufLen).toNat + (updateData s.cfg len payload).length then
          (updateData s.cfg len payload).getD (b - (s.slotGet c .bufLen).toNat) 0#8
        else lane s.cfg.byteOrder (s.slotGet c .buf) b) ∧
      (t.slotGet c .bufLen).toNat = (s.slotGet c .bufLen).toNat + (updateData s.cfg len payload).length ∧
      t.slotGet c .loLen = s.slotGet c .loLen + BitVec.ofNat 32 (updateData s.cfg len payload).length ∧
      t.slotGet c .stat = mkStat .active (statShv (s.slotGet c .stat)) true a ∧
      shadowKept c s t ∧ (∀ x, ¬ inSlot s c x → Store.read t.store x = Store.read s.store x) ∧
      t = { s with
        store := t.store
        responses := s.responses ++ [responseHeader 3#4 .ok c 0#8]
        response := none
        latch := none }

/-- An HUPDATE that completes words, P.READY answering each of its polls within T samples (10_state R54), whatever P.DREADY
reads: the session is loaded, every whole word of the pending bytes followed by the data is written to P.DIN in order and
absorbed, the rest stays buffered, the length counter has advanced by the number of bytes, the algorithm is latched; the
previous owner is saved and no other slot is touched (41_session_lifecycle R155, R160; 43_word_submission R211 to R214; 42_arbiter_swap R185). -/
def Obligations.HupdateSubmitsWholeWords : Prop :=
  ∀ (a : BitVec 4) (c : BitVec 8) (len : Word) (payload : List Word) (s : State), Sound s → SessionOpen s a c →
    (s.slotGet c .bufLen).toNat ≤ 3 →
    4 ≤ (s.slotGet c .bufLen).toNat + (updateData s.cfg len payload).length →
    responsive (updatePolls s c (updateData s.cfg len payload).length) s →
    ∃ t, exec (.hupdate a c len payload) s = .next t ∧
      ∃ bs, bs = pendingBytes s c ++ updateData s.cfg len payload ∧
      t.owner = some c ∧ t.prDefined = true ∧
      t.periph.pr = (wholeWords s.cfg.byteOrder bs).foldl (periphAbsorb s.cfg) (loadedPR s a c) ∧
      some t.periph.din = (wholeWords s.cfg.byteOrder bs).getLast? ∧
      portWrites t.portLog.reverse = portWrites s.portLog.reverse ++ loadWrites s a c ++
        (wholeWords s.cfg.byteOrder bs).map (fun w => (WriteReg.din, w)) ∧
      pendingBytes t c = leftover bs ∧ (t.slotGet c .bufLen).toNat = bs.length % 4 ∧
      (∀ b, bs.length % 4 ≤ b → b < 4 → lane s.cfg.byteOrder (t.slotGet c .buf) b = 0#8) ∧
      t.slotGet c .loLen = s.slotGet c .loLen + BitVec.ofNat 32 (updateData s.cfg len payload).length ∧
      t.slotGet c .stat = mkStat .active (statShv (s.slotGet c .stat)) true a ∧
      shadowKept c s t ∧ ownerSaved c s t ∧ othersKept c s t ∧
      t.periph.lencfg = s.periph.lencfg ∧ t.periph.res = s.periph.res ∧ t.sessions = s.sessions ∧ t.cfg = s.cfg ∧
      t.commands = s.commands ∧ t.responses = s.responses ++ [responseHeader 3#4 .ok c 0#8]

/-- Chunking independence: two HUPDATEs in a row that both answer OK leave the machine exactly as one HUPDATE of their
bytes put together, but for the second response: the same words written to the peripheral, the same slot, the same PR, so
the same digest of a following HFINAL (41_session_lifecycle R159). -/
def Obligations.ChunkingIndependence : Prop :=
  ∀ (a : BitVec 4) (c : BitVec 8) (len₁ len₂ len : Word) (p₁ p₂ p : List Word) (s t u : State), Sound s →
    updateData s.cfg len p = updateData s.cfg len₁ p₁ ++ updateData s.cfg len₂ p₂ →
    exec (.hupdate a c len₁ p₁) s = .next t →
    t.responses = s.responses ++ [responseHeader 3#4 .ok c 0#8] →
    exec (.hupdate a c len₂ p₂) t = .next u →
    u.responses = t.responses ++ [responseHeader 3#4 .ok c 0#8] →
    exec (.hupdate a c len p) s = .next { u with responses := t.responses }

/-- The lanes of the last payload word beyond the last data byte are ignored, whatever they hold (30_encoding R105). -/
def Obligations.SpareLanesAreIgnored : Prop :=
  ∀ (a : BitVec 4) (c : BitVec 8) (len : Word) (full : List Word) (w w' : Word) (s : State),
    len.toNat = 4 * full.length + len.toNat % 4 → len.toNat % 4 ≠ 0 →
    (∀ b < len.toNat % 4, lane s.cfg.byteOrder w b = lane s.cfg.byteOrder w' b) →
    exec (.hupdate a c len (full ++ [w])) s = exec (.hupdate a c len (full ++ [w'])) s

/-- If nothing is buffered and an HUPDATE carries a whole number of words, each word written to P.DIN is the payload word
the host sent, bit for bit, under either byte order, in payload order (20_memory R76). The premise
is that P.READY answers each poll (10_state R54). -/
def Obligations.WholeWordsPassUnchanged : Prop :=
  ∀ (a : BitVec 4) (c : BitVec 8) (len : Word) (payload : List Word) (s : State), Sound s → SessionOpen s a c →
    s.slotGet c .bufLen = 0#32 → len.toNat = 4 * payload.length → payload ≠ [] →
    responsive (updatePolls s c (4 * payload.length)) s →
    ∃ t, exec (.hupdate a c len payload) s = .next t ∧
      t.responses = s.responses ++ [responseHeader 3#4 .ok c 0#8] ∧
      portWrites t.portLog.reverse = portWrites s.portLog.reverse ++ loadWrites s a c ++
        payload.map (fun w => (WriteReg.din, w)) ∧
      t.periph.pr = payload.foldl (periphAbsorb s.cfg) (loadedPR s a c) ∧ t.slotGet c .bufLen = 0#32

/-! ## HFINAL -/

/-- HFINAL, the peripheral answering the flag of each of its polls within T samples (10_state R54): the session is loaded,
the partial word is flushed zero-filled if bytes are buffered, the length configuration is written, and DSZ digest bytes
are answered from the result registers; then the slot is Finalized with SHV, BUF and BUFLEN 0 and its shadow and LOLEN as they were, nothing is loaded and PR is unspecified
(41_session_lifecycle R166, R170; 43_word_submission R215, R216, R219). -/
def Obligations.HfinalDeliversTheDigest : Prop :=
  ∀ (a : BitVec 4) (c d : BitVec 8) (s : State), Sound s → SessionOpen s a c → SlotSound s c →
    d.toNat ≤ s.cfg.maxDigest → responsive (finalPolls s c) s →
    ∃ t, exec (.hfinal a c d) s = .next t ∧
      ∃ (flushed : List Word) (pr : PR) (v : Word),
      flushed = (if s.slotGet c .bufLen = 0#32 then [] else [s.slotGet c .buf]) ∧
      pr = flushed.foldl (periphAbsorb s.cfg) (loadedPR s a c) ∧
      v = lencfg s.cfg a ((s.slotGet c .loLen).extractLsb' 0 6) ∧
      t.responses = s.responses ++ responseHeader 4#4 .ok c d ::
        packBytes s.cfg.byteOrder (bytesOf s.cfg.byteOrder d.toNat (periphFinal s.cfg pr v)) ∧
      portWrites t.portLog.reverse = portWrites s.portLog.reverse ++ loadWrites s a c ++
        flushed.map (fun w => (WriteReg.din, w)) ++ [(WriteReg.lencfg, v)] ∧
      t.periph.lencfg = v ∧ t.periph.res = periphFinal s.cfg pr v ∧
      t.owner = none ∧ t.prDefined = false ∧
      t.slotGet c .stat = mkStat .finalized false true a ∧ t.slotGet c .buf = 0#32 ∧ t.slotGet c .bufLen = 0#32 ∧
      t.slotGet c .loLen = s.slotGet c .loLen ∧ shadowKept c s t ∧ ownerSaved c s t ∧ othersKept c s t ∧
      t.sessions = s.sessions ∧ t.cfg = s.cfg ∧ t.commands = s.commands

/-- HFINAL of a Fresh slot digests the empty message: the unit sees exactly a start of the algorithm and the length
configuration of length 0, and the answer is made from `periph_final(periph_start(a), lencfg(a, 0))`, the idle check and the
poll of P.DREADY ending well (41_session_lifecycle R167; 43_word_submission R222; 10_state R54). -/
def Obligations.HfinalOfFreshIsTheEmptyMessage : Prop :=
  ∀ (a : BitVec 4) (c d : BitVec 8) (s : State), Sound s → SessionOpen s a c → SlotSound s c →
    statLife (s.slotGet c .stat) = .fresh → d.toNat ≤ s.cfg.maxDigest →
    responsive (finalPolls s c) s →
    ∃ t, exec (.hfinal a c d) s = .next t ∧
      portWrites t.portLog.reverse = portWrites s.portLog.reverse ++
        [(WriteReg.start, a.zeroExtend 32), (WriteReg.lencfg, lencfg s.cfg a 0#6)] ∧
      t.responses = s.responses ++ responseHeader 4#4 .ok c d ::
        packBytes s.cfg.byteOrder (bytesOf s.cfg.byteOrder d.toNat
          (periphFinal s.cfg (periphStart s.cfg a) (lencfg s.cfg a 0#6)))

/-- ReadDigest(d), d at most MAXDIG: d bytes, byte k from lane k mod 4 of P.RES[k div 4]; exactly ceil(d / 4) result
registers are read, in ascending index. In the response payload lane b of word j is that lane of P.RES[j], and 0 from byte d
on (43_word_submission R219). -/
def Obligations.ReadDigestTakesLanesInOrder : Prop :=
  ∀ (s : State) (d : BitVec 8), s.periph.res.length = s.cfg.resultWords → d.toNat ≤ s.cfg.maxDigest →
    (digestBytes s d).length = d.toNat ∧
    (∀ k < d.toNat, (digestBytes s d).getD k 0#8 = lane s.cfg.byteOrder (s.periph.res.getD (k / 4) 0#32) (k % 4)) ∧
    (∀ j b, b < 4 → lane s.cfg.byteOrder ((packBytes s.cfg.byteOrder (digestBytes s d)).getD j 0#32) b =
      if 4 * j + b < d.toNat then lane s.cfg.byteOrder (s.periph.res.getD j 0#32) b else 0#8) ∧
    (afterDigestRead d s).portLog =
      ((List.range ((d.toNat + 3) / 4)).map
        (fun j => PortAccess.read (.res j) (s.periph.res.getD j 0#32))).reverse ++ s.portLog

/-- The default length configuration is the low six bits of LOLEN times 8, whatever the algorithm (43_word_submission
R217). -/
def Obligations.DefaultLengthIsBitsModulo512 : Prop :=
  ∀ (c : Config) (a : BitVec 4) (len : Word), c.lengthRule = .standard →
    (lencfg c a (len.extractLsb' 0 6)).toNat = 8 * len.toNat % 512

/-! ## CLOAD, CSAVE and the swap -/

/-- CaptureInto(t): the live registers go to STG and from there to the shadow of slot t, whose SHV is set; BUF, BUFLEN,
LOLEN, LIFE, ALGV, ALG of slot t, OWNER, PR, every other slot and the rest of the machine stay; the port only sees the
N + 3 reads (42_arbiter_swap R186). -/
def Obligations.CaptureSavesTheLiveRegisters : Prop :=
  ∀ (t : BitVec 8) (s : State), Store.wf s.store → s.periph.pr.acc.length = s.cfg.accWords →
    (captureInto t s).shadow t = s.periph.pr ∧ (captureInto t s).stg = s.periph.pr ∧
    (∀ f, f = .buf ∨ f = .bufLen ∨ f = .loLen → (captureInto t s).slotGet t f = s.slotGet t f) ∧
    statShv ((captureInto t s).slotGet t .stat) = true ∧
    (∀ b, b ≠ 2 → ((captureInto t s).slotGet t .stat).getLsbD b = (s.slotGet t .stat).getLsbD b) ∧
    (∀ x, ¬ inSlot s t x → Store.read (captureInto t s).store x = Store.read s.store x) ∧
    captureInto t s = { s with
      store := (captureInto t s).store
      stg := (captureInto t s).stg
      portLog := (List.zipWith (fun r v => PortAccess.read (.ctx r) v) (contextRegs s.cfg)
        (s.periph.pr.words s.cfg)).reverse ++ s.portLog }

/-- LoadOrResume(c, a): a resume changes nothing; a failed idle check changes nothing but PCNT and leaves only flag reads;
otherwise the previous owner is captured, OWNER is c, PR is the slot's shadow (SHV = 1) or periph_start(a) (SHV = 0), and no
word of slot c and none of a slot that is not the previous owner's changes (42_arbiter_swap R185). -/
def Obligations.LoadOrResumeBringsTheSlotIn : Prop :=
  ∀ (a : BitVec 4) (c : BitVec 8) (s s' : State), Store.wf s.store → s.periph.pr.acc.length = s.cfg.accWords →
    (s.owner = some c → loadOrResume c a s = .ok s) ∧
    (s.owner ≠ some c → pollReady .ready s = .timeout s' → loadOrResume c a s = .timeout s' ∧ onlyPolled s s') ∧
    (s.owner ≠ some c → pollReady .ready s = .ok s' →
      ∃ t, loadOrResume c a s = .ok t ∧ t.owner = some c ∧ t.prDefined = true ∧
        t.periph = { s.periph with
          pr := if statShv (s.slotGet c .stat) then s.shadow c else periphStart s.cfg a } ∧
        sameSlot c s t ∧ ownerSaved c s t ∧ othersKept c s t ∧ onlyPolled s s' ∧
        t = { s' with
          owner := some c
          periph := t.periph
          prDefined := true
          store := t.store
          stg := t.stg
          portLog := t.portLog })

/-- CLOAD of the current owner answers OK without polling or touching the peripheral; only its STAT is written
(42_arbiter_swap R189, R190). -/
def Obligations.CloadOfTheOwnerOnlyResumes : Prop :=
  ∀ (a : BitVec 4) (c : BitVec 8) (s : State), Store.wf s.store → SessionOpen s a c → s.owner = some c →
    ∃ t, exec (.cload a c) s = .next t ∧
      t.slotGet c .stat = mkStat .active (statShv (s.slotGet c .stat)) true a ∧
      (∀ x, x ≠ fieldAddr s.cfg c .stat → Store.read t.store x = Store.read s.store x) ∧
      t = { s with
        store := t.store
        responses := s.responses ++ [responseHeader 5#4 .ok c 0#8]
        response := none
        latch := none }

/-- CLOAD of another slot, the unit answering the idle check: the previous owner is saved first, then the slot's shadow is
restored (SHV = 1) or its algorithm started (SHV = 0); OWNER is the slot, which becomes Active with the algorithm latched;
its buffer, counters and shadow are untouched (42_arbiter_swap R185, R186, R188 to R190). -/
def Obligations.CloadSwapsTheSessionIn : Prop :=
  ∀ (a : BitVec 4) (c : BitVec 8) (s s' : State), Sound s → SessionOpen s a c → s.owner ≠ some c →
    pollReady .ready s = .ok s' →
    ∃ t, exec (.cload a c) s = .next t ∧
      t.owner = some c ∧ t.prDefined = true ∧
      t.periph = { s.periph with
        pr := if statShv (s.slotGet c .stat) then s.shadow c else periphStart s.cfg a } ∧
      t.slotGet c .stat = mkStat .active (statShv (s.slotGet c .stat)) true a ∧
      (∀ x, inSlot s c x → x ≠ fieldAddr s.cfg c .stat → Store.read t.store x = Store.read s.store x) ∧
      ownerSaved c s t ∧ othersKept c s t ∧
      t.stg = (if s.owner = none then s.stg else s.periph.pr) ∧
      portWrites t.portLog.reverse = portWrites s.portLog.reverse ++ loadWrites s a c ∧
      t.pcnt = s'.pcnt ∧ t.flagSamples = s'.flagSamples ∧ t.draws = s'.draws ∧
      t.sessions = s.sessions ∧ t.cfg = s.cfg ∧ t.commands = s.commands ∧
      t.responses = s.responses ++ [responseHeader 5#4 .ok c 0#8]

/-- A successful swap makes one PollReady(READY), between 1 and T flag reads, and then this register traffic: from an owner
to a slot with SHV = 1, N + 3 reads then N + 3 writes; to a slot with SHV = 0, N + 3 reads then one write, P.START; from
OWNER = NONE no reads; each run in the order IMR, SCR, CR, ACC[0] to ACC[N-1]. A resume makes no access at all
(42_arbiter_swap R195; 20_memory R81). -/
def Obligations.SwapTraffic : Prop :=
  ∀ (a : BitVec 4) (c : BitVec 8) (s : State), Store.wf s.store →
    (s.owner = some c → loadOrResume c a s = .ok s) ∧
    (∀ t, s.owner ≠ some c → loadOrResume c a s = .ok t →
      ∃ flags reads writes : List PortAccess,
        t.portLog = writes.reverse ++ reads.reverse ++ flags ++ s.portLog ∧
        (∀ x ∈ flags, ∃ v, x = .read .flags v) ∧ 1 ≤ flags.length ∧ flags.length ≤ s.cfg.budget ∧
        reads = (if s.owner = none then []
          else List.zipWith (fun r v => PortAccess.read (.ctx r) v) (contextRegs s.cfg) (s.periph.pr.words s.cfg)) ∧
        writes = (if statShv (s.slotGet c .stat) then
            List.zipWith (fun r v => PortAccess.write (.ctx r) v) (contextRegs s.cfg) ((s.shadow c).words s.cfg)
          else [PortAccess.write .start (a.zeroExtend 32)]) ∧
        (s.owner ≠ none → reads.length = s.cfg.accWords + 3) ∧
        (statShv (s.slotGet c .stat) = true → writes.length = s.cfg.accWords + 3))

/-- CSAVE: Rejected for a slot that does not exist; of a slot that is not the owner it answers OK and does nothing; of the
owner it makes the idle check, which either times out with nothing changed or passes, and then copies the live registers
into the slot's shadow and sets SHV; the slot stays the owner (42_arbiter_swap R191, R192). -/
def Obligations.CsaveCapturesTheOwner : Prop :=
  ∀ (c : BitVec 8) (s : State), Store.wf s.store → s.periph.pr.acc.length = s.cfg.accWords →
    (slotExists s.cfg c = false → exec (.csave c) s = .next (answered (responseHeader 6#4 .rejected c 0#8) [] s)) ∧
    (slotExists s.cfg c = true → s.owner ≠ some c →
      exec (.csave c) s = .next (answered (responseHeader 6#4 .ok c 0#8) [] s)) ∧
    (∀ s', slotExists s.cfg c = true → s.owner = some c → pollReady .ready s = .timeout s' →
      onlyPolled s s' ∧ exec (.csave c) s = .next (answered (responseHeader 6#4 .timeout c 0#8) [] s')) ∧
    (∀ s', slotExists s.cfg c = true → s.owner = some c → pollReady .ready s = .ok s' →
      ∃ t, exec (.csave c) s = .next t ∧
        t.shadow c = s.periph.pr ∧ t.slotGet c .stat = statSetShv (s.slotGet c .stat) ∧
        t.slotGet c .buf = s.slotGet c .buf ∧ t.slotGet c .bufLen = s.slotGet c .bufLen ∧
        t.slotGet c .loLen = s.slotGet c .loLen ∧
        (∀ x, ¬ inSlot s c x → Store.read t.store x = Store.read s.store x) ∧
        t.stg = s.periph.pr ∧ portWrites t.portLog.reverse = portWrites s.portLog.reverse ∧
        onlyPolled s s' ∧
        t = { s' with
          store := t.store
          stg := t.stg
          portLog := t.portLog
          responses := s.responses ++ [responseHeader 6#4 .ok c 0#8]
          response := none
          latch := none })

/-- Swap transparency: a session is loaded with live state PR = x, and then any commands run that do not name its slot,
but that a CSAVE may; whether a CSAVE, another command's swap or an AINIT captured the session, any number of times, or
nothing did. Then the state that a load of the slot leaves in the unit is x again, the slot's buffer and counters are as
they were and its STAT but for SHV; so the words submitted later and the digest are those of a session never swapped out. A
CLOAD that leaves the slot the owner leaves PR = x, whatever the peripheral's flags did (42_arbiter_swap R193). -/
def Obligations.SwapTransparency : Prop :=
  ∀ (c : BitVec 8) (between : List Instr) (s s₁ : State), Sound s → s.owner = some c →
    (∀ i ∈ between, slotOf i ≠ some c ∨ i = .csave c) → execAll between s = .next s₁ →
    (∀ a, loadedPR s₁ a c = s.periph.pr) ∧
    (∀ f, f = .buf ∨ f = .bufLen ∨ f = .loLen → s₁.slotGet c f = s.slotGet c f) ∧
    (∀ b, b ≠ 2 → (s₁.slotGet c .stat).getLsbD b = (s.slotGet c .stat).getLsbD b) ∧
    (∀ a s₂, exec (.cload a c) s₁ = .next s₂ → s₂.owner = some c → s₂.periph.pr = s.periph.pr)

/-! ## AINIT -/

/-- AINIT with nothing loaded: no poll, no capture, no port access; PR becomes unspecified and the record is replaced whole
by { BOUND = 1, FAM, BLOB } (44_cipher_adapter R233, R235, R236). That P.DIN, P.LENCFG and P.RES stay as they were, and that
no port access stands for the binding, is the model's choice: what binding writes is not in the source (R237; log entry 19). -/
def Obligations.AinitBindsTheRecord : Prop :=
  ∀ (f : BitVec 4) (k : BitVec 8) (b : Blocks) (s : State), CipherOpen s f k b → s.owner = none →
    s.sessions.length = s.cfg.nsess →
    ∃ t, exec (.ainit f k b) s = .next t ∧
      t.sessions[k.toNat]? = some ⟨true, f, blocksBlob b⟩ ∧
      (∀ j, j ≠ k.toNat → t.sessions[j]? = s.sessions[j]?) ∧
      t.prDefined = false ∧ t.periph = { s.periph with pr := t.periph.pr } ∧
      t = { s with
        sessions := t.sessions
        periph := t.periph
        prDefined := false
        draws := t.draws
        responses := s.responses ++ [responseHeader 7#4 .ok k 0#8]
        response := none
        latch := none }

/-- AINIT with a loaded snapshot, the unit answering the idle check: the snapshot is captured to its owner, nothing is
loaded afterwards, PR is unspecified, and the record is bound (44_cipher_adapter R233, R236). That P.DIN, P.LENCFG and
P.RES stay as they were, and that no port write stands for the binding, is the model's choice (R237; log entry 19). -/
def Obligations.AinitEvictsTheLoadedSession : Prop :=
  ∀ (f : BitVec 4) (k : BitVec 8) (b : Blocks) (s s' : State) (o : BitVec 8), Sound s → CipherOpen s f k b →
    s.owner = some o → pollReady .ready s = .ok s' →
    ∃ t, exec (.ainit f k b) s = .next t ∧
      t.sessions[k.toNat]? = some ⟨true, f, blocksBlob b⟩ ∧
      (∀ j, j ≠ k.toNat → t.sessions[j]? = s.sessions[j]?) ∧
      t.owner = none ∧ t.prDefined = false ∧
      t.shadow o = s.periph.pr ∧ t.slotGet o .stat = statSetShv (s.slotGet o .stat) ∧
      t.slotGet o .buf = s.slotGet o .buf ∧ t.slotGet o .bufLen = s.slotGet o .bufLen ∧
      t.slotGet o .loLen = s.slotGet o .loLen ∧
      (∀ x, ¬ inSlot s o x → Store.read t.store x = Store.read s.store x) ∧
      t.periph = { s.periph with pr := t.periph.pr } ∧ t.cfg = s.cfg ∧ t.commands = s.commands ∧
      portWrites t.portLog.reverse = portWrites s.portLog.reverse ∧
      t.responses = s.responses ++ [responseHeader 7#4 .ok k 0#8]

/-! ## The whole machine -/

/-- Right after reset, in every configuration, OWNER is NONE, no command is in progress, every session record is unbound,
and CAP and CFG are the configuration's (10_state R59, of which this states the rows that give a value). Which configuration
State.reset has is the model's choice (log entry 2), and so is that each word of the unspecified context store is a free
value of its address (log entry 3). -/
def Obligations.ResetState : Prop :=
  ∀ c : Config, (State.resetOf c).owner = none ∧ (State.resetOf c).latch = none ∧ (State.resetOf c).response = none ∧
    (State.resetOf c).cfg = c ∧ (State.resetOf c).sessions.length = c.nsess ∧
    (∀ r ∈ (State.resetOf c).sessions, r = ⟨false, 0#4, []⟩) ∧
    (∀ a, Store.read (State.resetOf c).store a = Config.initialWord a) ∧ State.reset = State.resetOf Config.baseline

/-- The invariant holds right after reset, in every configuration. -/
def Obligations.InvariantHoldsAtReset : Prop := ∀ c : Config, Inv (State.resetOf c)

/-- Every step keeps the invariant: the store stays in canonical form and inside its address space, the register lists
keep their sizes, OWNER names at most one slot, which exists and is Active, PR is then defined, and no command is left in
progress (10_state R55, R57 items 1 and 2; 42_arbiter_swap R181). -/
def Obligations.InvariantIsKept : Prop := ∀ s t : State, Inv s → step s = .next t → Inv t

/-- HINIT puts a slot in good standing, whatever it held (10_state R57, R60). -/
def Obligations.HinitMakesTheSlotSound : Prop :=
  ∀ (c : BitVec 8) (s t : State), Sound s → slotExists s.cfg c = true → exec (.hinit c) s = .next t →
    SlotSound t c ∧ statLife (t.slotGet c .stat) = .fresh

/-- A slot in good standing stays so under every step, a swap-phase Timeout included, unless the step ends by a data-phase
Timeout of an HUPDATE or HFINAL of that very slot (10_state R57 items 3 to 6; 60_exceptions R261 to R263;
70_reset_and_hazards R302). -/
def Obligations.SoundSlotsStaySound : Prop :=
  ∀ (s t : State) (c : BitVec 8), Inv s → SlotSound s c → step s = .next t →
    SlotSound t c ∨
      ∃ u, u.responses = s.responses ∧ (t = dataPhaseTimeout 3#4 c u ∨ t = dataPhaseTimeout 4#4 c u)

/-- No command touches a slot it does not name, but for the loaded snapshot, which it may save: a slot that is neither
named nor the owner keeps every word; the owner's slot keeps its buffer and counters, and its other words either stay or
become the live registers with SHV set (20_memory R73, R83; 42_arbiter_swap R186). -/
def Obligations.CommandsLeaveOtherSlotsAlone : Prop :=
  ∀ (i : Instr) (s t : State) (x : BitVec 8), Sound s → exec i s = .next t → slotOf i ≠ some x →
    (s.owner ≠ some x → sameSlot x s t) ∧
    (s.owner = some x → sameSlot x s t ∨
      (t.shadow x = s.periph.pr ∧ t.slotGet x .stat = statSetShv (s.slotGet x .stat) ∧
        t.slotGet x .buf = s.slotGet x .buf ∧ t.slotGet x .bufLen = s.slotGet x .bufLen ∧
        t.slotGet x .loLen = s.slotGet x .loLen))

/-- The lifecycle: after an OK, HINIT leaves its slot Fresh, HUPDATE and CLOAD Active, HFINAL Finalized, and CSAVE as it
was; HUPDATE, HFINAL and CLOAD answer OK only to a slot that was not Finalized (41_session_lifecycle R151). -/
def Obligations.LifecycleTransitions : Prop :=
  ∀ (i : Instr) (s t : State) (c plen : BitVec 8) (payload : List Word), Sound s → slotOf i = some c →
    exec i s = .next t → t.responses = s.responses ++ responseHeader (opcOf i) .ok c plen :: payload →
    (i = .hinit c → statLife (t.slotGet c .stat) = .fresh) ∧
    ((∃ a len p, i = .hupdate a c len p) →
      statLife (s.slotGet c .stat) ≠ .finalized ∧ statLife (t.slotGet c .stat) = .active) ∧
    ((∃ a, i = .cload a c) →
      statLife (s.slotGet c .stat) ≠ .finalized ∧ statLife (t.slotGet c .stat) = .active) ∧
    ((∃ a d, i = .hfinal a c d) →
      statLife (s.slotGet c .stat) ≠ .finalized ∧ statLife (t.slotGet c .stat) = .finalized) ∧
    (i = .csave c → statLife (t.slotGet c .stat) = statLife (s.slotGet c .stat))
end

