-- ==== Sys2Proof/Laws/Checks.lean ====
section
/-! SUPPORT. When the pre-checks of the commands pass (41_session_lifecycle R154; 44_cipher_adapter R234), and what `exec`
is then: the provers cite these instead of unfolding a meaning. -/

namespace Sys2Proof.Machine

theorem Check.andThen_pass {k l : Check} : k.andThen l = .pass ↔ k = .pass ∧ l = .pass := by
  cases k <;> simp [Check.andThen]

theorem Check.raiseIf_pass {b : Bool} {st : Status} : Check.raiseIf b st = .pass ↔ b = false := by
  cases b <;> simp [Check.raiseIf]

theorem operandCheck_pass {s : State} {a : BitVec 4} {c : BitVec 8} :
    operandCheck s a c = .pass ↔ slotExists s.cfg c = true ∧ algOk s.cfg a = true := by
  simp [operandCheck, Check.andThen_pass, Check.raiseIf_pass]

theorem digestSizeCheck_pass {s : State} {d : BitVec 8} : digestSizeCheck s d = .pass ↔ d.toNat ≤ s.cfg.maxDigest := by
  simp [digestSizeCheck, Check.raiseIf_pass]

theorem statSoundCheck_pass {s : State} {c : BitVec 8} :
    statSoundCheck s c = .pass ↔ statMalformed (s.slotGet c .stat) = false := by
  unfold statSoundCheck
  split <;> simp_all

theorem bufLenSoundCheck_pass {s : State} {c : BitVec 8} :
    bufLenSoundCheck s c = .pass ↔ (s.slotGet c .bufLen).toNat ≤ 3 := by
  unfold bufLenSoundCheck bufLenMalformed
  split <;> simp_all

theorem lifecycleCheck_pass {s : State} {a : BitVec 4} {c : BitVec 8} :
    lifecycleCheck s a c = .pass ↔ statLife (s.slotGet c .stat) ≠ .finalized ∧
      (statAlgv (s.slotGet c .stat) = true → statAlg (s.slotGet c .stat) = a) := by
  simp only [lifecycleCheck, Check.andThen_pass, Check.raiseIf_pass, decide_eq_false_iff_not, Bool.and_eq_false_imp,
    ne_eq, Decidable.not_not]

/-- The checks of CLOAD pass exactly on an open session. -/
theorem cloadCheck_pass {s : State} {a : BitVec 4} {c : BitVec 8} : cloadCheck a c s = .pass ↔ SessionOpen s a c := by
  simp only [cloadCheck, Check.andThen_pass, operandCheck_pass, statSoundCheck_pass, lifecycleCheck_pass]
  exact ⟨fun ⟨⟨h1, h2⟩, h3, h4, h5⟩ => ⟨h1, h2, h3, h4, h5⟩,
    fun h => ⟨⟨h.slot, h.alg⟩, h.stat_sound, h.not_finalized, h.same_alg⟩⟩

/-- The checks of HUPDATE pass exactly on an open session whose BUFLEN CMX can have written. -/
theorem hupdateCheck_pass {s : State} {a : BitVec 4} {c : BitVec 8} :
    hupdateCheck a c s = .pass ↔ SessionOpen s a c ∧ (s.slotGet c .bufLen).toNat ≤ 3 := by
  simp only [hupdateCheck, Check.andThen_pass, operandCheck_pass, statSoundCheck_pass, lifecycleCheck_pass,
    bufLenSoundCheck_pass]
  exact ⟨fun ⟨⟨h1, h2⟩, h3, hb, h4, h5⟩ => ⟨⟨h1, h2, h3, h4, h5⟩, hb⟩,
    fun ⟨h, hb⟩ => ⟨⟨h.slot, h.alg⟩, h.stat_sound, hb, h.not_finalized, h.same_alg⟩⟩

/-- The checks of HFINAL pass exactly on an open session, with a digest size in range. -/
theorem hfinalCheck_pass {s : State} {a : BitVec 4} {c d : BitVec 8} :
    hfinalCheck a c d s = .pass ↔
      SessionOpen s a c ∧ (s.slotGet c .bufLen).toNat ≤ 3 ∧ d.toNat ≤ s.cfg.maxDigest := by
  simp only [hfinalCheck, Check.andThen_pass, operandCheck_pass, digestSizeCheck_pass, statSoundCheck_pass,
    lifecycleCheck_pass, bufLenSoundCheck_pass]
  exact ⟨fun ⟨⟨h1, h2⟩, hd, h3, hb, h4, h5⟩ => ⟨⟨h1, h2, h3, h4, h5⟩, hb, hd⟩,
    fun ⟨h, hb, hd⟩ => ⟨⟨h.slot, h.alg⟩, hd, h.stat_sound, hb, h.not_finalized, h.same_alg⟩⟩

/-- The checks of AINIT pass exactly when its operands fit the configuration. -/
theorem ainitCheck_pass {s : State} {f : BitVec 4} {k : BitVec 8} {b : Blocks} :
    ainitCheck f k b s = .pass ↔ CipherOpen s f k b := by
  simp only [ainitCheck, Check.andThen_pass, Check.raiseIf_pass, decide_eq_false_iff_not, Nat.not_le, ne_eq,
    Decidable.not_not, Bool.and_eq_false_imp]
  exact ⟨fun ⟨h1, h2, h3, h4⟩ => ⟨h1, h2, h3, h4⟩, fun h => ⟨h.record, h.shape, h.nonempty, h.family⟩⟩

/-- With a sound OWNER no command strays (20_memory R71). -/
theorem strayOwner_false {s : State} (h : ownerExists s) (c : Option (BitVec 8)) : strayOwner s c = false := by
  unfold strayOwner
  cases ho : s.owner with
  | none => rfl
  | some t => simp [h t ho]

theorem ownerExists_of_sound {s : State} (h : Sound s) : ownerExists s := fun c hc => (h.owner_sound c hc).1

/-! ## What exec is once the checks pass -/

theorem exec_hupdate {s : State} {a : BitVec 4} {c : BitVec 8} {len : Word} {payload : List Word} (ho : ownerExists s)
    (h : SessionOpen s a c) (hb : (s.slotGet c .bufLen).toNat ≤ 3) :
    exec (.hupdate a c len payload) s = .next (hupdateRun a c (updateData s.cfg len payload) s) := by
  simp only [exec, execHupdate, hupdateCheck_pass.2 ⟨h, hb⟩, strayOwner_false ho, Bool.and_false]
  rfl

theorem exec_hfinal {s : State} {a : BitVec 4} {c d : BitVec 8} (ho : ownerExists s) (h : SessionOpen s a c)
    (hb : (s.slotGet c .bufLen).toNat ≤ 3) (hd : d.toNat ≤ s.cfg.maxDigest) :
    exec (.hfinal a c d) s = .next (hfinalRun a c d s) := by
  simp only [exec, execHfinal, hfinalCheck_pass.2 ⟨h, hb, hd⟩, strayOwner_false ho]
  rfl

theorem exec_cload {s : State} {a : BitVec 4} {c : BitVec 8} (ho : ownerExists s) (h : SessionOpen s a c) :
    exec (.cload a c) s = .next (cloadRun a c s) := by
  simp only [exec, execCload, cloadCheck_pass.2 h, strayOwner_false ho]
  rfl

theorem exec_csave {s : State} {c : BitVec 8} (h : slotExists s.cfg c = true) :
    exec (.csave c) s = .next (csaveRun c s) := by
  simp only [exec, execCsave, h, if_true]

theorem exec_ainit {s : State} {f : BitVec 4} {k : BitVec 8} {b : Blocks} (ho : ownerExists s) (h : CipherOpen s f k b) :
    exec (.ainit f k b) s = .next (ainitRun f k b s) := by
  simp only [exec, execAinit, ainitCheck_pass.2 h, strayOwner_false ho]
  rfl

/-! ## What a next state of exec can be -/

theorem exec_hupdate_next {s t : State} {a : BitVec 4} {c : BitVec 8} {len : Word} {payload : List Word}
    (h : exec (.hupdate a c len payload) s = .next t) :
    (∃ st, hupdateCheck a c s = .raise st ∧ t = raise 3#4 c st s) ∨
    (SessionOpen s a c ∧ (s.slotGet c .bufLen).toNat ≤ 3 ∧
      (completesWord c (updateData s.cfg len payload) s && strayOwner s (some c)) = false ∧
      t = hupdateRun a c (updateData s.cfg len payload) s) := by
  simp only [exec, execHupdate] at h
  split at h
  · cases h
  · rename_i st hst
    cases h
    exact .inl ⟨st, hst, rfl⟩
  · rename_i hp
    split at h
    · cases h
    · rename_i hs
      cases h
      have := hupdateCheck_pass.1 hp
      exact .inr ⟨this.1, this.2, by simpa using hs, rfl⟩

theorem exec_hfinal_next {s t : State} {a : BitVec 4} {c d : BitVec 8} (h : exec (.hfinal a c d) s = .next t) :
    (∃ st, hfinalCheck a c d s = .raise st ∧ t = raise 4#4 c st s) ∨
    (SessionOpen s a c ∧ (s.slotGet c .bufLen).toNat ≤ 3 ∧ d.toNat ≤ s.cfg.maxDigest ∧ strayOwner s (some c) = false ∧
      t = hfinalRun a c d s) := by
  simp only [exec, execHfinal] at h
  split at h
  · cases h
  · rename_i st hst
    cases h
    exact .inl ⟨st, hst, rfl⟩
  · rename_i hp
    split at h
    · cases h
    · rename_i hs
      cases h
      have := hfinalCheck_pass.1 hp
      exact .inr ⟨this.1, this.2.1, this.2.2, by simpa using hs, rfl⟩

theorem exec_cload_next {s t : State} {a : BitVec 4} {c : BitVec 8} (h : exec (.cload a c) s = .next t) :
    (∃ st, cloadCheck a c s = .raise st ∧ t = raise 5#4 c st s) ∨
    (SessionOpen s a c ∧ strayOwner s (some c) = false ∧ t = cloadRun a c s) := by
  simp only [exec, execCload] at h
  split at h
  · cases h
  · rename_i st hst
    cases h
    exact .inl ⟨st, hst, rfl⟩
  · rename_i hp
    split at h
    · cases h
    · rename_i hs
      cases h
      exact .inr ⟨cloadCheck_pass.1 hp, by simpa using hs, rfl⟩

theorem exec_ainit_next {s t : State} {f : BitVec 4} {k : BitVec 8} {b : Blocks} (h : exec (.ainit f k b) s = .next t) :
    (∃ st, ainitCheck f k b s = .raise st ∧ t = raise 7#4 k st s) ∨
    (CipherOpen s f k b ∧ strayOwner s none = false ∧ t = ainitRun f k b s) := by
  simp only [exec, execAinit] at h
  split at h
  · cases h
  · rename_i st hst
    cases h
    exact .inl ⟨st, hst, rfl⟩
  · rename_i hp
    split at h
    · cases h
    · rename_i hs
      cases h
      exact .inr ⟨ainitCheck_pass.1 hp, by simpa using hs, rfl⟩

end Sys2Proof.Machine
end

