-- ==== Sys2Proof/Laws/Lanes.lean ====
section
/-! SUPPORT. Byte lanes (00_scope R14): a lane written is the lane read, the other lanes stay, and the four lanes make
the word; packing bytes into words and unpacking them again (20_memory R74, R76). -/

namespace Sys2Proof.Machine

theorem laneShift_lt (o : ByteOrder) {b : Nat} (hb : b < 4) : laneShift o b + 8 ≤ 32 := by
  cases o <;> simp only [laneShift] <;> omega

theorem laneShift_disjoint (o : ByteOrder) {b b' : Nat} (hb : b < 4) (hb' : b' < 4) (h : b ≠ b') :
    laneShift o b + 8 ≤ laneShift o b' ∨ laneShift o b' + 8 ≤ laneShift o b := by
  cases o <;> simp only [laneShift] <;> omega

theorem ff_getLsbD (k : Nat) : (0xFF#32).getLsbD k = decide (k < 8) := by
  by_cases hk : k < 32
  · interval_cases k <;> decide
  · rw [BitVec.getLsbD_of_ge _ _ (by omega)]
    simp
    omega

theorem setLane_getLsbD (o : ByteOrder) (w : Word) {b : Nat} (hb : b < 4) (x : Byte) (j : Nat) :
    (setLane o w b x).getLsbD j =
      if laneShift o b ≤ j ∧ j < laneShift o b + 8 then x.getLsbD (j - laneShift o b) else w.getLsbD j := by
  have hs := laneShift_lt o hb
  unfold setLane
  generalize laneShift o b = p at *
  simp only [BitVec.getLsbD_or, BitVec.getLsbD_and, BitVec.getLsbD_not, BitVec.getLsbD_shiftLeft, ff_getLsbD,
    BitVec.truncate_eq_setWidth, BitVec.getLsbD_setWidth]
  by_cases hj : j < 32
  · by_cases h1 : p ≤ j
    · by_cases h2 : j < p + 8
      · rw [if_pos ⟨h1, h2⟩]
        have e1 : ¬ j < p := by omega
        have e2 : j - p < 8 := by omega
        have e3 : j - p < 32 := by omega
        simp [hj, e1, e2, e3]
      · rw [if_neg (by omega)]
        have e1 : ¬ j < p := by omega
        have e2 : ¬ j - p < 8 := by omega
        have e3 : x.getLsbD (j - p) = false := BitVec.getLsbD_of_ge _ _ (by omega)
        simp [hj, e1, e2, e3]
    · rw [if_neg (by omega)]
      have e1 : j < p := by omega
      simp [hj, e1]
  · rw [if_neg (by omega)]
    simp [hj, BitVec.getLsbD_of_ge w j (by omega)]

theorem lane_getLsbD (o : ByteOrder) (w : Word) (b i : Nat) :
    (lane o w b).getLsbD i = (decide (i < 8) && w.getLsbD (laneShift o b + i)) := by
  simp [lane, BitVec.getLsbD_extractLsb']

/-- A lane written is the lane read; the other lanes stay (R14). -/
theorem lane_setLane (o : ByteOrder) (w : Word) {b b' : Nat} (hb : b < 4) (hb' : b' < 4) (x : Byte) :
    lane o (setLane o w b x) b' = if b' = b then x else lane o w b' := by
  apply BitVec.eq_of_getLsbD_eq
  intro i hi
  rw [lane_getLsbD, setLane_getLsbD o w hb]
  by_cases h : b' = b
  · subst h
    rw [if_pos (by omega), if_pos rfl]
    simp [hi]
  · rw [if_neg h, lane_getLsbD]
    have := laneShift_disjoint o hb hb' (Ne.symm h)
    rw [if_neg (by omega)]

@[simp] theorem lane_zero (o : ByteOrder) (b : Nat) : lane o 0#32 b = 0#8 := by
  apply BitVec.eq_of_getLsbD_eq
  intro i hi
  simp [lane_getLsbD]

/-- A word is its four lanes. -/
theorem word_ext_lanes (o : ByteOrder) {v w : Word} (h : ∀ b < 4, lane o v b = lane o w b) : v = w := by
  apply BitVec.eq_of_getLsbD_eq
  intro j hj
  have key : ∀ b < 4, laneShift o b ≤ j → j < laneShift o b + 8 → v.getLsbD j = w.getLsbD j := by
    intro b hb h1 h2
    have e := congrArg (fun x => x.getLsbD (j - laneShift o b)) (h b hb)
    simp only [lane_getLsbD] at e
    have e1 : j - laneShift o b < 8 := by omega
    have e2 : laneShift o b + (j - laneShift o b) = j := by omega
    simpa [e1, e2] using e
  cases o with
  | little => exact key (j / 8) (by omega) (by simp only [laneShift]; omega) (by simp only [laneShift]; omega)
  | big => exact key (3 - j / 8) (by omega) (by simp only [laneShift]; omega) (by simp only [laneShift]; omega)

@[simp] theorem lane_pack4 (o : ByteOrder) (b0 b1 b2 b3 : Byte) :
    lane o (pack4 o b0 b1 b2 b3) 0 = b0 ∧ lane o (pack4 o b0 b1 b2 b3) 1 = b1 ∧
    lane o (pack4 o b0 b1 b2 b3) 2 = b2 ∧ lane o (pack4 o b0 b1 b2 b3) 3 = b3 := by
  simp [pack4, lane_setLane]

theorem lanes_pack4 (o : ByteOrder) (b0 b1 b2 b3 : Byte) : lanes o (pack4 o b0 b1 b2 b3) = [b0, b1, b2, b3] := by
  simp [lanes]

theorem pack4_lanes (o : ByteOrder) (w : Word) : pack4 o (lane o w 0) (lane o w 1) (lane o w 2) (lane o w 3) = w := by
  apply word_ext_lanes o
  intro b hb
  interval_cases b <;> simp

@[simp] theorem lanes_length (o : ByteOrder) (w : Word) : (lanes o w).length = 4 := rfl

theorem flatMap_lanes_length (o : ByteOrder) (ws : List Word) : (ws.flatMap (lanes o)).length = 4 * ws.length := by
  induction ws with
  | nil => rfl
  | cons w ws ih =>
    simp only [List.flatMap_cons, List.length_append, lanes_length, List.length_cons, ih]
    omega

theorem bytesOf_length (o : ByteOrder) {n : Nat} {ws : List Word} (h : n ≤ 4 * ws.length) : (bytesOf o n ws).length = n := by
  rw [bytesOf, List.length_take, flatMap_lanes_length]
  omega

/-- Packing after a whole word. -/
theorem packBytes_append4 (o : ByteOrder) (b0 b1 b2 b3 : Byte) (bs : List Byte) :
    packBytes o ([b0, b1, b2, b3] ++ bs) = pack4 o b0 b1 b2 b3 :: packBytes o bs := rfl

/-- The words of a byte sequence: one for every four bytes begun. -/
theorem packBytes_length (o : ByteOrder) (bs : List Byte) : (packBytes o bs).length = (bs.length + 3) / 4 := by
  induction bs using packBytes.induct with
  | case1 => simp [packBytes]
  | case2 => simp [packBytes]
  | case3 => simp [packBytes]
  | case4 => simp [packBytes]
  | case5 b0 b1 b2 b3 rest ih =>
    simp only [packBytes, List.length_cons, ih]
    omega

end Sys2Proof.Machine
end

