-- ==== Sys2Proof/Laws/State.lean ====
section
/-! SUPPORT. One lemma per field per named update of State, each true by unfolding the update; the fields an update
leaves alone first, then the ones it sets. -/

namespace Sys2Proof.Machine

/-! ## slotPut -/

@[simp] theorem slotPut_cfg (s : State) (c : BitVec 8) (f : Field) (v : Word) : (s.slotPut c f v).cfg = s.cfg := rfl
@[simp] theorem slotPut_owner (s : State) (c : BitVec 8) (f : Field) (v : Word) : (s.slotPut c f v).owner = s.owner := rfl
@[simp] theorem slotPut_pcnt (s : State) (c : BitVec 8) (f : Field) (v : Word) : (s.slotPut c f v).pcnt = s.pcnt := rfl
@[simp] theorem slotPut_stg (s : State) (c : BitVec 8) (f : Field) (v : Word) : (s.slotPut c f v).stg = s.stg := rfl
@[simp] theorem slotPut_latch (s : State) (c : BitVec 8) (f : Field) (v : Word) : (s.slotPut c f v).latch = s.latch := rfl
@[simp] theorem slotPut_response (s : State) (c : BitVec 8) (f : Field) (v : Word) : (s.slotPut c f v).response = s.response := rfl
@[simp] theorem slotPut_sessions (s : State) (c : BitVec 8) (f : Field) (v : Word) : (s.slotPut c f v).sessions = s.sessions := rfl
@[simp] theorem slotPut_periph (s : State) (c : BitVec 8) (f : Field) (v : Word) : (s.slotPut c f v).periph = s.periph := rfl
@[simp] theorem slotPut_commands (s : State) (c : BitVec 8) (f : Field) (v : Word) : (s.slotPut c f v).commands = s.commands := rfl
@[simp] theorem slotPut_responses (s : State) (c : BitVec 8) (f : Field) (v : Word) : (s.slotPut c f v).responses = s.responses := rfl
@[simp] theorem slotPut_flagSamples (s : State) (c : BitVec 8) (f : Field) (v : Word) : (s.slotPut c f v).flagSamples = s.flagSamples := rfl
@[simp] theorem slotPut_draws (s : State) (c : BitVec 8) (f : Field) (v : Word) : (s.slotPut c f v).draws = s.draws := rfl
@[simp] theorem slotPut_prDefined (s : State) (c : BitVec 8) (f : Field) (v : Word) : (s.slotPut c f v).prDefined = s.prDefined := rfl
@[simp] theorem slotPut_portLog (s : State) (c : BitVec 8) (f : Field) (v : Word) : (s.slotPut c f v).portLog = s.portLog := rfl
@[simp] theorem slotPut_store (s : State) (c : BitVec 8) (f : Field) (v : Word) :
    (s.slotPut c f v).store = Store.write s.store (fieldAddr s.cfg c f) v := rfl

/-! ## slotFill -/

@[simp] theorem slotFill_cfg (s : State) (c : BitVec 8) (ws : List Word) : (s.slotFill c ws).cfg = s.cfg := rfl
@[simp] theorem slotFill_owner (s : State) (c : BitVec 8) (ws : List Word) : (s.slotFill c ws).owner = s.owner := rfl
@[simp] theorem slotFill_pcnt (s : State) (c : BitVec 8) (ws : List Word) : (s.slotFill c ws).pcnt = s.pcnt := rfl
@[simp] theorem slotFill_stg (s : State) (c : BitVec 8) (ws : List Word) : (s.slotFill c ws).stg = s.stg := rfl
@[simp] theorem slotFill_latch (s : State) (c : BitVec 8) (ws : List Word) : (s.slotFill c ws).latch = s.latch := rfl
@[simp] theorem slotFill_response (s : State) (c : BitVec 8) (ws : List Word) : (s.slotFill c ws).response = s.response := rfl
@[simp] theorem slotFill_sessions (s : State) (c : BitVec 8) (ws : List Word) : (s.slotFill c ws).sessions = s.sessions := rfl
@[simp] theorem slotFill_periph (s : State) (c : BitVec 8) (ws : List Word) : (s.slotFill c ws).periph = s.periph := rfl
@[simp] theorem slotFill_commands (s : State) (c : BitVec 8) (ws : List Word) : (s.slotFill c ws).commands = s.commands := rfl
@[simp] theorem slotFill_responses (s : State) (c : BitVec 8) (ws : List Word) : (s.slotFill c ws).responses = s.responses := rfl
@[simp] theorem slotFill_flagSamples (s : State) (c : BitVec 8) (ws : List Word) : (s.slotFill c ws).flagSamples = s.flagSamples := rfl
@[simp] theorem slotFill_draws (s : State) (c : BitVec 8) (ws : List Word) : (s.slotFill c ws).draws = s.draws := rfl
@[simp] theorem slotFill_prDefined (s : State) (c : BitVec 8) (ws : List Word) : (s.slotFill c ws).prDefined = s.prDefined := rfl
@[simp] theorem slotFill_portLog (s : State) (c : BitVec 8) (ws : List Word) : (s.slotFill c ws).portLog = s.portLog := rfl
@[simp] theorem slotFill_store (s : State) (c : BitVec 8) (ws : List Word) :
    (s.slotFill c ws).store = Store.writeAll s.store (slotAddr s.cfg c) ws := rfl

/-! ## unspecifyPR -/

@[simp] theorem unspecifyPR_cfg (s : State) : s.unspecifyPR.cfg = s.cfg := rfl
@[simp] theorem unspecifyPR_owner (s : State) : s.unspecifyPR.owner = s.owner := rfl
@[simp] theorem unspecifyPR_pcnt (s : State) : s.unspecifyPR.pcnt = s.pcnt := rfl
@[simp] theorem unspecifyPR_stg (s : State) : s.unspecifyPR.stg = s.stg := rfl
@[simp] theorem unspecifyPR_latch (s : State) : s.unspecifyPR.latch = s.latch := rfl
@[simp] theorem unspecifyPR_response (s : State) : s.unspecifyPR.response = s.response := rfl
@[simp] theorem unspecifyPR_store (s : State) : s.unspecifyPR.store = s.store := rfl
@[simp] theorem unspecifyPR_sessions (s : State) : s.unspecifyPR.sessions = s.sessions := rfl
@[simp] theorem unspecifyPR_commands (s : State) : s.unspecifyPR.commands = s.commands := rfl
@[simp] theorem unspecifyPR_responses (s : State) : s.unspecifyPR.responses = s.responses := rfl
@[simp] theorem unspecifyPR_flagSamples (s : State) : s.unspecifyPR.flagSamples = s.flagSamples := rfl
@[simp] theorem unspecifyPR_portLog (s : State) : s.unspecifyPR.portLog = s.portLog := rfl
@[simp] theorem unspecifyPR_periph (s : State) :
    s.unspecifyPR.periph = { s.periph with pr := PR.ofWords (s.freeWords s.cfg.contextWords) } := rfl
@[simp] theorem unspecifyPR_draws (s : State) :
    s.unspecifyPR.draws = s.draws + s.cfg.contextWords := rfl
@[simp] theorem unspecifyPR_prDefined (s : State) :
    s.unspecifyPR.prDefined = false := rfl

/-! ## unspecifySlot -/

@[simp] theorem unspecifySlot_cfg (s : State) (c : BitVec 8) : (s.unspecifySlot c).cfg = s.cfg := rfl
@[simp] theorem unspecifySlot_owner (s : State) (c : BitVec 8) : (s.unspecifySlot c).owner = s.owner := rfl
@[simp] theorem unspecifySlot_pcnt (s : State) (c : BitVec 8) : (s.unspecifySlot c).pcnt = s.pcnt := rfl
@[simp] theorem unspecifySlot_stg (s : State) (c : BitVec 8) : (s.unspecifySlot c).stg = s.stg := rfl
@[simp] theorem unspecifySlot_latch (s : State) (c : BitVec 8) : (s.unspecifySlot c).latch = s.latch := rfl
@[simp] theorem unspecifySlot_response (s : State) (c : BitVec 8) : (s.unspecifySlot c).response = s.response := rfl
@[simp] theorem unspecifySlot_sessions (s : State) (c : BitVec 8) : (s.unspecifySlot c).sessions = s.sessions := rfl
@[simp] theorem unspecifySlot_periph (s : State) (c : BitVec 8) : (s.unspecifySlot c).periph = s.periph := rfl
@[simp] theorem unspecifySlot_commands (s : State) (c : BitVec 8) : (s.unspecifySlot c).commands = s.commands := rfl
@[simp] theorem unspecifySlot_responses (s : State) (c : BitVec 8) : (s.unspecifySlot c).responses = s.responses := rfl
@[simp] theorem unspecifySlot_flagSamples (s : State) (c : BitVec 8) : (s.unspecifySlot c).flagSamples = s.flagSamples := rfl
@[simp] theorem unspecifySlot_prDefined (s : State) (c : BitVec 8) : (s.unspecifySlot c).prDefined = s.prDefined := rfl
@[simp] theorem unspecifySlot_portLog (s : State) (c : BitVec 8) : (s.unspecifySlot c).portLog = s.portLog := rfl
@[simp] theorem unspecifySlot_store (s : State) (c : BitVec 8) :
    (s.unspecifySlot c).store = Store.writeAll s.store (slotAddr s.cfg c) (s.freeWords s.cfg.slotWords) := rfl
@[simp] theorem unspecifySlot_draws (s : State) (c : BitVec 8) :
    (s.unspecifySlot c).draws = s.draws + s.cfg.slotWords := rfl

/-! ## releaseUnit -/

@[simp] theorem releaseUnit_cfg (s : State) : s.releaseUnit.cfg = s.cfg := rfl
@[simp] theorem releaseUnit_pcnt (s : State) : s.releaseUnit.pcnt = s.pcnt := rfl
@[simp] theorem releaseUnit_stg (s : State) : s.releaseUnit.stg = s.stg := rfl
@[simp] theorem releaseUnit_latch (s : State) : s.releaseUnit.latch = s.latch := rfl
@[simp] theorem releaseUnit_response (s : State) : s.releaseUnit.response = s.response := rfl
@[simp] theorem releaseUnit_store (s : State) : s.releaseUnit.store = s.store := rfl
@[simp] theorem releaseUnit_sessions (s : State) : s.releaseUnit.sessions = s.sessions := rfl
@[simp] theorem releaseUnit_commands (s : State) : s.releaseUnit.commands = s.commands := rfl
@[simp] theorem releaseUnit_responses (s : State) : s.releaseUnit.responses = s.responses := rfl
@[simp] theorem releaseUnit_flagSamples (s : State) : s.releaseUnit.flagSamples = s.flagSamples := rfl
@[simp] theorem releaseUnit_portLog (s : State) : s.releaseUnit.portLog = s.portLog := rfl
@[simp] theorem releaseUnit_periph (s : State) :
    s.releaseUnit.periph = { s.periph with pr := PR.ofWords (s.freeWords s.cfg.contextWords) } := rfl
@[simp] theorem releaseUnit_draws (s : State) :
    s.releaseUnit.draws = s.draws + s.cfg.contextWords := rfl
@[simp] theorem releaseUnit_prDefined (s : State) :
    s.releaseUnit.prDefined = false := rfl
@[simp] theorem releaseUnit_owner (s : State) :
    s.releaseUnit.owner = none := rfl

/-! ## startUnit -/

@[simp] theorem startUnit_cfg (s : State) (a : BitVec 4) : (startUnit a s).cfg = s.cfg := rfl
@[simp] theorem startUnit_owner (s : State) (a : BitVec 4) : (startUnit a s).owner = s.owner := rfl
@[simp] theorem startUnit_pcnt (s : State) (a : BitVec 4) : (startUnit a s).pcnt = s.pcnt := rfl
@[simp] theorem startUnit_stg (s : State) (a : BitVec 4) : (startUnit a s).stg = s.stg := rfl
@[simp] theorem startUnit_latch (s : State) (a : BitVec 4) : (startUnit a s).latch = s.latch := rfl
@[simp] theorem startUnit_response (s : State) (a : BitVec 4) : (startUnit a s).response = s.response := rfl
@[simp] theorem startUnit_store (s : State) (a : BitVec 4) : (startUnit a s).store = s.store := rfl
@[simp] theorem startUnit_sessions (s : State) (a : BitVec 4) : (startUnit a s).sessions = s.sessions := rfl
@[simp] theorem startUnit_commands (s : State) (a : BitVec 4) : (startUnit a s).commands = s.commands := rfl
@[simp] theorem startUnit_responses (s : State) (a : BitVec 4) : (startUnit a s).responses = s.responses := rfl
@[simp] theorem startUnit_flagSamples (s : State) (a : BitVec 4) : (startUnit a s).flagSamples = s.flagSamples := rfl
@[simp] theorem startUnit_draws (s : State) (a : BitVec 4) : (startUnit a s).draws = s.draws := rfl
@[simp] theorem startUnit_periph (s : State) (a : BitVec 4) :
    (startUnit a s).periph = { s.periph with pr := periphStart s.cfg a } := rfl
@[simp] theorem startUnit_prDefined (s : State) (a : BitVec 4) :
    (startUnit a s).prDefined = true := rfl
@[simp] theorem startUnit_portLog (s : State) (a : BitVec 4) :
    (startUnit a s).portLog = .write .start (a.zeroExtend 32) :: s.portLog := rfl

/-! ## submitWord -/

@[simp] theorem submitWord_cfg (s : State) (w : Word) : (submitWord w s).cfg = s.cfg := rfl
@[simp] theorem submitWord_owner (s : State) (w : Word) : (submitWord w s).owner = s.owner := rfl
@[simp] theorem submitWord_pcnt (s : State) (w : Word) : (submitWord w s).pcnt = s.pcnt := rfl
@[simp] theorem submitWord_stg (s : State) (w : Word) : (submitWord w s).stg = s.stg := rfl
@[simp] theorem submitWord_latch (s : State) (w : Word) : (submitWord w s).latch = s.latch := rfl
@[simp] theorem submitWord_response (s : State) (w : Word) : (submitWord w s).response = s.response := rfl
@[simp] theorem submitWord_store (s : State) (w : Word) : (submitWord w s).store = s.store := rfl
@[simp] theorem submitWord_sessions (s : State) (w : Word) : (submitWord w s).sessions = s.sessions := rfl
@[simp] theorem submitWord_commands (s : State) (w : Word) : (submitWord w s).commands = s.commands := rfl
@[simp] theorem submitWord_responses (s : State) (w : Word) : (submitWord w s).responses = s.responses := rfl
@[simp] theorem submitWord_flagSamples (s : State) (w : Word) : (submitWord w s).flagSamples = s.flagSamples := rfl
@[simp] theorem submitWord_draws (s : State) (w : Word) : (submitWord w s).draws = s.draws := rfl
@[simp] theorem submitWord_prDefined (s : State) (w : Word) : (submitWord w s).prDefined = s.prDefined := rfl
@[simp] theorem submitWord_periph (s : State) (w : Word) :
    (submitWord w s).periph = { s.periph with din := w, pr := periphAbsorb s.cfg s.periph.pr w } := rfl
@[simp] theorem submitWord_portLog (s : State) (w : Word) :
    (submitWord w s).portLog = .write .din w :: s.portLog := rfl

/-! ## finalize -/

@[simp] theorem finalize_cfg (s : State) (a : BitVec 4) (len : Word) : (finalize a len s).cfg = s.cfg := rfl
@[simp] theorem finalize_owner (s : State) (a : BitVec 4) (len : Word) : (finalize a len s).owner = s.owner := rfl
@[simp] theorem finalize_pcnt (s : State) (a : BitVec 4) (len : Word) : (finalize a len s).pcnt = s.pcnt := rfl
@[simp] theorem finalize_stg (s : State) (a : BitVec 4) (len : Word) : (finalize a len s).stg = s.stg := rfl
@[simp] theorem finalize_latch (s : State) (a : BitVec 4) (len : Word) : (finalize a len s).latch = s.latch := rfl
@[simp] theorem finalize_response (s : State) (a : BitVec 4) (len : Word) : (finalize a len s).response = s.response := rfl
@[simp] theorem finalize_store (s : State) (a : BitVec 4) (len : Word) : (finalize a len s).store = s.store := rfl
@[simp] theorem finalize_sessions (s : State) (a : BitVec 4) (len : Word) : (finalize a len s).sessions = s.sessions := rfl
@[simp] theorem finalize_commands (s : State) (a : BitVec 4) (len : Word) : (finalize a len s).commands = s.commands := rfl
@[simp] theorem finalize_responses (s : State) (a : BitVec 4) (len : Word) : (finalize a len s).responses = s.responses := rfl
@[simp] theorem finalize_flagSamples (s : State) (a : BitVec 4) (len : Word) : (finalize a len s).flagSamples = s.flagSamples := rfl
@[simp] theorem finalize_draws (s : State) (a : BitVec 4) (len : Word) : (finalize a len s).draws = s.draws := rfl
@[simp] theorem finalize_prDefined (s : State) (a : BitVec 4) (len : Word) : (finalize a len s).prDefined = s.prDefined := rfl
@[simp] theorem finalize_periph (s : State) (a : BitVec 4) (len : Word) :
    (finalize a len s).periph = { s.periph with
      lencfg := lencfg s.cfg a (len.extractLsb' 0 6)
      res := periphFinal s.cfg s.periph.pr (lencfg s.cfg a (len.extractLsb' 0 6)) } := rfl
@[simp] theorem finalize_portLog (s : State) (a : BitVec 4) (len : Word) :
    (finalize a len s).portLog = .write .lencfg (lencfg s.cfg a (len.extractLsb' 0 6)) :: s.portLog := rfl

/-! ## afterDigestRead -/

@[simp] theorem afterDigestRead_cfg (s : State) (d : BitVec 8) : (afterDigestRead d s).cfg = s.cfg := rfl
@[simp] theorem afterDigestRead_owner (s : State) (d : BitVec 8) : (afterDigestRead d s).owner = s.owner := rfl
@[simp] theorem afterDigestRead_pcnt (s : State) (d : BitVec 8) : (afterDigestRead d s).pcnt = s.pcnt := rfl
@[simp] theorem afterDigestRead_stg (s : State) (d : BitVec 8) : (afterDigestRead d s).stg = s.stg := rfl
@[simp] theorem afterDigestRead_latch (s : State) (d : BitVec 8) : (afterDigestRead d s).latch = s.latch := rfl
@[simp] theorem afterDigestRead_response (s : State) (d : BitVec 8) : (afterDigestRead d s).response = s.response := rfl
@[simp] theorem afterDigestRead_store (s : State) (d : BitVec 8) : (afterDigestRead d s).store = s.store := rfl
@[simp] theorem afterDigestRead_sessions (s : State) (d : BitVec 8) : (afterDigestRead d s).sessions = s.sessions := rfl
@[simp] theorem afterDigestRead_periph (s : State) (d : BitVec 8) : (afterDigestRead d s).periph = s.periph := rfl
@[simp] theorem afterDigestRead_commands (s : State) (d : BitVec 8) : (afterDigestRead d s).commands = s.commands := rfl
@[simp] theorem afterDigestRead_responses (s : State) (d : BitVec 8) : (afterDigestRead d s).responses = s.responses := rfl
@[simp] theorem afterDigestRead_flagSamples (s : State) (d : BitVec 8) : (afterDigestRead d s).flagSamples = s.flagSamples := rfl
@[simp] theorem afterDigestRead_draws (s : State) (d : BitVec 8) : (afterDigestRead d s).draws = s.draws := rfl
@[simp] theorem afterDigestRead_prDefined (s : State) (d : BitVec 8) : (afterDigestRead d s).prDefined = s.prDefined := rfl
@[simp] theorem afterDigestRead_portLog (s : State) (d : BitVec 8) :
    (afterDigestRead d s).portLog = (resultReads s (digestWords d)).reverse ++ s.portLog := rfl

/-! ## stageRegisters -/

@[simp] theorem stageRegisters_cfg (s : State) : (stageRegisters s).cfg = s.cfg := rfl
@[simp] theorem stageRegisters_owner (s : State) : (stageRegisters s).owner = s.owner := rfl
@[simp] theorem stageRegisters_pcnt (s : State) : (stageRegisters s).pcnt = s.pcnt := rfl
@[simp] theorem stageRegisters_latch (s : State) : (stageRegisters s).latch = s.latch := rfl
@[simp] theorem stageRegisters_response (s : State) : (stageRegisters s).response = s.response := rfl
@[simp] theorem stageRegisters_store (s : State) : (stageRegisters s).store = s.store := rfl
@[simp] theorem stageRegisters_sessions (s : State) : (stageRegisters s).sessions = s.sessions := rfl
@[simp] theorem stageRegisters_periph (s : State) : (stageRegisters s).periph = s.periph := rfl
@[simp] theorem stageRegisters_commands (s : State) : (stageRegisters s).commands = s.commands := rfl
@[simp] theorem stageRegisters_responses (s : State) : (stageRegisters s).responses = s.responses := rfl
@[simp] theorem stageRegisters_flagSamples (s : State) : (stageRegisters s).flagSamples = s.flagSamples := rfl
@[simp] theorem stageRegisters_draws (s : State) : (stageRegisters s).draws = s.draws := rfl
@[simp] theorem stageRegisters_prDefined (s : State) : (stageRegisters s).prDefined = s.prDefined := rfl
@[simp] theorem stageRegisters_stg (s : State) :
    (stageRegisters s).stg = PR.ofWords (s.periph.pr.words s.cfg) := rfl
@[simp] theorem stageRegisters_portLog (s : State) :
    (stageRegisters s).portLog = (captureReads s).reverse ++ s.portLog := rfl

/-! ## commitCapture -/

@[simp] theorem commitCapture_cfg (s : State) (t : BitVec 8) : (commitCapture t s).cfg = s.cfg := rfl
@[simp] theorem commitCapture_owner (s : State) (t : BitVec 8) : (commitCapture t s).owner = s.owner := rfl
@[simp] theorem commitCapture_pcnt (s : State) (t : BitVec 8) : (commitCapture t s).pcnt = s.pcnt := rfl
@[simp] theorem commitCapture_stg (s : State) (t : BitVec 8) : (commitCapture t s).stg = s.stg := rfl
@[simp] theorem commitCapture_latch (s : State) (t : BitVec 8) : (commitCapture t s).latch = s.latch := rfl
@[simp] theorem commitCapture_response (s : State) (t : BitVec 8) : (commitCapture t s).response = s.response := rfl
@[simp] theorem commitCapture_sessions (s : State) (t : BitVec 8) : (commitCapture t s).sessions = s.sessions := rfl
@[simp] theorem commitCapture_periph (s : State) (t : BitVec 8) : (commitCapture t s).periph = s.periph := rfl
@[simp] theorem commitCapture_commands (s : State) (t : BitVec 8) : (commitCapture t s).commands = s.commands := rfl
@[simp] theorem commitCapture_responses (s : State) (t : BitVec 8) : (commitCapture t s).responses = s.responses := rfl
@[simp] theorem commitCapture_flagSamples (s : State) (t : BitVec 8) : (commitCapture t s).flagSamples = s.flagSamples := rfl
@[simp] theorem commitCapture_draws (s : State) (t : BitVec 8) : (commitCapture t s).draws = s.draws := rfl
@[simp] theorem commitCapture_prDefined (s : State) (t : BitVec 8) : (commitCapture t s).prDefined = s.prDefined := rfl
@[simp] theorem commitCapture_portLog (s : State) (t : BitVec 8) : (commitCapture t s).portLog = s.portLog := rfl

/-! ## captureInto -/

@[simp] theorem captureInto_cfg (s : State) (t : BitVec 8) : (captureInto t s).cfg = s.cfg := rfl
@[simp] theorem captureInto_owner (s : State) (t : BitVec 8) : (captureInto t s).owner = s.owner := rfl
@[simp] theorem captureInto_pcnt (s : State) (t : BitVec 8) : (captureInto t s).pcnt = s.pcnt := rfl
@[simp] theorem captureInto_latch (s : State) (t : BitVec 8) : (captureInto t s).latch = s.latch := rfl
@[simp] theorem captureInto_response (s : State) (t : BitVec 8) : (captureInto t s).response = s.response := rfl
@[simp] theorem captureInto_sessions (s : State) (t : BitVec 8) : (captureInto t s).sessions = s.sessions := rfl
@[simp] theorem captureInto_periph (s : State) (t : BitVec 8) : (captureInto t s).periph = s.periph := rfl
@[simp] theorem captureInto_commands (s : State) (t : BitVec 8) : (captureInto t s).commands = s.commands := rfl
@[simp] theorem captureInto_responses (s : State) (t : BitVec 8) : (captureInto t s).responses = s.responses := rfl
@[simp] theorem captureInto_flagSamples (s : State) (t : BitVec 8) : (captureInto t s).flagSamples = s.flagSamples := rfl
@[simp] theorem captureInto_draws (s : State) (t : BitVec 8) : (captureInto t s).draws = s.draws := rfl
@[simp] theorem captureInto_prDefined (s : State) (t : BitVec 8) : (captureInto t s).prDefined = s.prDefined := rfl
@[simp] theorem captureInto_stg (s : State) (t : BitVec 8) :
    (captureInto t s).stg = PR.ofWords (s.periph.pr.words s.cfg) := rfl
@[simp] theorem captureInto_portLog (s : State) (t : BitVec 8) :
    (captureInto t s).portLog = (captureReads s).reverse ++ s.portLog := rfl

/-! ## restoreFrom -/

@[simp] theorem restoreFrom_cfg (s : State) (c : BitVec 8) : (restoreFrom c s).cfg = s.cfg := rfl
@[simp] theorem restoreFrom_owner (s : State) (c : BitVec 8) : (restoreFrom c s).owner = s.owner := rfl
@[simp] theorem restoreFrom_pcnt (s : State) (c : BitVec 8) : (restoreFrom c s).pcnt = s.pcnt := rfl
@[simp] theorem restoreFrom_stg (s : State) (c : BitVec 8) : (restoreFrom c s).stg = s.stg := rfl
@[simp] theorem restoreFrom_latch (s : State) (c : BitVec 8) : (restoreFrom c s).latch = s.latch := rfl
@[simp] theorem restoreFrom_response (s : State) (c : BitVec 8) : (restoreFrom c s).response = s.response := rfl
@[simp] theorem restoreFrom_store (s : State) (c : BitVec 8) : (restoreFrom c s).store = s.store := rfl
@[simp] theorem restoreFrom_sessions (s : State) (c : BitVec 8) : (restoreFrom c s).sessions = s.sessions := rfl
@[simp] theorem restoreFrom_commands (s : State) (c : BitVec 8) : (restoreFrom c s).commands = s.commands := rfl
@[simp] theorem restoreFrom_responses (s : State) (c : BitVec 8) : (restoreFrom c s).responses = s.responses := rfl
@[simp] theorem restoreFrom_flagSamples (s : State) (c : BitVec 8) : (restoreFrom c s).flagSamples = s.flagSamples := rfl
@[simp] theorem restoreFrom_draws (s : State) (c : BitVec 8) : (restoreFrom c s).draws = s.draws := rfl
@[simp] theorem restoreFrom_periph (s : State) (c : BitVec 8) :
    (restoreFrom c s).periph = { s.periph with pr := s.shadow c } := rfl
@[simp] theorem restoreFrom_prDefined (s : State) (c : BitVec 8) :
    (restoreFrom c s).prDefined = true := rfl
@[simp] theorem restoreFrom_portLog (s : State) (c : BitVec 8) :
    (restoreFrom c s).portLog = (restoreWrites c s).reverse ++ s.portLog := rfl

/-! ## buildResponse -/

@[simp] theorem buildResponse_cfg (s : State) (h : Word) : (buildResponse h s).cfg = s.cfg := rfl
@[simp] theorem buildResponse_owner (s : State) (h : Word) : (buildResponse h s).owner = s.owner := rfl
@[simp] theorem buildResponse_pcnt (s : State) (h : Word) : (buildResponse h s).pcnt = s.pcnt := rfl
@[simp] theorem buildResponse_stg (s : State) (h : Word) : (buildResponse h s).stg = s.stg := rfl
@[simp] theorem buildResponse_latch (s : State) (h : Word) : (buildResponse h s).latch = s.latch := rfl
@[simp] theorem buildResponse_store (s : State) (h : Word) : (buildResponse h s).store = s.store := rfl
@[simp] theorem buildResponse_sessions (s : State) (h : Word) : (buildResponse h s).sessions = s.sessions := rfl
@[simp] theorem buildResponse_periph (s : State) (h : Word) : (buildResponse h s).periph = s.periph := rfl
@[simp] theorem buildResponse_commands (s : State) (h : Word) : (buildResponse h s).commands = s.commands := rfl
@[simp] theorem buildResponse_responses (s : State) (h : Word) : (buildResponse h s).responses = s.responses := rfl
@[simp] theorem buildResponse_flagSamples (s : State) (h : Word) : (buildResponse h s).flagSamples = s.flagSamples := rfl
@[simp] theorem buildResponse_draws (s : State) (h : Word) : (buildResponse h s).draws = s.draws := rfl
@[simp] theorem buildResponse_prDefined (s : State) (h : Word) : (buildResponse h s).prDefined = s.prDefined := rfl
@[simp] theorem buildResponse_portLog (s : State) (h : Word) : (buildResponse h s).portLog = s.portLog := rfl
@[simp] theorem buildResponse_response (s : State) (h : Word) :
    (buildResponse h s).response = some h := rfl

/-! ## emitResponse -/

@[simp] theorem emitResponse_cfg (s : State) (p : List Word) : (emitResponse p s).cfg = s.cfg := rfl
@[simp] theorem emitResponse_owner (s : State) (p : List Word) : (emitResponse p s).owner = s.owner := rfl
@[simp] theorem emitResponse_pcnt (s : State) (p : List Word) : (emitResponse p s).pcnt = s.pcnt := rfl
@[simp] theorem emitResponse_stg (s : State) (p : List Word) : (emitResponse p s).stg = s.stg := rfl
@[simp] theorem emitResponse_store (s : State) (p : List Word) : (emitResponse p s).store = s.store := rfl
@[simp] theorem emitResponse_sessions (s : State) (p : List Word) : (emitResponse p s).sessions = s.sessions := rfl
@[simp] theorem emitResponse_periph (s : State) (p : List Word) : (emitResponse p s).periph = s.periph := rfl
@[simp] theorem emitResponse_commands (s : State) (p : List Word) : (emitResponse p s).commands = s.commands := rfl
@[simp] theorem emitResponse_flagSamples (s : State) (p : List Word) : (emitResponse p s).flagSamples = s.flagSamples := rfl
@[simp] theorem emitResponse_draws (s : State) (p : List Word) : (emitResponse p s).draws = s.draws := rfl
@[simp] theorem emitResponse_prDefined (s : State) (p : List Word) : (emitResponse p s).prDefined = s.prDefined := rfl
@[simp] theorem emitResponse_portLog (s : State) (p : List Word) : (emitResponse p s).portLog = s.portLog := rfl
@[simp] theorem emitResponse_responses (s : State) (p : List Word) :
    (emitResponse p s).responses = s.responses ++ (s.response.toList ++ p) := rfl
@[simp] theorem emitResponse_response (s : State) (p : List Word) :
    (emitResponse p s).response = none := rfl
@[simp] theorem emitResponse_latch (s : State) (p : List Word) :
    (emitResponse p s).latch = none := rfl

/-! ## respond -/

@[simp] theorem respond_cfg (s : State) (h : Word) (p : List Word) : (respond h p s).cfg = s.cfg := rfl
@[simp] theorem respond_owner (s : State) (h : Word) (p : List Word) : (respond h p s).owner = s.owner := rfl
@[simp] theorem respond_pcnt (s : State) (h : Word) (p : List Word) : (respond h p s).pcnt = s.pcnt := rfl
@[simp] theorem respond_stg (s : State) (h : Word) (p : List Word) : (respond h p s).stg = s.stg := rfl
@[simp] theorem respond_store (s : State) (h : Word) (p : List Word) : (respond h p s).store = s.store := rfl
@[simp] theorem respond_sessions (s : State) (h : Word) (p : List Word) : (respond h p s).sessions = s.sessions := rfl
@[simp] theorem respond_periph (s : State) (h : Word) (p : List Word) : (respond h p s).periph = s.periph := rfl
@[simp] theorem respond_commands (s : State) (h : Word) (p : List Word) : (respond h p s).commands = s.commands := rfl
@[simp] theorem respond_flagSamples (s : State) (h : Word) (p : List Word) : (respond h p s).flagSamples = s.flagSamples := rfl
@[simp] theorem respond_draws (s : State) (h : Word) (p : List Word) : (respond h p s).draws = s.draws := rfl
@[simp] theorem respond_prDefined (s : State) (h : Word) (p : List Word) : (respond h p s).prDefined = s.prDefined := rfl
@[simp] theorem respond_portLog (s : State) (h : Word) (p : List Word) : (respond h p s).portLog = s.portLog := rfl
@[simp] theorem respond_responses (s : State) (h : Word) (p : List Word) :
    (respond h p s).responses = s.responses ++ h :: p := rfl
@[simp] theorem respond_response (s : State) (h : Word) (p : List Word) :
    (respond h p s).response = none := rfl
@[simp] theorem respond_latch (s : State) (h : Word) (p : List Word) :
    (respond h p s).latch = none := rfl

/-! ## returnOk -/

@[simp] theorem returnOk_cfg (s : State) (o : BitVec 4) (c : BitVec 8) : (returnOk o c s).cfg = s.cfg := rfl
@[simp] theorem returnOk_owner (s : State) (o : BitVec 4) (c : BitVec 8) : (returnOk o c s).owner = s.owner := rfl
@[simp] theorem returnOk_pcnt (s : State) (o : BitVec 4) (c : BitVec 8) : (returnOk o c s).pcnt = s.pcnt := rfl
@[simp] theorem returnOk_stg (s : State) (o : BitVec 4) (c : BitVec 8) : (returnOk o c s).stg = s.stg := rfl
@[simp] theorem returnOk_store (s : State) (o : BitVec 4) (c : BitVec 8) : (returnOk o c s).store = s.store := rfl
@[simp] theorem returnOk_sessions (s : State) (o : BitVec 4) (c : BitVec 8) : (returnOk o c s).sessions = s.sessions := rfl
@[simp] theorem returnOk_periph (s : State) (o : BitVec 4) (c : BitVec 8) : (returnOk o c s).periph = s.periph := rfl
@[simp] theorem returnOk_commands (s : State) (o : BitVec 4) (c : BitVec 8) : (returnOk o c s).commands = s.commands := rfl
@[simp] theorem returnOk_flagSamples (s : State) (o : BitVec 4) (c : BitVec 8) : (returnOk o c s).flagSamples = s.flagSamples := rfl
@[simp] theorem returnOk_draws (s : State) (o : BitVec 4) (c : BitVec 8) : (returnOk o c s).draws = s.draws := rfl
@[simp] theorem returnOk_prDefined (s : State) (o : BitVec 4) (c : BitVec 8) : (returnOk o c s).prDefined = s.prDefined := rfl
@[simp] theorem returnOk_portLog (s : State) (o : BitVec 4) (c : BitVec 8) : (returnOk o c s).portLog = s.portLog := rfl
@[simp] theorem returnOk_responses (s : State) (o : BitVec 4) (c : BitVec 8) :
    (returnOk o c s).responses = s.responses ++ [responseHeader o .ok c 0#8] := rfl
@[simp] theorem returnOk_response (s : State) (o : BitVec 4) (c : BitVec 8) :
    (returnOk o c s).response = none := rfl
@[simp] theorem returnOk_latch (s : State) (o : BitVec 4) (c : BitVec 8) :
    (returnOk o c s).latch = none := rfl

/-! ## raise -/

@[simp] theorem raise_cfg (s : State) (o : BitVec 4) (c : BitVec 8) (st : Status) : (raise o c st s).cfg = s.cfg := rfl
@[simp] theorem raise_owner (s : State) (o : BitVec 4) (c : BitVec 8) (st : Status) : (raise o c st s).owner = s.owner := rfl
@[simp] theorem raise_pcnt (s : State) (o : BitVec 4) (c : BitVec 8) (st : Status) : (raise o c st s).pcnt = s.pcnt := rfl
@[simp] theorem raise_stg (s : State) (o : BitVec 4) (c : BitVec 8) (st : Status) : (raise o c st s).stg = s.stg := rfl
@[simp] theorem raise_store (s : State) (o : BitVec 4) (c : BitVec 8) (st : Status) : (raise o c st s).store = s.store := rfl
@[simp] theorem raise_sessions (s : State) (o : BitVec 4) (c : BitVec 8) (st : Status) : (raise o c st s).sessions = s.sessions := rfl
@[simp] theorem raise_periph (s : State) (o : BitVec 4) (c : BitVec 8) (st : Status) : (raise o c st s).periph = s.periph := rfl
@[simp] theorem raise_commands (s : State) (o : BitVec 4) (c : BitVec 8) (st : Status) : (raise o c st s).commands = s.commands := rfl
@[simp] theorem raise_flagSamples (s : State) (o : BitVec 4) (c : BitVec 8) (st : Status) : (raise o c st s).flagSamples = s.flagSamples := rfl
@[simp] theorem raise_draws (s : State) (o : BitVec 4) (c : BitVec 8) (st : Status) : (raise o c st s).draws = s.draws := rfl
@[simp] theorem raise_prDefined (s : State) (o : BitVec 4) (c : BitVec 8) (st : Status) : (raise o c st s).prDefined = s.prDefined := rfl
@[simp] theorem raise_portLog (s : State) (o : BitVec 4) (c : BitVec 8) (st : Status) : (raise o c st s).portLog = s.portLog := rfl
@[simp] theorem raise_responses (s : State) (o : BitVec 4) (c : BitVec 8) (st : Status) :
    (raise o c st s).responses = s.responses ++ [responseHeader o st c 0#8] := rfl
@[simp] theorem raise_response (s : State) (o : BitVec 4) (c : BitVec 8) (st : Status) :
    (raise o c st s).response = none := rfl
@[simp] theorem raise_latch (s : State) (o : BitVec 4) (c : BitVec 8) (st : Status) :
    (raise o c st s).latch = none := rfl

/-! ## dataPhaseTimeout -/

@[simp] theorem dataPhaseTimeout_cfg (s : State) (o : BitVec 4) (c : BitVec 8) : (dataPhaseTimeout o c s).cfg = s.cfg := rfl
@[simp] theorem dataPhaseTimeout_pcnt (s : State) (o : BitVec 4) (c : BitVec 8) : (dataPhaseTimeout o c s).pcnt = s.pcnt := rfl
@[simp] theorem dataPhaseTimeout_stg (s : State) (o : BitVec 4) (c : BitVec 8) : (dataPhaseTimeout o c s).stg = s.stg := rfl
@[simp] theorem dataPhaseTimeout_sessions (s : State) (o : BitVec 4) (c : BitVec 8) : (dataPhaseTimeout o c s).sessions = s.sessions := rfl
@[simp] theorem dataPhaseTimeout_commands (s : State) (o : BitVec 4) (c : BitVec 8) : (dataPhaseTimeout o c s).commands = s.commands := rfl
@[simp] theorem dataPhaseTimeout_flagSamples (s : State) (o : BitVec 4) (c : BitVec 8) : (dataPhaseTimeout o c s).flagSamples = s.flagSamples := rfl
@[simp] theorem dataPhaseTimeout_portLog (s : State) (o : BitVec 4) (c : BitVec 8) : (dataPhaseTimeout o c s).portLog = s.portLog := rfl
@[simp] theorem dataPhaseTimeout_responses (s : State) (o : BitVec 4) (c : BitVec 8) :
    (dataPhaseTimeout o c s).responses = s.responses ++ [responseHeader o .timeout c 0#8] := rfl
@[simp] theorem dataPhaseTimeout_response (s : State) (o : BitVec 4) (c : BitVec 8) :
    (dataPhaseTimeout o c s).response = none := rfl
@[simp] theorem dataPhaseTimeout_latch (s : State) (o : BitVec 4) (c : BitVec 8) :
    (dataPhaseTimeout o c s).latch = none := rfl
@[simp] theorem dataPhaseTimeout_store (s : State) (o : BitVec 4) (c : BitVec 8) :
    (dataPhaseTimeout o c s).store = (s.unspecifySlot c).store := rfl
@[simp] theorem dataPhaseTimeout_draws (s : State) (o : BitVec 4) (c : BitVec 8) :
    (dataPhaseTimeout o c s).draws = s.draws + s.cfg.slotWords + s.cfg.contextWords := rfl
@[simp] theorem dataPhaseTimeout_owner (s : State) (o : BitVec 4) (c : BitVec 8) :
    (dataPhaseTimeout o c s).owner = none := rfl
@[simp] theorem dataPhaseTimeout_prDefined (s : State) (o : BitVec 4) (c : BitVec 8) :
    (dataPhaseTimeout o c s).prDefined = false := rfl
@[simp] theorem dataPhaseTimeout_periph (s : State) (o : BitVec 4) (c : BitVec 8) :
    (dataPhaseTimeout o c s).periph = (s.unspecifySlot c).releaseUnit.periph := rfl

/-! ## activate -/

@[simp] theorem activate_cfg (s : State) (c : BitVec 8) (shv : Bool) (a : BitVec 4) : (activate c shv a s).cfg = s.cfg := rfl
@[simp] theorem activate_owner (s : State) (c : BitVec 8) (shv : Bool) (a : BitVec 4) : (activate c shv a s).owner = s.owner := rfl
@[simp] theorem activate_pcnt (s : State) (c : BitVec 8) (shv : Bool) (a : BitVec 4) : (activate c shv a s).pcnt = s.pcnt := rfl
@[simp] theorem activate_stg (s : State) (c : BitVec 8) (shv : Bool) (a : BitVec 4) : (activate c shv a s).stg = s.stg := rfl
@[simp] theorem activate_latch (s : State) (c : BitVec 8) (shv : Bool) (a : BitVec 4) : (activate c shv a s).latch = s.latch := rfl
@[simp] theorem activate_response (s : State) (c : BitVec 8) (shv : Bool) (a : BitVec 4) : (activate c shv a s).response = s.response := rfl
@[simp] theorem activate_sessions (s : State) (c : BitVec 8) (shv : Bool) (a : BitVec 4) : (activate c shv a s).sessions = s.sessions := rfl
@[simp] theorem activate_periph (s : State) (c : BitVec 8) (shv : Bool) (a : BitVec 4) : (activate c shv a s).periph = s.periph := rfl
@[simp] theorem activate_commands (s : State) (c : BitVec 8) (shv : Bool) (a : BitVec 4) : (activate c shv a s).commands = s.commands := rfl
@[simp] theorem activate_responses (s : State) (c : BitVec 8) (shv : Bool) (a : BitVec 4) : (activate c shv a s).responses = s.responses := rfl
@[simp] theorem activate_flagSamples (s : State) (c : BitVec 8) (shv : Bool) (a : BitVec 4) : (activate c shv a s).flagSamples = s.flagSamples := rfl
@[simp] theorem activate_draws (s : State) (c : BitVec 8) (shv : Bool) (a : BitVec 4) : (activate c shv a s).draws = s.draws := rfl
@[simp] theorem activate_prDefined (s : State) (c : BitVec 8) (shv : Bool) (a : BitVec 4) : (activate c shv a s).prDefined = s.prDefined := rfl
@[simp] theorem activate_portLog (s : State) (c : BitVec 8) (shv : Bool) (a : BitVec 4) : (activate c shv a s).portLog = s.portLog := rfl
@[simp] theorem activate_store (s : State) (c : BitVec 8) (shv : Bool) (a : BitVec 4) :
    (activate c shv a s).store = Store.write s.store (fieldAddr s.cfg c .stat) (mkStat .active shv true a) := rfl

/-! ## appendByte -/

@[simp] theorem appendByte_cfg (s : State) (c : BitVec 8) (x : Byte) : (appendByte c x s).cfg = s.cfg := rfl
@[simp] theorem appendByte_owner (s : State) (c : BitVec 8) (x : Byte) : (appendByte c x s).owner = s.owner := rfl
@[simp] theorem appendByte_pcnt (s : State) (c : BitVec 8) (x : Byte) : (appendByte c x s).pcnt = s.pcnt := rfl
@[simp] theorem appendByte_stg (s : State) (c : BitVec 8) (x : Byte) : (appendByte c x s).stg = s.stg := rfl
@[simp] theorem appendByte_latch (s : State) (c : BitVec 8) (x : Byte) : (appendByte c x s).latch = s.latch := rfl
@[simp] theorem appendByte_response (s : State) (c : BitVec 8) (x : Byte) : (appendByte c x s).response = s.response := rfl
@[simp] theorem appendByte_sessions (s : State) (c : BitVec 8) (x : Byte) : (appendByte c x s).sessions = s.sessions := rfl
@[simp] theorem appendByte_periph (s : State) (c : BitVec 8) (x : Byte) : (appendByte c x s).periph = s.periph := rfl
@[simp] theorem appendByte_commands (s : State) (c : BitVec 8) (x : Byte) : (appendByte c x s).commands = s.commands := rfl
@[simp] theorem appendByte_responses (s : State) (c : BitVec 8) (x : Byte) : (appendByte c x s).responses = s.responses := rfl
@[simp] theorem appendByte_flagSamples (s : State) (c : BitVec 8) (x : Byte) : (appendByte c x s).flagSamples = s.flagSamples := rfl
@[simp] theorem appendByte_draws (s : State) (c : BitVec 8) (x : Byte) : (appendByte c x s).draws = s.draws := rfl
@[simp] theorem appendByte_prDefined (s : State) (c : BitVec 8) (x : Byte) : (appendByte c x s).prDefined = s.prDefined := rfl
@[simp] theorem appendByte_portLog (s : State) (c : BitVec 8) (x : Byte) : (appendByte c x s).portLog = s.portLog := rfl

/-! ## accept -/

@[simp] theorem accept_cfg (s : State) (p r : List Word) : (accept p r s).cfg = s.cfg := rfl
@[simp] theorem accept_owner (s : State) (p r : List Word) : (accept p r s).owner = s.owner := rfl
@[simp] theorem accept_pcnt (s : State) (p r : List Word) : (accept p r s).pcnt = s.pcnt := rfl
@[simp] theorem accept_stg (s : State) (p r : List Word) : (accept p r s).stg = s.stg := rfl
@[simp] theorem accept_response (s : State) (p r : List Word) : (accept p r s).response = s.response := rfl
@[simp] theorem accept_store (s : State) (p r : List Word) : (accept p r s).store = s.store := rfl
@[simp] theorem accept_sessions (s : State) (p r : List Word) : (accept p r s).sessions = s.sessions := rfl
@[simp] theorem accept_periph (s : State) (p r : List Word) : (accept p r s).periph = s.periph := rfl
@[simp] theorem accept_responses (s : State) (p r : List Word) : (accept p r s).responses = s.responses := rfl
@[simp] theorem accept_flagSamples (s : State) (p r : List Word) : (accept p r s).flagSamples = s.flagSamples := rfl
@[simp] theorem accept_draws (s : State) (p r : List Word) : (accept p r s).draws = s.draws := rfl
@[simp] theorem accept_prDefined (s : State) (p r : List Word) : (accept p r s).prDefined = s.prDefined := rfl
@[simp] theorem accept_portLog (s : State) (p r : List Word) : (accept p r s).portLog = s.portLog := rfl
@[simp] theorem accept_commands (s : State) (p r : List Word) :
    (accept p r s).commands = r := rfl
@[simp] theorem accept_latch (s : State) (p r : List Word) :
    (accept p r s).latch = some ⟨p.getD 0 0#32, lengthWords p, 0⟩ := rfl

/-! ## answered -/

@[simp] theorem answered_cfg (s : State) (h : Word) (p : List Word) : (answered h p s).cfg = s.cfg := rfl
@[simp] theorem answered_owner (s : State) (h : Word) (p : List Word) : (answered h p s).owner = s.owner := rfl
@[simp] theorem answered_pcnt (s : State) (h : Word) (p : List Word) : (answered h p s).pcnt = s.pcnt := rfl
@[simp] theorem answered_stg (s : State) (h : Word) (p : List Word) : (answered h p s).stg = s.stg := rfl
@[simp] theorem answered_store (s : State) (h : Word) (p : List Word) : (answered h p s).store = s.store := rfl
@[simp] theorem answered_sessions (s : State) (h : Word) (p : List Word) : (answered h p s).sessions = s.sessions := rfl
@[simp] theorem answered_periph (s : State) (h : Word) (p : List Word) : (answered h p s).periph = s.periph := rfl
@[simp] theorem answered_commands (s : State) (h : Word) (p : List Word) : (answered h p s).commands = s.commands := rfl
@[simp] theorem answered_flagSamples (s : State) (h : Word) (p : List Word) : (answered h p s).flagSamples = s.flagSamples := rfl
@[simp] theorem answered_draws (s : State) (h : Word) (p : List Word) : (answered h p s).draws = s.draws := rfl
@[simp] theorem answered_prDefined (s : State) (h : Word) (p : List Word) : (answered h p s).prDefined = s.prDefined := rfl
@[simp] theorem answered_portLog (s : State) (h : Word) (p : List Word) : (answered h p s).portLog = s.portLog := rfl
@[simp] theorem answered_responses (s : State) (h : Word) (p : List Word) :
    (answered h p s).responses = s.responses ++ h :: p := rfl
@[simp] theorem answered_response (s : State) (h : Word) (p : List Word) :
    (answered h p s).response = none := rfl
@[simp] theorem answered_latch (s : State) (h : Word) (p : List Word) :
    (answered h p s).latch = none := rfl

/-! ## afterFlagsRead -/

@[simp] theorem afterFlagsRead_cfg (s : State) : (afterFlagsRead s).cfg = s.cfg := by
  simp only [afterFlagsRead]; split <;> rfl
@[simp] theorem afterFlagsRead_owner (s : State) : (afterFlagsRead s).owner = s.owner := by
  simp only [afterFlagsRead]; split <;> rfl
@[simp] theorem afterFlagsRead_pcnt (s : State) : (afterFlagsRead s).pcnt = s.pcnt := by
  simp only [afterFlagsRead]; split <;> rfl
@[simp] theorem afterFlagsRead_stg (s : State) : (afterFlagsRead s).stg = s.stg := by
  simp only [afterFlagsRead]; split <;> rfl
@[simp] theorem afterFlagsRead_latch (s : State) : (afterFlagsRead s).latch = s.latch := by
  simp only [afterFlagsRead]; split <;> rfl
@[simp] theorem afterFlagsRead_response (s : State) : (afterFlagsRead s).response = s.response := by
  simp only [afterFlagsRead]; split <;> rfl
@[simp] theorem afterFlagsRead_store (s : State) : (afterFlagsRead s).store = s.store := by
  simp only [afterFlagsRead]; split <;> rfl
@[simp] theorem afterFlagsRead_sessions (s : State) : (afterFlagsRead s).sessions = s.sessions := by
  simp only [afterFlagsRead]; split <;> rfl
@[simp] theorem afterFlagsRead_periph (s : State) : (afterFlagsRead s).periph = s.periph := by
  simp only [afterFlagsRead]; split <;> rfl
@[simp] theorem afterFlagsRead_commands (s : State) : (afterFlagsRead s).commands = s.commands := by
  simp only [afterFlagsRead]; split <;> rfl
@[simp] theorem afterFlagsRead_responses (s : State) : (afterFlagsRead s).responses = s.responses := by
  simp only [afterFlagsRead]; split <;> rfl
@[simp] theorem afterFlagsRead_prDefined (s : State) : (afterFlagsRead s).prDefined = s.prDefined := by
  simp only [afterFlagsRead]; split <;> rfl

/-! ## evictOwner -/

@[simp] theorem evictOwner_cfg (s : State) : (evictOwner s).cfg = s.cfg := by
  simp only [evictOwner]; split <;> rfl
@[simp] theorem evictOwner_owner (s : State) : (evictOwner s).owner = s.owner := by
  simp only [evictOwner]; split <;> rfl
@[simp] theorem evictOwner_pcnt (s : State) : (evictOwner s).pcnt = s.pcnt := by
  simp only [evictOwner]; split <;> rfl
@[simp] theorem evictOwner_latch (s : State) : (evictOwner s).latch = s.latch := by
  simp only [evictOwner]; split <;> rfl
@[simp] theorem evictOwner_response (s : State) : (evictOwner s).response = s.response := by
  simp only [evictOwner]; split <;> rfl
@[simp] theorem evictOwner_sessions (s : State) : (evictOwner s).sessions = s.sessions := by
  simp only [evictOwner]; split <;> rfl
@[simp] theorem evictOwner_periph (s : State) : (evictOwner s).periph = s.periph := by
  simp only [evictOwner]; split <;> rfl
@[simp] theorem evictOwner_commands (s : State) : (evictOwner s).commands = s.commands := by
  simp only [evictOwner]; split <;> rfl
@[simp] theorem evictOwner_responses (s : State) : (evictOwner s).responses = s.responses := by
  simp only [evictOwner]; split <;> rfl
@[simp] theorem evictOwner_flagSamples (s : State) : (evictOwner s).flagSamples = s.flagSamples := by
  simp only [evictOwner]; split <;> rfl
@[simp] theorem evictOwner_draws (s : State) : (evictOwner s).draws = s.draws := by
  simp only [evictOwner]; split <;> rfl
@[simp] theorem evictOwner_prDefined (s : State) : (evictOwner s).prDefined = s.prDefined := by
  simp only [evictOwner]; split <;> rfl

/-! ## bringIn -/

@[simp] theorem bringIn_cfg (s : State) (c : BitVec 8) (a : BitVec 4) : (bringIn c a s).cfg = s.cfg := by
  simp only [bringIn]; split <;> rfl
@[simp] theorem bringIn_pcnt (s : State) (c : BitVec 8) (a : BitVec 4) : (bringIn c a s).pcnt = s.pcnt := by
  simp only [bringIn]; split <;> rfl
@[simp] theorem bringIn_stg (s : State) (c : BitVec 8) (a : BitVec 4) : (bringIn c a s).stg = s.stg := by
  simp only [bringIn]; split <;> rfl
@[simp] theorem bringIn_latch (s : State) (c : BitVec 8) (a : BitVec 4) : (bringIn c a s).latch = s.latch := by
  simp only [bringIn]; split <;> rfl
@[simp] theorem bringIn_response (s : State) (c : BitVec 8) (a : BitVec 4) : (bringIn c a s).response = s.response := by
  simp only [bringIn]; split <;> rfl
@[simp] theorem bringIn_store (s : State) (c : BitVec 8) (a : BitVec 4) : (bringIn c a s).store = s.store := by
  simp only [bringIn]; split <;> rfl
@[simp] theorem bringIn_sessions (s : State) (c : BitVec 8) (a : BitVec 4) : (bringIn c a s).sessions = s.sessions := by
  simp only [bringIn]; split <;> rfl
@[simp] theorem bringIn_commands (s : State) (c : BitVec 8) (a : BitVec 4) : (bringIn c a s).commands = s.commands := by
  simp only [bringIn]; split <;> rfl
@[simp] theorem bringIn_responses (s : State) (c : BitVec 8) (a : BitVec 4) : (bringIn c a s).responses = s.responses := by
  simp only [bringIn]; split <;> rfl
@[simp] theorem bringIn_flagSamples (s : State) (c : BitVec 8) (a : BitVec 4) : (bringIn c a s).flagSamples = s.flagSamples := by
  simp only [bringIn]; split <;> rfl
@[simp] theorem bringIn_draws (s : State) (c : BitVec 8) (a : BitVec 4) : (bringIn c a s).draws = s.draws := by
  simp only [bringIn]; split <;> rfl

/-! ## initSlot -/

@[simp] theorem initSlot_cfg (s : State) (c : BitVec 8) : (initSlot c s).cfg = s.cfg := by
  simp only [initSlot]; split <;> rfl
@[simp] theorem initSlot_pcnt (s : State) (c : BitVec 8) : (initSlot c s).pcnt = s.pcnt := by
  simp only [initSlot]; split <;> rfl
@[simp] theorem initSlot_stg (s : State) (c : BitVec 8) : (initSlot c s).stg = s.stg := by
  simp only [initSlot]; split <;> rfl
@[simp] theorem initSlot_latch (s : State) (c : BitVec 8) : (initSlot c s).latch = s.latch := by
  simp only [initSlot]; split <;> rfl
@[simp] theorem initSlot_response (s : State) (c : BitVec 8) : (initSlot c s).response = s.response := by
  simp only [initSlot]; split <;> rfl
@[simp] theorem initSlot_sessions (s : State) (c : BitVec 8) : (initSlot c s).sessions = s.sessions := by
  simp only [initSlot]; split <;> rfl
@[simp] theorem initSlot_commands (s : State) (c : BitVec 8) : (initSlot c s).commands = s.commands := by
  simp only [initSlot]; split <;> rfl
@[simp] theorem initSlot_responses (s : State) (c : BitVec 8) : (initSlot c s).responses = s.responses := by
  simp only [initSlot]; split <;> rfl
@[simp] theorem initSlot_flagSamples (s : State) (c : BitVec 8) : (initSlot c s).flagSamples = s.flagSamples := by
  simp only [initSlot]; split <;> rfl
@[simp] theorem initSlot_portLog (s : State) (c : BitVec 8) : (initSlot c s).portLog = s.portLog := by
  simp only [initSlot]; split <;> rfl

@[simp] theorem bringIn_owner (s : State) (c : BitVec 8) (a : BitVec 4) : (bringIn c a s).owner = some c := rfl

@[simp] theorem bringIn_prDefined (s : State) (c : BitVec 8) (a : BitVec 4) : (bringIn c a s).prDefined = true := by
  simp only [bringIn]; split <;> rfl

@[simp] theorem initSlot_store (s : State) (c : BitVec 8) :
    (initSlot c s).store = Store.writeAll s.store (slotAddr s.cfg c) (List.replicate s.cfg.slotWords 0#32) := by
  simp only [initSlot]; split <;> rfl

theorem respond_eq_answered (h : Word) (p : List Word) (s : State) : respond h p s = answered h p s := rfl

theorem returnOk_eq_answered (o : BitVec 4) (c : BitVec 8) (s : State) :
    returnOk o c s = answered (responseHeader o .ok c 0#8) [] s := rfl

theorem raise_eq_answered (o : BitVec 4) (c : BitVec 8) (st : Status) (s : State) :
    raise o c st s = answered (responseHeader o st c 0#8) [] s := rfl

end Sys2Proof.Machine
end

