-- ==== Sys2Proof/Laws/Store.lean ====
section
/-! SUPPORT. What the two accesses of the context store do, and that they keep its canonical form. `find` says what is
listed and so determines the store (`Store.ext_of_find`); `read` is `find` with free values in the gaps. -/

namespace Sys2Proof.Machine

@[simp] theorem Store.find_nil (a : Nat) : Store.find [] a = none := rfl

theorem Store.find_cons (k : Nat) (v : Word) (m : Store) (a : Nat) :
    Store.find ((k, v) :: m) a = if k = a then some v else Store.find m a := rfl

theorem Store.read_eq (m : Store) (a : Nat) : Store.read m a = (Store.find m a).getD (Store.unlisted a) := rfl

@[simp] theorem Store.read_nil (a : Nat) : Store.read [] a = Store.unlisted a := rfl

theorem Store.read_of_find {m : Store} {a : Nat} {v : Word} (h : Store.find m a = some v) : Store.read m a = v := by
  rw [Store.read_eq, h, Option.getD_some]

theorem Store.find_of_forall_ne {m : Store} {a : Nat} (h : ∀ x ∈ m, x.1 ≠ a) : Store.find m a = none := by
  induction m with
  | nil => rfl
  | cons x m ih =>
    obtain ⟨k, v⟩ := x
    have hk : k ≠ a := h (k, v) (by simp)
    rw [Store.find_cons, if_neg hk]
    exact ih fun x hx => h x (by simp [hx])

theorem Store.wf_cons {x : Nat × Word} {m : Store} (h : Store.wf (x :: m)) : Store.wf m ∧ ∀ y ∈ m, x.1 < y.1 :=
  (List.pairwise_cons.1 h).symm

/-- What one write leaves listed. -/
theorem Store.find_write {m : Store} (h : Store.wf m) (a : Nat) (v : Word) (b : Nat) :
    Store.find (Store.write m a v) b = if b = a then some v else Store.find m b := by
  induction m with
  | nil => simp [Store.write, Store.find_cons, eq_comm]
  | cons x m ih =>
    obtain ⟨k, w⟩ := x
    simp only [Store.write]
    split
    · simp [Store.find_cons, eq_comm]
    · split
      · rename_i hak
        subst hak
        by_cases hb : b = a
        · simp [hb, Store.find_cons]
        · simp [hb, Store.find_cons, Ne.symm hb]
      · rename_i h1 h2
        rw [Store.find_cons, ih (Store.wf_cons h).1]
        by_cases hkb : k = b
        · have : b ≠ a := by omega
          simp [hkb, this, Store.find_cons]
        · simp [hkb, Store.find_cons]

/-- What one write does to every read, in a store in canonical form. -/
theorem Store.read_write {m : Store} (h : Store.wf m) (a : Nat) (v : Word) (b : Nat) :
    Store.read (Store.write m a v) b = if b = a then v else Store.read m b := by
  rw [Store.read_eq, Store.find_write h a v b]
  split <;> rfl

@[simp] theorem Store.read_write_same {m : Store} (h : Store.wf m) (a : Nat) (v : Word) :
    Store.read (Store.write m a v) a = v := by simp [Store.read_write h]

theorem Store.read_write_other {m : Store} (h : Store.wf m) {a b : Nat} (hb : b ≠ a) (v : Word) :
    Store.read (Store.write m a v) b = Store.read m b := by simp [Store.read_write h, hb]

/-- Every listed address after a write is the written one or was listed before. -/
theorem Store.mem_write {m : Store} {a : Nat} {v : Word} {x : Nat × Word} (h : x ∈ Store.write m a v) :
    x = (a, v) ∨ x ∈ m := by
  induction m with
  | nil => simpa [Store.write] using h
  | cons y m ih =>
    obtain ⟨k, w⟩ := y
    simp only [Store.write] at h
    split at h
    · simpa using h
    · split at h
      · rcases List.mem_cons.1 h with h | h <;> simp [h]
      · rcases List.mem_cons.1 h with rfl | h
        · simp
        · rcases ih h with h | h <;> simp [h]

/-- A write keeps the canonical form. -/
theorem Store.write_wf {m : Store} (h : Store.wf m) (a : Nat) (v : Word) : Store.wf (Store.write m a v) := by
  induction m with
  | nil => simp [Store.write]
  | cons x m ih =>
    obtain ⟨k, w⟩ := x
    obtain ⟨hm, hlt⟩ := Store.wf_cons h
    simp only at hlt
    simp only [Store.write]
    split
    · rename_i hak
      refine List.pairwise_cons.2 ⟨fun y hy => ?_, h⟩
      rcases List.mem_cons.1 hy with rfl | hy
      · exact hak
      · exact lt_trans hak (hlt y hy)
    · split
      · rename_i hak
        subst hak
        exact List.pairwise_cons.2 ⟨hlt, hm⟩
      · rename_i h1 h2
        refine List.pairwise_cons.2 ⟨fun y hy => ?_, ih hm⟩
        rcases Store.mem_write hy with rfl | hy
        · simp only
          omega
        · exact hlt y hy

theorem Store.writeAll_wf {m : Store} (h : Store.wf m) (a : Nat) (ws : List Word) : Store.wf (Store.writeAll m a ws) := by
  induction ws generalizing m a with
  | nil => exact h
  | cons w ws ih => exact ih (Store.write_wf h a w) (a + 1)

/-- What writing a run of words leaves listed. -/
theorem Store.find_writeAll {m : Store} (h : Store.wf m) (a : Nat) (ws : List Word) (b : Nat) :
    Store.find (Store.writeAll m a ws) b =
      if a ≤ b ∧ b < a + ws.length then some (ws.getD (b - a) 0#32) else Store.find m b := by
  induction ws generalizing m a with
  | nil =>
    have : ¬ (a ≤ b ∧ b < a + 0) := by omega
    simp [Store.writeAll]
  | cons w ws ih =>
    simp only [Store.writeAll]
    rw [ih (Store.write_wf h a w), Store.find_write h a w b]
    simp only [List.length_cons]
    by_cases hb : b = a
    · subst hb
      simp
    · by_cases h1 : a + 1 ≤ b ∧ b < a + 1 + ws.length
      · have h2 : a ≤ b ∧ b < a + (ws.length + 1) := by omega
        have h3 : b - a = (b - (a + 1)) + 1 := by omega
        rw [if_pos h1, if_pos h2, h3, List.getD_cons_succ]
      · have h2 : ¬ (a ≤ b ∧ b < a + (ws.length + 1)) := by omega
        rw [if_neg h1, if_neg h2, if_neg hb]

/-- What writing a run of words does to every read. -/
theorem Store.read_writeAll {m : Store} (h : Store.wf m) (a : Nat) (ws : List Word) (b : Nat) :
    Store.read (Store.writeAll m a ws) b =
      if a ≤ b ∧ b < a + ws.length then ws.getD (b - a) 0#32 else Store.read m b := by
  rw [Store.read_eq, Store.find_writeAll h]
  split <;> rfl

theorem Store.mem_writeAll {m : Store} {a : Nat} {ws : List Word} {x : Nat × Word} (h : x ∈ Store.writeAll m a ws) :
    (a ≤ x.1 ∧ x.1 < a + ws.length) ∨ x ∈ m := by
  induction ws generalizing m a with
  | nil => exact .inr h
  | cons w ws ih =>
    rcases ih h with h | h
    · left
      simp only [List.length_cons]
      omega
    · rcases Store.mem_write h with rfl | h
      · left
        simp
      · exact .inr h

/-- Two stores in canonical form that list the same words are equal. -/
theorem Store.ext_of_find {m n : Store} (hm : Store.wf m) (hn : Store.wf n)
    (h : ∀ a, Store.find m a = Store.find n a) : m = n := by
  induction m generalizing n with
  | nil =>
    cases n with
    | nil => rfl
    | cons y n =>
      obtain ⟨k, v⟩ := y
      simpa [Store.find_cons] using h k
  | cons x m ih =>
    obtain ⟨k, v⟩ := x
    obtain ⟨hm', hmlt⟩ := Store.wf_cons hm
    cases n with
    | nil => simpa [Store.find_cons] using h k
    | cons y n =>
      obtain ⟨j, w⟩ := y
      obtain ⟨hn', hnlt⟩ := Store.wf_cons hn
      simp only at hmlt hnlt
      have hkj : k = j := by
        rcases lt_trichotomy k j with hlt | heq | hlt
        · have h1 := h k
          rw [Store.find_cons, Store.find_cons, if_pos rfl, if_neg (by omega),
            Store.find_of_forall_ne (m := n) (fun x hx => by have := hnlt x hx; omega)] at h1
          cases h1
        · exact heq
        · have h1 := h j
          rw [Store.find_cons, Store.find_cons, if_pos rfl, if_neg (by omega),
            Store.find_of_forall_ne (m := m) (fun x hx => by have := hmlt x hx; omega)] at h1
          cases h1
      subst hkj
      have hvw : v = w := by simpa [Store.find_cons] using h k
      subst hvw
      congr 1
      apply ih hm' hn'
      intro a
      by_cases ha : k = a
      · subst ha
        rw [Store.find_of_forall_ne (m := m) (fun x hx => by have := hmlt x hx; omega),
          Store.find_of_forall_ne (m := n) (fun x hx => by have := hnlt x hx; omega)]
      · simpa [Store.find_cons, ha] using h a

/-- Writing the word an address already lists changes nothing. -/
theorem Store.write_listed {m : Store} (h : Store.wf m) {a : Nat} {v : Word} (hv : Store.find m a = some v) :
    Store.write m a v = m := by
  refine Store.ext_of_find (Store.write_wf h a v) h fun b => ?_
  rw [Store.find_write h a v b]
  split
  · rename_i hb
    rw [hb, hv]
  · rfl

/-- The second of two writes at one address is the one that counts. -/
theorem Store.write_write {m : Store} (h : Store.wf m) (a : Nat) (v w : Word) :
    Store.write (Store.write m a v) a w = Store.write m a w := by
  refine Store.ext_of_find (Store.write_wf (Store.write_wf h _ _) _ _) (Store.write_wf h _ _) fun b => ?_
  rw [Store.find_write (Store.write_wf h _ _), Store.find_write h a v b, Store.find_write h a w b]
  split <;> rfl

/-- Writing the same run of words twice is writing it once. -/
theorem Store.writeAll_twice {m : Store} (h : Store.wf m) (a : Nat) (ws : List Word) :
    Store.writeAll (Store.writeAll m a ws) a ws = Store.writeAll m a ws := by
  have hw := Store.writeAll_wf h a ws
  refine Store.ext_of_find (Store.writeAll_wf hw a ws) hw fun b => ?_
  rw [Store.find_writeAll hw, Store.find_writeAll h]
  split <;> rfl

/-- Writes at different addresses commute. -/
theorem Store.write_comm {m : Store} (h : Store.wf m) {a b : Nat} (hab : a ≠ b) (v w : Word) :
    Store.write (Store.write m a v) b w = Store.write (Store.write m b w) a v := by
  apply Store.ext_of_find (Store.write_wf (Store.write_wf h _ _) _ _) (Store.write_wf (Store.write_wf h _ _) _ _)
  intro c
  rw [Store.find_write (Store.write_wf h _ _), Store.find_write h,
    Store.find_write (Store.write_wf h _ _), Store.find_write h]
  by_cases h1 : c = a
  · subst h1
    simp [hab]
  · simp [h1]

@[simp] theorem Store.readAll_length (m : Store) (a n : Nat) : (Store.readAll m a n).length = n := by
  simp [Store.readAll]

theorem Store.readAll_getD (m : Store) (a n k : Nat) (hk : k < n) :
    (Store.readAll m a n).getD k 0#32 = Store.read m (a + k) := by
  simp [Store.readAll, List.getD_eq_getElem?_getD, hk]

/-- Reading a run of words back after writing it. -/
theorem Store.readAll_writeAll {m : Store} (h : Store.wf m) (a : Nat) (ws : List Word) :
    Store.readAll (Store.writeAll m a ws) a ws.length = ws := by
  apply List.ext_getElem
  · simp
  · intro k h1 h2
    have hk : k < ws.length := h2
    simp [Store.readAll, Store.read_writeAll h, List.getD_eq_getElem?_getD, hk]

end Sys2Proof.Machine
end

