-- ==== Sys2Proof/Laws/Slots.lean ====
section
/-! SUPPORT. Slot addresses do not overlap; what a slot access reads after a slot update. -/

namespace Sys2Proof.Machine

/-! ## Sizes -/

theorem accWords_pos (c : Config) : 3 ≤ c.accWords := by unfold Config.accWords; split <;> omega

theorem slotWords_eq (c : Config) : c.slotWords = c.accWords + 7 := rfl

theorem contextWords_eq (c : Config) : c.contextWords = c.accWords + 3 := rfl

theorem slotWords_pos (c : Config) : 0 < c.slotWords := by rw [slotWords_eq]; omega

theorem resultWords_eq (c : Config) : 4 * c.resultWords = c.maxDigest := by
  unfold Config.resultWords Config.maxDigest; split <;> rfl

/-! ## Addresses -/

/-- A field that a slot has: ACC[i] only for i below N (20_memory R72). -/
def Field.valid (c : Config) : Field → Prop
  | .acc i => i < c.accWords
  | _ => True

theorem offset_lt {c : Config} {f : Field} (h : f.valid c) : f.offset c < c.slotWords := by
  have := accWords_pos c
  cases f <;> simp only [Field.offset, Field.valid, slotWords_eq] at * <;> omega

/-- Different fields of a slot stand at different offsets (20_memory R72). -/
theorem offset_inj {c : Config} {f g : Field} (hf : f.valid c) (hg : g.valid c) (h : f.offset c = g.offset c) : f = g := by
  have := accWords_pos c
  cases f <;> cases g <;> simp only [Field.offset, Field.valid, reduceCtorEq, Field.acc.injEq] at * <;> omega

theorem slotAddr_add_lt {c : Config} {x y : BitVec 8} (hxy : x.toNat < y.toNat) :
    slotAddr c x + c.slotWords ≤ slotAddr c y := by
  have h : x.toNat + 1 ≤ y.toNat := hxy
  have := Nat.mul_le_mul_right c.slotWords h
  unfold slotAddr
  linarith

/-- Two slots share no word. -/
theorem slot_disjoint {c : Config} {x y : BitVec 8} (hxy : x ≠ y) {j k : Nat} (hj : j < c.slotWords)
    (hk : k < c.slotWords) : slotAddr c x + j ≠ slotAddr c y + k := by
  have hne : x.toNat ≠ y.toNat := fun h => hxy (BitVec.eq_of_toNat_eq h)
  rcases Nat.lt_or_gt_of_ne hne with h | h
  · have := slotAddr_add_lt (c := c) h
    omega
  · have := slotAddr_add_lt (c := c) h
    omega

theorem slot_end_le {c : Config} {x : BitVec 8} (hx : slotExists c x = true) :
    slotAddr c x + c.slotWords ≤ c.storeWords := by
  have h : x.toNat + 1 ≤ c.nctx := by simpa [slotExists] using hx
  have := Nat.mul_le_mul_right c.slotWords h
  unfold slotAddr Config.storeWords
  linarith

/-- Two fields of slots have the same address only if they are the same field of the same slot. -/
theorem fieldAddr_inj {c : Config} {x y : BitVec 8} {f g : Field} (hf : f.valid c) (hg : g.valid c)
    (h : fieldAddr c x f = fieldAddr c y g) : x = y ∧ f = g := by
  by_cases hxy : x = y
  · subst hxy
    exact ⟨rfl, offset_inj hf hg (by unfold fieldAddr at h; omega)⟩
  · exact absurd h (slot_disjoint hxy (offset_lt hf) (offset_lt hg))

/-! ## Slot reads after slot updates -/

theorem slotGet_congr {s t : State} (hs : t.store = s.store) (hc : t.cfg = s.cfg) (c : BitVec 8) (f : Field) :
    t.slotGet c f = s.slotGet c f := by unfold State.slotGet; rw [hs, hc]

theorem shadow_congr {s t : State} (hs : t.store = s.store) (hc : t.cfg = s.cfg) (c : BitVec 8) :
    t.shadow c = s.shadow c := by unfold State.shadow; rw [hs, hc]

/-- A write of one field of a slot, seen from any field of any slot. -/
theorem slotGet_slotPut {s : State} (h : Store.wf s.store) {x y : BitVec 8} {f g : Field} (hf : f.valid s.cfg)
    (hg : g.valid s.cfg) (v : Word) :
    (s.slotPut x f v).slotGet y g = if y = x ∧ g = f then v else s.slotGet y g := by
  unfold State.slotGet
  rw [slotPut_store, slotPut_cfg, Store.read_write h]
  by_cases hyx : y = x ∧ g = f
  · rw [if_pos (by rw [hyx.1, hyx.2]), if_pos hyx]
  · rw [if_neg (fun e => hyx (fieldAddr_inj hg hf e)), if_neg hyx]

theorem slotPut_wf {s : State} (h : Store.wf s.store) (c : BitVec 8) (f : Field) (v : Word) :
    Store.wf (s.slotPut c f v).store := Store.write_wf h _ _

theorem slotFill_wf {s : State} (h : Store.wf s.store) (c : BitVec 8) (ws : List Word) :
    Store.wf (s.slotFill c ws).store := Store.writeAll_wf h _ _

/-- Filling slot `x` leaves every word of another slot. -/
theorem read_slotFill_other {s : State} (h : Store.wf s.store) {x y : BitVec 8} (hyx : y ≠ x) {ws : List Word}
    (hw : ws.length ≤ s.cfg.slotWords) {k : Nat} (hk : k < s.cfg.slotWords) :
    Store.read (s.slotFill x ws).store (slotAddr s.cfg y + k) = Store.read s.store (slotAddr s.cfg y + k) := by
  rw [slotFill_store, Store.read_writeAll h, if_neg]
  intro hb
  have := slot_disjoint (c := s.cfg) hyx hk (k := slotAddr s.cfg y + k - slotAddr s.cfg x) (by omega)
  omega

/-- Filling slot `x`, seen from a word of slot `x`. -/
theorem read_slotFill_same {s : State} (h : Store.wf s.store) (x : BitVec 8) (ws : List Word) (k : Nat) :
    Store.read (s.slotFill x ws).store (slotAddr s.cfg x + k) =
      if k < ws.length then ws.getD k 0#32 else Store.read s.store (slotAddr s.cfg x + k) := by
  rw [slotFill_store, Store.read_writeAll h]
  by_cases hk : k < ws.length
  · rw [if_pos (by omega), if_pos hk, Nat.add_sub_cancel_left]
  · rw [if_neg (by omega), if_neg hk]

/-- A word of slot `y` after one field of slot `x` is written. -/
theorem read_slotPut {s : State} (h : Store.wf s.store) {x y : BitVec 8} {f : Field} (hf : f.valid s.cfg) (v : Word)
    {k : Nat} (hk : k < s.cfg.slotWords) :
    Store.read (s.slotPut x f v).store (slotAddr s.cfg y + k) =
      if y = x ∧ k = f.offset s.cfg then v else Store.read s.store (slotAddr s.cfg y + k) := by
  rw [slotPut_store, Store.read_write h]
  by_cases hyx : y = x
  · subst hyx
    unfold fieldAddr
    by_cases hko : k = f.offset s.cfg
    · rw [if_pos (by omega), if_pos ⟨rfl, hko⟩]
    · rw [if_neg (by omega), if_neg (fun e => hko e.2)]
  · have hne : slotAddr s.cfg y + k ≠ fieldAddr s.cfg x f := slot_disjoint hyx hk (offset_lt hf)
    rw [if_neg hne, if_neg (fun e => hyx e.1)]

/-! ## PR and its words -/

@[simp] theorem words_length (c : Config) (p : PR) : (p.words c).length = c.contextWords := by
  simp [PR.words, Config.contextWords]

/-- Reading back the words of a PR of the right size. -/
theorem ofWords_words {c : Config} {p : PR} (h : p.acc.length = c.accWords) : PR.ofWords (p.words c) = p := by
  obtain ⟨i, r, k, acc⟩ := p
  simp only at h
  simp only [PR.ofWords, PR.words, List.getD_eq_getElem?_getD]
  simp only [List.cons_append, List.nil_append, List.getElem?_cons_zero, List.getElem?_cons_succ, Option.getD_some,
    List.drop_succ_cons, List.drop_zero, PR.mk.injEq, true_and]
  apply List.ext_getElem
  · simp [h]
  · intro n h1 h2
    simp [List.getElem?_eq_getElem h2]

theorem ofWords_acc_length {c : Config} {ws : List Word} (h : ws.length = c.contextWords) :
    (PR.ofWords ws).acc.length = c.accWords := by
  simp [PR.ofWords, h, contextWords_eq]

/-- The words of a PR made from N + 3 words. -/
theorem words_ofWords {c : Config} {ws : List Word} (h : ws.length = c.contextWords) : (PR.ofWords ws).words c = ws := by
  have h3 : ws.length = c.accWords + 3 := by rw [h, contextWords_eq]
  match ws, h3 with
  | a :: b :: d :: acc, h3 =>
    have hacc : acc.length = c.accWords := by simpa using h3
    simp only [PR.ofWords, PR.words, List.getD_eq_getElem?_getD]
    simp only [List.getElem?_cons_zero, List.getElem?_cons_succ, Option.getD_some, List.drop_succ_cons, List.drop_zero,
      List.cons_append, List.nil_append, List.cons.injEq, true_and]
    apply List.ext_getElem
    · simp [hacc]
    · intro n h1 h2
      simp [List.getElem?_eq_getElem h2]

@[simp] theorem shadow_acc_length (s : State) (c : BitVec 8) : (s.shadow c).acc.length = s.cfg.accWords :=
  ofWords_acc_length (by simp)

@[simp] theorem freeWords_length (s : State) (n : Nat) : (s.freeWords n).length = n := by simp [State.freeWords]

/-- The shadow is a function of the slot's first N + 3 words. -/
theorem shadow_eq_of_read {s t : State} {c : BitVec 8} (hc : t.cfg = s.cfg)
    (h : ∀ k < s.cfg.contextWords, Store.read t.store (slotAddr s.cfg c + k) = Store.read s.store (slotAddr s.cfg c + k)) :
    t.shadow c = s.shadow c := by
  unfold State.shadow Store.readAll
  rw [hc]
  congr 1
  apply List.map_congr_left
  intro k hk
  exact h k (by simpa using hk)

/-- The shadow after N + 3 words are written to the slot. -/
theorem shadow_slotFill {s : State} (h : Store.wf s.store) (c : BitVec 8) {ws : List Word}
    (hw : ws.length = s.cfg.contextWords) : (s.slotFill c ws).shadow c = PR.ofWords ws := by
  unfold State.shadow
  rw [slotFill_cfg, slotFill_store, ← hw, Store.readAll_writeAll h]

theorem periphStart_acc_length (c : Config) (a : BitVec 4) : (periphStart c a).acc.length = c.accWords := by
  unfold periphStart
  cases c.transform
  · exact ofWords_acc_length (by simp)
  · simp

theorem periphAbsorb_acc_length (c : Config) (p : PR) (w : Word) : (periphAbsorb c p w).acc.length = c.accWords := by
  unfold periphAbsorb
  cases c.transform
  · exact ofWords_acc_length (by simp)
  · simp [contextWords_eq]

theorem periphFinal_length (c : Config) (p : PR) (v : Word) : (periphFinal c p v).length = c.resultWords := by
  unfold periphFinal
  cases c.transform
  · simp
  · have : 5 ≤ c.resultWords := by unfold Config.resultWords Config.maxDigest; split <;> omega
    simp
    omega

end Sys2Proof.Machine
end

