-- ==== Sys2Proof/Laws/Poll.lean ====
section
/-! SUPPORT. What a poll can do (42_arbiter_swap R184): it samples P.FLAGS and counts, and touches nothing else. -/

namespace Sys2Proof.Machine

theorem onlyPolled_refl (s : State) : onlyPolled s s := rfl

theorem onlyPolled_trans {s t u : State} (h1 : onlyPolled s t) (h2 : onlyPolled t u) : onlyPolled s u := by
  unfold onlyPolled at *
  rw [h2, h1]

theorem onlyPolled_cfg {s t : State} (h : onlyPolled s t) : t.cfg = s.cfg := by rw [h]

theorem onlyPolled_owner {s t : State} (h : onlyPolled s t) : t.owner = s.owner := by rw [h]

theorem onlyPolled_stg {s t : State} (h : onlyPolled s t) : t.stg = s.stg := by rw [h]

theorem onlyPolled_latch {s t : State} (h : onlyPolled s t) : t.latch = s.latch := by rw [h]

theorem onlyPolled_response {s t : State} (h : onlyPolled s t) : t.response = s.response := by rw [h]

theorem onlyPolled_store {s t : State} (h : onlyPolled s t) : t.store = s.store := by rw [h]

theorem onlyPolled_sessions {s t : State} (h : onlyPolled s t) : t.sessions = s.sessions := by rw [h]

theorem onlyPolled_periph {s t : State} (h : onlyPolled s t) : t.periph = s.periph := by rw [h]

theorem onlyPolled_commands {s t : State} (h : onlyPolled s t) : t.commands = s.commands := by rw [h]

theorem onlyPolled_responses {s t : State} (h : onlyPolled s t) : t.responses = s.responses := by rw [h]

theorem onlyPolled_prDefined {s t : State} (h : onlyPolled s t) : t.prDefined = s.prDefined := by rw [h]

theorem onlyPolled_slotGet {s t : State} (h : onlyPolled s t) (c : BitVec 8) (f : Field) : t.slotGet c f = s.slotGet c f :=
  slotGet_congr (onlyPolled_store h) (onlyPolled_cfg h) c f

theorem onlyPolled_shadow {s t : State} (h : onlyPolled s t) (c : BitVec 8) : t.shadow c = s.shadow c :=
  shadow_congr (onlyPolled_store h) (onlyPolled_cfg h) c

theorem onlyPolled_read (s : State) (n : Word) : onlyPolled s { afterFlagsRead s with pcnt := n } := by
  unfold onlyPolled afterFlagsRead
  split <;> rfl

theorem pollLoop_onlyPolled (f : Flag) (k : Nat) (s : State) : onlyPolled s (pollLoop f k s).state := by
  induction k generalizing s with
  | zero => exact onlyPolled_refl s
  | succ k ih =>
    simp only [pollLoop]
    split
    · exact onlyPolled_read s _
    · exact onlyPolled_trans (onlyPolled_read s _) (ih _)

/-- A poll touches PCNT, the samples and the port log only. -/
theorem pollReady_onlyPolled (f : Flag) (s : State) : onlyPolled s (pollReady f s).state := by
  have h0 : onlyPolled s { s with pcnt := 0#32 } := rfl
  exact onlyPolled_trans h0 (pollLoop_onlyPolled f _ _)

theorem pollReady_ok {f : Flag} {s t : State} (h : pollReady f s = .ok t) : onlyPolled s t := by
  have := pollReady_onlyPolled f s
  rwa [h] at this

theorem pollReady_timeout {f : Flag} {s t : State} (h : pollReady f s = .timeout t) : onlyPolled s t := by
  have := pollReady_onlyPolled f s
  rwa [h] at this

/-- A budget of 0 times out at once, with no read (R184). -/
theorem pollReady_zero {f : Flag} {s : State} (h : s.cfg.budget = 0) : pollReady f s = .timeout { s with pcnt := 0#32 } := by
  simp [pollReady, h, pollLoop]

end Sys2Proof.Machine
end

