-- ==== Sys2Proof/Laws/Responsive.lean ====
section
/-! SUPPORT. A poll of a responsive peripheral ends OK, and the peripheral is still responsive for the polls that follow
(10_state R54; 42_arbiter_swap R184). -/

namespace Sys2Proof.Machine

theorem flagsAhead_congr {s t : State} (hf : t.flagSamples = s.flagSamples) (hd : t.draws = s.draws) (k : Nat) :
    flagsAhead t k = flagsAhead s k := by
  unfold flagsAhead
  rw [hf, hd]

@[simp] theorem flagsAhead_zero (s : State) : flagsAhead s 0 = flagsValue s := by
  unfold flagsAhead flagsValue
  cases s.flagSamples <;> simp

/-- One read of P.FLAGS takes the first of the values ahead. -/
@[simp] theorem flagsAhead_afterFlagsRead (s : State) (k : Nat) : flagsAhead (afterFlagsRead s) k = flagsAhead s (k + 1) := by
  unfold flagsAhead afterFlagsRead
  cases h : s.flagSamples with
  | nil => simp [Nat.add_comm k 1, Nat.add_assoc]
  | cons v vs => simp

/-- Answered polls are so in another state that has the same values ahead, from another place on. -/
theorem pollsAnswered_shift {s t : State} {d : Nat} (hc : t.cfg = s.cfg)
    (h : ∀ k, flagsAhead t k = flagsAhead s (d + k)) (fs : List Flag) (j : Nat) :
    pollsAnswered t fs j ↔ pollsAnswered s fs (d + j) := by
  induction fs generalizing j with
  | nil => rfl
  | cons f fs ih =>
    simp only [pollsAnswered, hc, h, ih, Nat.add_assoc]

theorem responsive_congr {fs : List Flag} {s t : State} (hc : t.cfg = s.cfg) (hf : t.flagSamples = s.flagSamples)
    (hd : t.draws = s.draws) (h : responsive fs s) : responsive fs t :=
  (pollsAnswered_shift (d := 0) hc (fun k => by rw [flagsAhead_congr hf hd, Nat.zero_add]) fs 0).2 h

/-- The loop of a poll ends OK after the first sample that has the flag set, if the budget reaches it. -/
theorem pollLoop_of_sample {f : Flag} {k i : Nat} {s : State} (hi : i < k) (h1 : f.isSet (flagsAhead s i) = true)
    (h0 : ∀ m < i, f.isSet (flagsAhead s m) = false) :
    ∃ t, pollLoop f k s = .ok t ∧ t.cfg = s.cfg ∧ ∀ m, flagsAhead t m = flagsAhead s (i + 1 + m) := by
  induction k generalizing s i with
  | zero => omega
  | succ k ih =>
    have hread : ∀ m, flagsAhead { afterFlagsRead s with pcnt := s.pcnt + 1#32 } m = flagsAhead s (m + 1) := fun m =>
      (flagsAhead_congr (s := afterFlagsRead s) rfl rfl m).trans (flagsAhead_afterFlagsRead s m)
    have hcfg : (afterFlagsRead s).cfg = s.cfg := by unfold afterFlagsRead; split <;> rfl
    simp only [pollLoop]
    cases i with
    | zero =>
      rw [if_pos (by simpa using h1)]
      exact ⟨_, rfl, hcfg, fun m => by rw [hread, Nat.zero_add, Nat.add_comm]⟩
    | succ i =>
      rw [if_neg (by simpa using h0 0 (by omega))]
      obtain ⟨t, e1, e2, e3⟩ := ih (i := i) (s := { afterFlagsRead s with pcnt := s.pcnt + 1#32 }) (by omega)
        (by rw [hread]; exact h1) (fun m hm => by rw [hread]; exact h0 (m + 1) (by omega))
      exact ⟨t, e1, e2.trans hcfg, fun m => by rw [e3, hread]; congr 1; omega⟩

/-- One poll of a responsive peripheral. -/
theorem responsive_poll {f : Flag} {fs : List Flag} {s : State} (h : responsive (f :: fs) s) :
    ∃ t, pollReady f s = .ok t ∧ onlyPolled s t ∧ responsive fs t := by
  obtain ⟨i, hi, h1, h0, hrest⟩ := h
  have hp : ∀ m, flagsAhead { s with pcnt := 0#32 } m = flagsAhead s m := flagsAhead_congr rfl rfl
  obtain ⟨t, ht, hcfg, hsh⟩ := pollLoop_of_sample (f := f) (s := { s with pcnt := 0#32 }) hi
    (by simpa [hp] using h1) (fun m hm => by simpa [hp] using h0 m hm)
  refine ⟨t, ht, pollReady_ok ht, ?_⟩
  exact (pollsAnswered_shift (s := s) (d := i + 1) hcfg (fun k => by rw [hsh, hp]) fs 0).2 (by simpa using hrest)

end Sys2Proof.Machine
end

