-- ==== Sys2Proof/Laws/Touch.lean ====
section
/-! SUPPORT. Which slot an operation writes, and that it keeps the sizes of the register lists. `Touches c s t` says once
all that a command's frame needs of the store: only slot `c` is written, and the store stays canonical and in bounds. -/

namespace Sys2Proof.Machine

/-- From `s` to `t` the store is written in slot `c` only. -/
structure Touches (c : BitVec 8) (s t : State) : Prop where
  cfg : t.cfg = s.cfg
  wf : Store.wf s.store → Store.wf t.store
  outside : Store.wf s.store →
    ∀ a, (a < slotAddr s.cfg c ∨ slotAddr s.cfg c + s.cfg.slotWords ≤ a) → Store.read t.store a = Store.read s.store a
  bound : slotExists s.cfg c = true → (∀ x ∈ s.store, x.1 < s.cfg.storeWords) → ∀ x ∈ t.store, x.1 < s.cfg.storeWords

theorem touches_of_same {c : BitVec 8} {s t : State} (hs : t.store = s.store) (hc : t.cfg = s.cfg) : Touches c s t := by
  refine ⟨hc, fun h => by rwa [hs], fun _ a _ => by rw [hs], fun _ hb => by rwa [hs]⟩

theorem touches_refl (c : BitVec 8) (s : State) : Touches c s s := touches_of_same rfl rfl

theorem touches_trans {c : BitVec 8} {s t u : State} (h1 : Touches c s t) (h2 : Touches c t u) : Touches c s u := by
  refine ⟨h2.cfg.trans h1.cfg, fun h => h2.wf (h1.wf h), fun h a ha => ?_, fun hx hb => ?_⟩
  · rw [h2.outside (h1.wf h) a (by rw [h1.cfg]; exact ha), h1.outside h a ha]
  · have := h2.bound (by rw [h1.cfg]; exact hx) (by rw [h1.cfg]; exact h1.bound hx hb)
    rwa [h1.cfg] at this

theorem onlyPolled_touches {s t : State} (h : onlyPolled s t) (c : BitVec 8) : Touches c s t :=
  touches_of_same (onlyPolled_store h) (onlyPolled_cfg h)

theorem slotPut_touches {f : Field} (s : State) (c : BitVec 8) (hf : f.valid s.cfg) (v : Word) :
    Touches c s (s.slotPut c f v) := by
  have hlt := offset_lt hf
  refine ⟨rfl, fun h => Store.write_wf h _ _, fun h a ha => ?_, fun hx hb x hxm => ?_⟩
  · exact Store.read_write_other h (by unfold fieldAddr; omega) v
  · rcases Store.mem_write hxm with rfl | h
    · have := slot_end_le hx
      simp only [fieldAddr]
      omega
    · exact hb x h

theorem slotFill_touches (s : State) (c : BitVec 8) {ws : List Word} (hw : ws.length ≤ s.cfg.slotWords) :
    Touches c s (s.slotFill c ws) := by
  refine ⟨rfl, fun h => Store.writeAll_wf h _ _, fun h a ha => ?_, fun hx hb x hxm => ?_⟩
  · rw [slotFill_store, Store.read_writeAll h, if_neg (by omega)]
  · rcases Store.mem_writeAll hxm with h | h
    · have := slot_end_le hx
      omega
    · exact hb x h

/-- Words of another slot are read as before. -/
theorem touches_read {c y : BitVec 8} {s t : State} (h : Touches c s t) (hs : Store.wf s.store) (hy : y ≠ c) {k : Nat}
    (hk : k < s.cfg.slotWords) : Store.read t.store (slotAddr s.cfg y + k) = Store.read s.store (slotAddr s.cfg y + k) := by
  apply h.outside hs
  by_contra hcon
  have := slot_disjoint (c := s.cfg) hy hk (k := slotAddr s.cfg y + k - slotAddr s.cfg c) (by omega)
  omega

theorem touches_slotGet {c y : BitVec 8} {s t : State} (h : Touches c s t) (hs : Store.wf s.store) (hy : y ≠ c) {f : Field}
    (hf : f.valid s.cfg) : t.slotGet y f = s.slotGet y f := by
  unfold State.slotGet
  rw [h.cfg]
  exact touches_read h hs hy (offset_lt hf)

theorem touches_shadow {c y : BitVec 8} {s t : State} (h : Touches c s t) (hs : Store.wf s.store) (hy : y ≠ c) :
    t.shadow y = s.shadow y :=
  shadow_eq_of_read h.cfg fun k hk => touches_read h hs hy (by rw [slotWords_eq]; rw [contextWords_eq] at hk; omega)

theorem unspecifySlot_touches (s : State) (c : BitVec 8) : Touches c s (s.unspecifySlot c) :=
  touches_trans (slotFill_touches s c (ws := s.freeWords s.cfg.slotWords) (by simp)) (touches_of_same rfl rfl)

theorem activate_touches (c : BitVec 8) (shv : Bool) (a : BitVec 4) (s : State) : Touches c s (activate c shv a s) :=
  slotPut_touches s c (f := .stat) trivial _

theorem appendByte_touches (c : BitVec 8) (x : Byte) (s : State) : Touches c s (appendByte c x s) := by
  unfold appendByte
  exact touches_trans (touches_trans (slotPut_touches s c (f := .buf) trivial _) (slotPut_touches _ c (f := .bufLen) trivial _))
    (slotPut_touches _ c (f := .loLen) trivial _)

theorem submitBuffer_touches (c : BitVec 8) (s : State) : Touches c s (submitBuffer c s).state := by
  unfold submitBuffer
  refine touches_trans ?_ (onlyPolled_touches (pollReady_onlyPolled _ _) c)
  refine touches_trans (t := (s.slotPut c .buf 0#32).slotPut c .bufLen 0#32) ?_ (touches_of_same rfl rfl)
  exact touches_trans (slotPut_touches s c (f := .buf) trivial _) (slotPut_touches _ c (f := .bufLen) trivial _)

theorem commitCapture_touches (t : BitVec 8) (s : State) : Touches t s (commitCapture t s) := by
  unfold commitCapture
  exact touches_trans (slotFill_touches s t (by simp [contextWords_eq, slotWords_eq]))
    (slotPut_touches _ t (f := .stat) trivial _)

theorem captureInto_touches (t : BitVec 8) (s : State) : Touches t s (captureInto t s) := by
  unfold captureInto
  exact touches_trans (t := stageRegisters s) (touches_of_same rfl rfl) (commitCapture_touches t _)

theorem releaseUnit_touches (c : BitVec 8) (s : State) : Touches c s s.releaseUnit := touches_of_same rfl rfl

theorem dataPhaseTimeout_touches (o : BitVec 4) (c : BitVec 8) (s : State) : Touches c s (dataPhaseTimeout o c s) :=
  touches_trans (unspecifySlot_touches s c) (touches_of_same rfl rfl)

theorem initSlot_touches (c : BitVec 8) (s : State) : Touches c s (initSlot c s) := by
  have h := slotFill_touches s c (ws := List.replicate s.cfg.slotWords 0#32) (by simp)
  exact touches_trans h (touches_of_same (initSlot_store s c) (initSlot_cfg s c))

/-! ## Absorbing bytes -/

/-- What one byte and one submitted word keep, absorbing any bytes keeps. -/
theorem absorbBytes_keeps {P : State → Prop} {c : BitVec 8} (happend : ∀ s x, P s → P (appendByte c x s))
    (hsubmit : ∀ s, P s → P (submitBuffer c s).state) (xs : List Byte) {s : State} (h : P s) :
    P (absorbBytes c xs s).state := by
  induction xs generalizing s with
  | nil => exact h
  | cons x xs ih =>
    have h1 : P (absorbByte c x s).state := by
      simp only [absorbByte]
      split
      · exact hsubmit _ (happend s x h)
      · exact happend s x h
    simp only [absorbBytes]
    split
    · rename_i s' heq
      rw [heq] at h1
      exact ih h1
    · rename_i s' heq
      rw [heq] at h1
      exact h1

theorem absorbBytes_touches (c : BitVec 8) (xs : List Byte) (s : State) : Touches c s (absorbBytes c xs s).state :=
  absorbBytes_keeps (P := fun t => Touches c s t) (fun t x h => touches_trans h (appendByte_touches c x t))
    (fun t h => touches_trans h (submitBuffer_touches c t)) xs (touches_refl c s)

/-! ## Sizes -/

/-- The register lists have the sizes of the configuration. -/
structure Sized (s : State) : Prop where
  sessions : s.sessions.length = s.cfg.nsess
  acc : s.periph.pr.acc.length = s.cfg.accWords
  stg : s.stg.acc.length = s.cfg.accWords
  res : s.periph.res.length = s.cfg.resultWords

theorem sized_congr {s t : State} (hc : t.cfg = s.cfg) (h1 : t.sessions.length = s.sessions.length)
    (h2 : t.periph = s.periph) (h3 : t.stg = s.stg) (h : Sized s) : Sized t :=
  ⟨by rw [h1, hc]; exact h.sessions, by rw [h2, hc]; exact h.acc, by rw [h3, hc]; exact h.stg, by rw [h2, hc]; exact h.res⟩

theorem onlyPolled_sized {s t : State} (h : onlyPolled s t) (hs : Sized s) : Sized t :=
  sized_congr (onlyPolled_cfg h) (by rw [onlyPolled_sessions h]) (onlyPolled_periph h) (onlyPolled_stg h) hs

theorem unspecifyPR_sized {s : State} (h : Sized s) : Sized s.unspecifyPR :=
  ⟨h.sessions, ofWords_acc_length (by simp), h.stg, h.res⟩

theorem releaseUnit_sized {s : State} (h : Sized s) : Sized s.releaseUnit :=
  ⟨h.sessions, ofWords_acc_length (by simp), h.stg, h.res⟩

theorem startUnit_sized (a : BitVec 4) {s : State} (h : Sized s) : Sized (startUnit a s) :=
  ⟨h.sessions, periphStart_acc_length _ _, h.stg, h.res⟩

theorem restoreFrom_sized (c : BitVec 8) {s : State} (h : Sized s) : Sized (restoreFrom c s) :=
  ⟨h.sessions, shadow_acc_length s c, h.stg, h.res⟩

theorem submitWord_sized (w : Word) {s : State} (h : Sized s) : Sized (submitWord w s) :=
  ⟨h.sessions, periphAbsorb_acc_length _ _ _, h.stg, h.res⟩

theorem finalize_sized (a : BitVec 4) (len : Word) {s : State} (h : Sized s) : Sized (finalize a len s) :=
  ⟨h.sessions, h.acc, h.stg, periphFinal_length _ _ _⟩

theorem captureInto_sized (t : BitVec 8) {s : State} (h : Sized s) : Sized (captureInto t s) :=
  ⟨h.sessions, h.acc, ofWords_acc_length (by simp), h.res⟩

theorem evictOwner_sized {s : State} (h : Sized s) : Sized (evictOwner s) := by
  unfold evictOwner
  split
  · exact h
  · exact captureInto_sized _ h

theorem bringIn_sized (c : BitVec 8) (a : BitVec 4) {s : State} (h : Sized s) : Sized (bringIn c a s) := by
  unfold bringIn
  split
  · exact sized_congr (s := restoreFrom c s) rfl rfl rfl rfl (restoreFrom_sized c h)
  · exact sized_congr (s := startUnit a s) rfl rfl rfl rfl (startUnit_sized a h)

theorem appendByte_sized (c : BitVec 8) (x : Byte) {s : State} (h : Sized s) : Sized (appendByte c x s) :=
  sized_congr (s := s) rfl rfl rfl rfl h

theorem submitBuffer_sized (c : BitVec 8) {s : State} (h : Sized s) : Sized (submitBuffer c s).state :=
  onlyPolled_sized (pollReady_onlyPolled _ _) (submitWord_sized _ (sized_congr (s := s) rfl rfl rfl rfl h))

theorem absorbBytes_sized (c : BitVec 8) (xs : List Byte) {s : State} (h : Sized s) : Sized (absorbBytes c xs s).state :=
  absorbBytes_keeps (P := Sized) (fun _ x h => appendByte_sized c x h) (fun _ h => submitBuffer_sized c h) xs h

end Sys2Proof.Machine
end

