-- ==== Sys2Proof/Laws/Swap.lean ====
section
/-! SUPPORT. What a capture, a load and LoadOrResume can do (42_arbiter_swap R185, R186), said once. -/

namespace Sys2Proof.Machine

/-! ## Bits of STAT -/

@[simp] theorem statLife_mkStat (l : Life) (v g : Bool) (a : BitVec 4) : statLife (mkStat l v g a) = l := by
  have h : (mkStat l v g a).extractLsb' 0 2 = l.bits := by
    unfold mkStat
    rw [BitVec.extractLsb'_append_eq_of_add_le (by omega)]
    simp
  unfold statLife
  rw [h]
  cases l <;> decide

theorem statShv_setShv (st : Word) : statShv (statSetShv st) = true := by simp [statShv, statSetShv]

theorem extractLsb'_setShv_low (st : Word) : (statSetShv st).extractLsb' 0 2 = st.extractLsb' 0 2 := by
  unfold statSetShv
  rw [BitVec.extractLsb'_or]
  simp

theorem statLife_setShv (st : Word) : statLife (statSetShv st) = statLife st := by
  unfold statLife
  rw [extractLsb'_setShv_low]

theorem statAlgv_setShv (st : Word) : statAlgv (statSetShv st) = statAlgv st := by simp [statAlgv, statSetShv]

theorem statAlg_setShv (st : Word) : statAlg (statSetShv st) = statAlg st := by
  unfold statAlg statSetShv
  rw [BitVec.extractLsb'_or]
  simp

theorem statReserved_setShv (st : Word) : statReserved (statSetShv st) = statReserved st := by
  unfold statReserved statSetShv
  rw [BitVec.extractLsb'_or]
  simp

theorem statMalformed_setShv (st : Word) : statMalformed (statSetShv st) = statMalformed st := by
  unfold statMalformed
  rw [statLife_setShv, statReserved_setShv]

/-! ## Capture (R186) -/

/-- A word of slot `t` after its capture: the live registers, then the fields as they were but SHV set. -/
theorem read_captureInto_same {s : State} (h : Store.wf s.store) (t : BitVec 8) {k : Nat} (hk : k < s.cfg.slotWords) :
    Store.read (captureInto t s).store (slotAddr s.cfg t + k) =
      if k < s.cfg.contextWords then (s.periph.pr.words s.cfg).getD k 0#32
      else if k = s.cfg.accWords + 6 then statSetShv (s.slotGet t .stat)
      else Store.read s.store (slotAddr s.cfg t + k) := by
  unfold captureInto commitCapture
  have hw : ((stageRegisters s).stg.words (stageRegisters s).cfg) = s.periph.pr.words s.cfg := by
    simp [words_ofWords]
  simp only [hw]
  set s1 := (stageRegisters s).slotFill t (s.periph.pr.words s.cfg) with hs1
  have hwf : Store.wf s1.store := slotFill_wf (s := stageRegisters s) (by simpa using h) t _
  have hcfg : s1.cfg = s.cfg := rfl
  have hread : ∀ j, Store.read s1.store (slotAddr s.cfg t + j) =
      if j < s.cfg.contextWords then (s.periph.pr.words s.cfg).getD j 0#32
      else Store.read s.store (slotAddr s.cfg t + j) := by
    intro j
    have := read_slotFill_same (s := stageRegisters s) (by simpa using h) t (s.periph.pr.words s.cfg) j
    simp only [stageRegisters_cfg, stageRegisters_store, words_length] at this
    exact this
  have := read_slotPut (s := s1) hwf (x := t) (y := t) (f := .stat) trivial (statSetShv (s1.slotGet t .stat)) (k := k)
    (by rw [hcfg]; exact hk)
  rw [hcfg] at this
  rw [this, hread k]
  have hstat : s1.slotGet t .stat = s.slotGet t .stat := by
    have := hread (s.cfg.accWords + 6)
    rw [if_neg (by rw [contextWords_eq]; omega)] at this
    exact this
  rw [hstat]
  simp only [Field.offset, true_and]
  have := contextWords_eq s.cfg
  by_cases h1 : k = s.cfg.accWords + 6
  · rw [if_pos h1, if_neg (by omega), if_pos h1]
  · rw [if_neg h1, if_neg h1]

/-- The capture saves the live registers into the shadow of slot `t`. -/
theorem captureInto_shadow {s : State} (h : Store.wf s.store) (ha : s.periph.pr.acc.length = s.cfg.accWords)
    (t : BitVec 8) : (captureInto t s).shadow t = s.periph.pr := by
  have hr : Store.readAll (captureInto t s).store (slotAddr s.cfg t) s.cfg.contextWords = s.periph.pr.words s.cfg := by
    apply List.ext_getElem
    · simp
    · intro k h1 h2
      have hk : k < s.cfg.contextWords := by simpa using h1
      have := read_captureInto_same h t (k := k) (by rw [slotWords_eq]; rw [contextWords_eq] at hk; omega)
      rw [if_pos hk] at this
      simp [Store.readAll, this, List.getD_eq_getElem?_getD, List.getElem?_eq_getElem h2]
  unfold State.shadow
  rw [captureInto_cfg, hr, ofWords_words ha]

theorem slotGet_captureInto_stat {s : State} (h : Store.wf s.store) (t : BitVec 8) :
    (captureInto t s).slotGet t .stat = statSetShv (s.slotGet t .stat) := by
  have := read_captureInto_same h t (k := s.cfg.accWords + 6) (by rw [slotWords_eq]; omega)
  rw [if_neg (by rw [contextWords_eq]; omega), if_pos rfl] at this
  exact this

/-- BUF, BUFLEN and LOLEN of the captured slot are not touched. -/
theorem slotGet_captureInto_word {s : State} (h : Store.wf s.store) (t : BitVec 8) {f : Field}
    (hf : f = .buf ∨ f = .bufLen ∨ f = .loLen) : (captureInto t s).slotGet t f = s.slotGet t f := by
  have key : ∀ k, s.cfg.contextWords ≤ k → k < s.cfg.accWords + 6 →
      Store.read (captureInto t s).store (slotAddr s.cfg t + k) = Store.read s.store (slotAddr s.cfg t + k) := by
    intro k h1 h2
    have := read_captureInto_same h t (k := k) (by rw [slotWords_eq]; omega)
    rwa [if_neg (by omega), if_neg (by omega)] at this
  have hc := contextWords_eq s.cfg
  rcases hf with rfl | rfl | rfl
  · exact key (s.cfg.accWords + 3) (by omega) (by omega)
  · exact key (s.cfg.accWords + 4) (by omega) (by omega)
  · exact key (s.cfg.accWords + 5) (by omega) (by omega)

/-! ## LoadOrResume (R185) -/

theorem evictOwner_none {s : State} (h : s.owner = none) : evictOwner s = s := by simp [evictOwner, h]

theorem evictOwner_some {s : State} {t : BitVec 8} (h : s.owner = some t) : evictOwner s = captureInto t s := by
  simp [evictOwner, h]

theorem bringIn_pr (c : BitVec 8) (a : BitVec 4) (s : State) :
    (bringIn c a s).periph.pr = if statShv (s.slotGet c .stat) then s.shadow c else periphStart s.cfg a := by
  unfold bringIn
  split <;> simp_all

/-- Everything LoadOrResume can do: resume, time out with nothing changed, or save the owner and bring the slot in. -/
theorem loadOrResume_cases (c : BitVec 8) (a : BitVec 4) (s : State) :
    (s.owner = some c ∧ loadOrResume c a s = .ok s) ∨
    (s.owner ≠ some c ∧ ∃ s', pollReady .ready s = .timeout s' ∧ onlyPolled s s' ∧ loadOrResume c a s = .timeout s') ∨
    (s.owner ≠ some c ∧ ∃ s', pollReady .ready s = .ok s' ∧ onlyPolled s s' ∧
      loadOrResume c a s = .ok (bringIn c a (evictOwner s'))) := by
  unfold loadOrResume
  by_cases h : s.owner = some c
  · simp [h]
  · rw [if_neg h]
    cases hp : pollReady .ready s with
    | ok s' => exact .inr (.inr ⟨h, s', rfl, pollReady_ok hp, rfl⟩)
    | timeout s' => exact .inr (.inl ⟨h, s', rfl, pollReady_timeout hp, rfl⟩)

theorem loadOrResume_timeout {c : BitVec 8} {a : BitVec 4} {s s' : State} (h : loadOrResume c a s = .timeout s') :
    s.owner ≠ some c ∧ pollReady .ready s = .timeout s' ∧ onlyPolled s s' := by
  rcases loadOrResume_cases c a s with ⟨_, h1⟩ | ⟨ho, t, hp, hpol, h1⟩ | ⟨_, t, _, _, h1⟩ <;> rw [h1] at h
  · cases h
  · cases h
    exact ⟨ho, hp, hpol⟩
  · cases h

theorem loadOrResume_ok {c : BitVec 8} {a : BitVec 4} {s t : State} (h : loadOrResume c a s = .ok t) :
    (s.owner = some c ∧ t = s) ∨
    (s.owner ≠ some c ∧ ∃ s', pollReady .ready s = .ok s' ∧ onlyPolled s s' ∧ t = bringIn c a (evictOwner s')) := by
  rcases loadOrResume_cases c a s with ⟨ho, h1⟩ | ⟨ho, u, hp, hpol, h1⟩ | ⟨ho, u, hp, hpol, h1⟩ <;> rw [h1] at h
  · cases h
    exact .inl ⟨ho, rfl⟩
  · cases h
  · cases h
    exact .inr ⟨ho, u, hp, hpol, rfl⟩

theorem loadOrResume_owner {c : BitVec 8} {a : BitVec 4} {s t : State} (h : loadOrResume c a s = .ok t) :
    t.owner = some c := by
  rcases loadOrResume_ok h with ⟨ho, rfl⟩ | ⟨_, _, _, _, rfl⟩
  · exact ho
  · rfl

theorem loadOrResume_cfg (c : BitVec 8) (a : BitVec 4) (s : State) : (loadOrResume c a s).state.cfg = s.cfg := by
  rcases loadOrResume_cases c a s with ⟨_, h⟩ | ⟨_, u, _, hpol, h⟩ | ⟨_, u, _, hpol, h⟩ <;> rw [h] <;> simp only [Polled.state]
  · exact onlyPolled_cfg hpol
  · simp [onlyPolled_cfg hpol]

theorem evictOwner_wf {s : State} (h : Store.wf s.store) : Store.wf (evictOwner s).store := by
  unfold evictOwner
  split
  · exact h
  · exact (captureInto_touches _ s).wf h

theorem loadOrResume_wf {c : BitVec 8} {a : BitVec 4} {s : State} (h : Store.wf s.store) :
    Store.wf (loadOrResume c a s).state.store := by
  rcases loadOrResume_cases c a s with ⟨_, h1⟩ | ⟨_, u, _, hpol, h1⟩ | ⟨_, u, _, hpol, h1⟩ <;> rw [h1] <;> simp only [Polled.state]
  · exact h
  · rwa [onlyPolled_store hpol]
  · rw [bringIn_store]
    exact evictOwner_wf (by rwa [onlyPolled_store hpol])

theorem loadOrResume_sized {c : BitVec 8} {a : BitVec 4} {s : State} (h : Sized s) : Sized (loadOrResume c a s).state := by
  rcases loadOrResume_cases c a s with ⟨_, h1⟩ | ⟨_, u, _, hpol, h1⟩ | ⟨_, u, _, hpol, h1⟩ <;> rw [h1] <;> simp only [Polled.state]
  · exact h
  · exact onlyPolled_sized hpol h
  · exact bringIn_sized _ _ (evictOwner_sized (onlyPolled_sized hpol h))

/-- LoadOrResume leaves every word of every slot but the previous owner's, the loaded slot's among them. -/
theorem loadOrResume_read {c y : BitVec 8} {a : BitVec 4} {s : State} (h : Store.wf s.store)
    (hy : s.owner = some y → y = c) {k : Nat} (hk : k < s.cfg.slotWords) :
    Store.read (loadOrResume c a s).state.store (slotAddr s.cfg y + k) = Store.read s.store (slotAddr s.cfg y + k) := by
  rcases loadOrResume_cases c a s with ⟨_, h1⟩ | ⟨_, u, _, hpol, h1⟩ | ⟨ho, u, _, hpol, h1⟩ <;> rw [h1] <;> simp only [Polled.state]
  · rw [onlyPolled_store hpol]
  · rw [bringIn_store, ← onlyPolled_store hpol, ← onlyPolled_cfg hpol]
    have hou := onlyPolled_owner hpol
    cases hown : u.owner with
    | none => rw [evictOwner_none hown]
    | some t =>
      rw [evictOwner_some hown]
      have hne : y ≠ t := by
        rintro rfl
        rw [hou] at hown
        exact ho (hy hown ▸ hown)
      exact touches_read (captureInto_touches t u) (by rwa [onlyPolled_store hpol]) hne (by rwa [onlyPolled_cfg hpol])

theorem loadOrResume_slotGet {c y : BitVec 8} {a : BitVec 4} {s : State} (h : Store.wf s.store)
    (hy : s.owner = some y → y = c) {f : Field} (hf : f.valid s.cfg) :
    (loadOrResume c a s).state.slotGet y f = s.slotGet y f := by
  unfold State.slotGet
  rw [loadOrResume_cfg]
  exact loadOrResume_read h hy (offset_lt hf)

/-- After an OK the unit holds the session of the slot (R185). -/
theorem loadOrResume_pr {c : BitVec 8} {a : BitVec 4} {s t : State} (h : Store.wf s.store)
    (hl : loadOrResume c a s = .ok t) : t.periph.pr = loadedPR s a c := by
  unfold loadedPR
  rcases loadOrResume_ok hl with ⟨ho, rfl⟩ | ⟨ho, u, _, hpol, rfl⟩
  · rw [if_pos ho]
  · rw [if_neg ho, bringIn_pr]
    have hread : ∀ k < s.cfg.slotWords,
        Store.read (evictOwner u).store (slotAddr s.cfg c + k) = Store.read s.store (slotAddr s.cfg c + k) := by
      intro k hk
      have := loadOrResume_read (c := c) (y := c) (a := a) h (fun _ => rfl) hk
      rw [hl] at this
      simpa [Polled.state, bringIn_store] using this
    have hcfg : (evictOwner u).cfg = s.cfg := by simp [onlyPolled_cfg hpol]
    have h1 : (evictOwner u).slotGet c .stat = s.slotGet c .stat := by
      unfold State.slotGet
      rw [hcfg]
      exact hread _ (offset_lt (f := .stat) trivial)
    have h2 : (evictOwner u).shadow c = s.shadow c :=
      shadow_eq_of_read hcfg fun k hk => hread k (by rw [slotWords_eq]; rw [contextWords_eq] at hk; omega)
    rw [h1, h2, hcfg]

end Sys2Proof.Machine
end

