-- ==== Sys2Proof/Laws/WordPath.lean ====
section
/-! SUPPORT. The word path (43_word_submission R211 to R214), said once: what appending a byte, submitting the buffer and
absorbing a run of bytes can do. -/

namespace Sys2Proof.Machine

/-! ## Whole words and left-over bytes -/

theorem packBytes_append {o : ByteOrder} {xs ys : List Byte} (h : xs.length % 4 = 0) :
    packBytes o (xs ++ ys) = packBytes o xs ++ packBytes o ys := by
  induction xs using packBytes.induct with
  | case1 => rfl
  | case2 b0 => simp at h
  | case3 b0 b1 => simp at h
  | case4 b0 b1 b2 => simp at h
  | case5 b0 b1 b2 b3 rest ih =>
    have hr : rest.length % 4 = 0 := by simp only [List.length_cons] at h; omega
    simp only [List.cons_append, packBytes, ih hr]

theorem wholeWords_append_of_not_full {o : ByteOrder} {bs : List Byte} (x : Byte) (h : bs.length % 4 ≠ 3) :
    wholeWords o (bs ++ [x]) = wholeWords o bs := by
  unfold wholeWords
  have e : (bs ++ [x]).length / 4 = bs.length / 4 := by simp; omega
  rw [e, List.take_append_of_le_length (by omega)]

theorem wholeWords_append_of_full {o : ByteOrder} {bs : List Byte} (x : Byte) (h : bs.length % 4 = 3) :
    wholeWords o (bs ++ [x]) = wholeWords o bs ++ packBytes o (leftover bs ++ [x]) := by
  unfold wholeWords leftover
  have e : 4 * ((bs ++ [x]).length / 4) = (bs ++ [x]).length := by simp; omega
  rw [e, List.take_length]
  conv_lhs => rw [← List.take_append_drop (4 * (bs.length / 4)) bs, List.append_assoc]
  rw [packBytes_append]
  rw [List.length_take]
  omega

theorem leftover_length (bs : List Byte) : (leftover bs).length = bs.length % 4 := by
  unfold leftover
  rw [List.length_drop]
  omega

theorem leftover_append_of_not_full {bs : List Byte} (x : Byte) (h : bs.length % 4 ≠ 3) :
    leftover (bs ++ [x]) = leftover bs ++ [x] := by
  unfold leftover
  have e : (bs ++ [x]).length / 4 = bs.length / 4 := by simp; omega
  rw [e, List.drop_append_of_le_length (by omega)]

theorem leftover_append_of_full {bs : List Byte} (x : Byte) (h : bs.length % 4 = 3) : leftover (bs ++ [x]) = [] := by
  apply List.eq_nil_of_length_eq_zero
  rw [leftover_length]
  simp
  omega

theorem wholeWords_length (o : ByteOrder) (bs : List Byte) : (wholeWords o bs).length = bs.length / 4 := by
  unfold wholeWords
  rw [packBytes_length, List.length_take]
  omega

/-! ## One byte -/

/-- The fields of a slot that are one word and no shadow word. -/
def Field.isWord : Field → Bool
  | .buf => true
  | .bufLen => true
  | .loLen => true
  | .stat => true
  | .imr => false
  | .scr => false
  | .cr => false
  | .acc _ => false

theorem Field.valid_of_isWord {f : Field} (h : f.isWord = true) (c : Config) : f.valid c := by
  cases f <;> simp_all [Field.isWord, Field.valid]

theorem Field.offset_of_isWord {f : Field} (h : f.isWord = true) (c : Config) : c.contextWords ≤ f.offset c := by
  cases f <;> simp_all [Field.isWord, Field.offset, contextWords_eq]

/-- A write of one such field of a slot, seen from another of the same slot. -/
theorem slotPut_get {s : State} (h : Store.wf s.store) (c : BitVec 8) {f : Field} (hf : f.isWord = true) (v : Word)
    (g : Field) (hg : g.isWord = true) : (s.slotPut c f v).slotGet c g = if g = f then v else s.slotGet c g := by
  rw [slotGet_slotPut h (Field.valid_of_isWord hf _) (Field.valid_of_isWord hg _)]
  simp

/-- What appending a byte does to the fields of its slot (R211). -/
theorem appendByte_get {c : BitVec 8} {s : State} (h : Store.wf s.store) (x : Byte) :
    (appendByte c x s).slotGet c .buf = setLane s.cfg.byteOrder (s.slotGet c .buf) (s.slotGet c .bufLen).toNat x ∧
    (appendByte c x s).slotGet c .bufLen = s.slotGet c .bufLen + 1#32 ∧
    (appendByte c x s).slotGet c .loLen = s.slotGet c .loLen + 1#32 ∧
    (appendByte c x s).slotGet c .stat = s.slotGet c .stat := by
  unfold appendByte
  simp only
  obtain ⟨s1, h1⟩ : ∃ s1, s.slotPut c .buf (setLane s.cfg.byteOrder (s.slotGet c .buf) (s.slotGet c .bufLen).toNat x) = s1 :=
    ⟨_, rfl⟩
  have w1 : Store.wf s1.store := h1 ▸ slotPut_wf h _ _ _
  have e1 := slotPut_get h c (f := .buf) rfl (setLane s.cfg.byteOrder (s.slotGet c .buf) (s.slotGet c .bufLen).toNat x)
  rw [h1] at e1 ⊢
  obtain ⟨s2, h2⟩ : ∃ s2, s1.slotPut c .bufLen (s1.slotGet c .bufLen + 1#32) = s2 := ⟨_, rfl⟩
  have w2 : Store.wf s2.store := h2 ▸ slotPut_wf w1 _ _ _
  have e2 := slotPut_get w1 c (f := .bufLen) rfl (s1.slotGet c .bufLen + 1#32)
  rw [h2] at e2 ⊢
  have e3 := slotPut_get w2 c (f := .loLen) rfl (s2.slotGet c .loLen + 1#32)
  rw [e3 .buf rfl, e3 .bufLen rfl, e3 .loLen rfl, e3 .stat rfl, e2 .buf rfl, e2 .bufLen rfl, e2 .loLen rfl, e2 .stat rfl,
    e1 .buf rfl, e1 .bufLen rfl, e1 .loLen rfl, e1 .stat rfl]
  simp

/-- Appending a byte changes nothing but the store. -/
theorem appendByte_frame (c : BitVec 8) (x : Byte) (s : State) :
    appendByte c x s = { s with store := (appendByte c x s).store } := rfl

/-- The state SubmitWord leaves before the poll, the buffer having been cleared (R212, R213). -/
def submitted (c : BitVec 8) (s : State) : State :=
  submitWord (s.slotGet c .buf) ((s.slotPut c .buf 0#32).slotPut c .bufLen 0#32)

theorem submitted_cfg (c : BitVec 8) (s : State) : (submitted c s).cfg = s.cfg := by simp [submitted]

theorem submitted_flagSamples (c : BitVec 8) (s : State) : (submitted c s).flagSamples = s.flagSamples := by
  simp [submitted]

theorem submitted_draws (c : BitVec 8) (s : State) : (submitted c s).draws = s.draws := by simp [submitted]

theorem submitBuffer_eq (c : BitVec 8) (s : State) : submitBuffer c s = pollReady .ready (submitted c s) := rfl

/-- What submitting the buffer does to the fields of its slot (R212). -/
theorem submitted_get {c : BitVec 8} {s : State} (h : Store.wf s.store) :
    (submitted c s).slotGet c .buf = 0#32 ∧ (submitted c s).slotGet c .bufLen = 0#32 ∧
    (submitted c s).slotGet c .loLen = s.slotGet c .loLen ∧ (submitted c s).slotGet c .stat = s.slotGet c .stat := by
  have e : ∀ f, (submitted c s).slotGet c f = ((s.slotPut c .buf 0#32).slotPut c .bufLen 0#32).slotGet c f := fun _ => rfl
  have e1 := slotPut_get h c (f := .buf) rfl 0#32
  have e2 := slotPut_get (slotPut_wf h c .buf 0#32) c (f := .bufLen) rfl 0#32
  rw [e, e, e, e, e2 .buf rfl, e2 .bufLen rfl, e2 .loLen rfl, e2 .stat rfl, e1 .buf rfl, e1 .loLen rfl, e1 .stat rfl]
  simp

/-- The store after the buffer is submitted is written in slot `c` only. -/
theorem submitted_touches (c : BitVec 8) (s : State) : Touches c s (submitted c s) :=
  touches_trans (touches_trans (slotPut_touches s c (f := .buf) trivial _) (slotPut_touches _ c (f := .bufLen) trivial _))
    (touches_of_same rfl rfl)

theorem shadowKept_refl (c : BitVec 8) (s : State) : shadowKept c s s := fun _ _ => rfl

theorem shadowKept_trans {c : BitVec 8} {s t u : State} (hc : t.cfg = s.cfg) (h1 : shadowKept c s t)
    (h2 : shadowKept c t u) : shadowKept c s u := by
  intro k hk
  have := h2 k (by rw [hc]; exact hk)
  rw [hc] at this
  rw [this, h1 k hk]

theorem shadowKept_of_same {c : BitVec 8} {s t : State} (h : t.store = s.store) : shadowKept c s t := by
  intro k _
  rw [h]

/-- A write of a field that is no shadow word keeps the shadow. -/
theorem shadowKept_slotPut {s : State} (h : Store.wf s.store) (c : BitVec 8) {f : Field} (hf : f.isWord = true) (v : Word) :
    shadowKept c s (s.slotPut c f v) := by
  intro k hk
  have := Field.offset_of_isWord hf s.cfg
  rw [read_slotPut h (Field.valid_of_isWord hf _) v (by rw [slotWords_eq]; rw [contextWords_eq] at hk; omega),
    if_neg (by omega)]

theorem shadowKept_slotPut_after {s t : State} {c : BitVec 8} (h : shadowKept c s t) (hc : t.cfg = s.cfg)
    (hw : Store.wf t.store) {f : Field} (hf : f.isWord = true) (v : Word) : shadowKept c s (t.slotPut c f v) :=
  shadowKept_trans hc h (shadowKept_slotPut hw c hf v)

theorem appendByte_shadowKept {c : BitVec 8} {s : State} (h : Store.wf s.store) (x : Byte) :
    shadowKept c s (appendByte c x s) := by
  unfold appendByte
  exact shadowKept_slotPut_after (shadowKept_slotPut_after (shadowKept_slotPut h c rfl _) rfl (slotPut_wf h _ _ _) rfl _) rfl
    (slotPut_wf (slotPut_wf h _ _ _) _ _ _) rfl _

theorem submitted_shadowKept {c : BitVec 8} {s : State} (h : Store.wf s.store) : shadowKept c s (submitted c s) := by
  have h2 : shadowKept c s ((s.slotPut c .buf 0#32).slotPut c .bufLen 0#32) :=
    shadowKept_slotPut_after (shadowKept_slotPut h c rfl _) rfl (slotPut_wf h _ _ _) rfl _
  exact shadowKept_trans (t := (s.slotPut c .buf 0#32).slotPut c .bufLen 0#32) rfl h2 (shadowKept_of_same rfl)

/-! ## A run of bytes -/

theorem portWrites_append (l m : List PortAccess) : portWrites (l ++ m) = portWrites l ++ portWrites m := by
  induction l with
  | nil => rfl
  | cons x l ih => cases x <;> simp [portWrites, ih]

/-- A poll puts nothing but reads of P.FLAGS into the port log. -/
theorem pollLoop_log (f : Flag) (k : Nat) (s : State) :
    ∃ flags, (pollLoop f k s).state.portLog = flags ++ s.portLog ∧ (∀ x ∈ flags, ∃ v, x = .read .flags v) ∧
      flags.length ≤ k ∧ ((pollLoop f k s).isOk = true → 1 ≤ flags.length) := by
  induction k generalizing s with
  | zero => exact ⟨[], rfl, by simp, by simp, by simp [pollLoop, Polled.isOk]⟩
  | succ k ih =>
    have hlog : ∃ v, (afterFlagsRead s).portLog = .read .flags v :: s.portLog := by
      unfold afterFlagsRead
      split <;> exact ⟨_, rfl⟩
    obtain ⟨v, hv⟩ := hlog
    simp only [pollLoop]
    split
    · exact ⟨[.read .flags v], by simpa [Polled.state] using hv, by simp, by simp, by simp⟩
    · obtain ⟨fl, h1, h2, h3, h4⟩ := ih { afterFlagsRead s with pcnt := s.pcnt + 1#32 }
      refine ⟨fl ++ [.read .flags v], by rw [h1]; simp [hv], ?_, by simp; omega, by simp⟩
      intro x hx
      rcases List.mem_append.1 hx with hx | hx
      · exact h2 x hx
      · exact ⟨v, by simpa using hx⟩

/-- The same of a whole poll (42_arbiter_swap R184). -/
theorem pollReady_log (f : Flag) (s : State) :
    ∃ flags, (pollReady f s).state.portLog = flags ++ s.portLog ∧ (∀ x ∈ flags, ∃ v, x = .read .flags v) ∧
      flags.length ≤ s.cfg.budget ∧ ((pollReady f s).isOk = true → 1 ≤ flags.length) :=
  pollLoop_log f s.cfg.budget { s with pcnt := 0#32 }

theorem portWrites_of_flags {l : List PortAccess} (h : ∀ x ∈ l, ∃ v, x = .read .flags v) : portWrites l.reverse = [] := by
  induction l with
  | nil => rfl
  | cons x l ih =>
    obtain ⟨v, rfl⟩ := h x (by simp)
    rw [List.reverse_cons, portWrites_append, ih fun y hy => h y (by simp [hy])]
    rfl

/-- A poll writes nothing on the port. -/
theorem pollReady_writes (f : Flag) (s : State) :
    portWrites (pollReady f s).state.portLog.reverse = portWrites s.portLog.reverse := by
  obtain ⟨fl, h1, h2, _⟩ := pollReady_log f s
  rw [h1, List.reverse_append, portWrites_append, portWrites_of_flags h2, List.append_nil]

/-- `t` is `s` up to what the word path changes beside the store: PR, P.DIN, and what polling touches. -/
def wordFrame (s t : State) : Prop :=
  t = { s with
    store := t.store
    periph := { s.periph with pr := t.periph.pr, din := t.periph.din }
    pcnt := t.pcnt
    flagSamples := t.flagSamples
    draws := t.draws
    portLog := t.portLog }

theorem wordFrame_refl (s : State) : wordFrame s s := rfl

theorem wordFrame_trans {s t u : State} (h1 : wordFrame s t) (h2 : wordFrame t u) : wordFrame s u := by
  unfold wordFrame at *
  rw [h2, h1]

theorem wordFrame_of_onlyPolled {s t : State} (h : onlyPolled s t) : wordFrame s t := by
  unfold wordFrame
  rw [onlyPolled] at h
  rw [h]

theorem wordFrame_cfg {s t : State} (h : wordFrame s t) : t.cfg = s.cfg := by rw [h]

/-- What absorbing the bytes `done` into slot `c` has done when it has gone well: `bs` is what was pending at the start
followed by `done` (R155 of 41_session_lifecycle; R211 to R214). -/
structure Absorbed (c : BitVec 8) (s : State) (done : List Byte) (t : State) : Prop where
  frame : wordFrame s t
  touches : Touches c s t
  shadow : shadowKept c s t
  stat : t.slotGet c .stat = s.slotGet c .stat
  loLen : t.slotGet c .loLen = s.slotGet c .loLen + BitVec.ofNat 32 done.length
  bufLen : (t.slotGet c .bufLen).toNat = (pendingBytes s c ++ done).length % 4
  low : ∀ b < (pendingBytes s c ++ done).length % 4,
    lane s.cfg.byteOrder (t.slotGet c .buf) b = (leftover (pendingBytes s c ++ done)).getD b 0#8
  high_kept : (pendingBytes s c ++ done).length < 4 → ∀ b, (pendingBytes s c ++ done).length ≤ b → b < 4 →
    lane s.cfg.byteOrder (t.slotGet c .buf) b = lane s.cfg.byteOrder (s.slotGet c .buf) b
  high_zero : 4 ≤ (pendingBytes s c ++ done).length → ∀ b, (pendingBytes s c ++ done).length % 4 ≤ b → b < 4 →
    lane s.cfg.byteOrder (t.slotGet c .buf) b = 0#8
  pr : t.periph.pr = (wholeWords s.cfg.byteOrder (pendingBytes s c ++ done)).foldl (periphAbsorb s.cfg) s.periph.pr
  din : t.periph.din = (wholeWords s.cfg.byteOrder (pendingBytes s c ++ done)).getLast?.getD s.periph.din
  writes : portWrites t.portLog.reverse = portWrites s.portLog.reverse ++
    (wholeWords s.cfg.byteOrder (pendingBytes s c ++ done)).map fun w => (WriteReg.din, w)

theorem pendingBytes_length {s : State} {c : BitVec 8} (h : (s.slotGet c .bufLen).toNat ≤ 3) :
    (pendingBytes s c).length = (s.slotGet c .bufLen).toNat := by
  unfold pendingBytes
  rw [bytesOf_length]
  simp
  omega

theorem pendingBytes_getD {s : State} {c : BitVec 8} (h : (s.slotGet c .bufLen).toNat ≤ 3) {b : Nat}
    (hb : b < (s.slotGet c .bufLen).toNat) :
    (pendingBytes s c).getD b 0#8 = lane s.cfg.byteOrder (s.slotGet c .buf) b := by
  have h4 : b < 4 := by omega
  unfold pendingBytes bytesOf
  rw [List.getD_eq_getElem?_getD, List.getElem?_take, if_pos hb]
  interval_cases b <;> simp [lanes]

theorem wholeWords_short {o : ByteOrder} {bs : List Byte} (h : bs.length < 4) : wholeWords o bs = [] := by
  apply List.eq_nil_of_length_eq_zero
  rw [wholeWords_length]
  omega

theorem leftover_short {bs : List Byte} (h : bs.length < 4) : leftover bs = bs := by
  unfold leftover
  rw [Nat.div_eq_of_lt h]
  rfl

/-- Nothing absorbed yet. -/
theorem absorbed_nil {c : BitVec 8} {s : State} (h : (s.slotGet c .bufLen).toNat ≤ 3) : Absorbed c s [] s := by
  have hl := pendingBytes_length h
  have hlt : (pendingBytes s c ++ []).length < 4 := by simp; omega
  refine ⟨rfl, touches_refl c s, shadowKept_refl c s, rfl, by simp, ?_, ?_, fun _ _ _ _ => rfl, fun h4 => by omega, ?_, ?_, ?_⟩
  · rw [Nat.mod_eq_of_lt hlt]
    simp [hl]
  · intro b hb
    rw [Nat.mod_eq_of_lt hlt] at hb
    rw [leftover_short hlt, List.append_nil, pendingBytes_getD h (by simpa [hl] using hb)]
  · rw [wholeWords_short hlt]
    rfl
  · rw [wholeWords_short hlt]
    rfl
  · rw [wholeWords_short hlt]
    simp

/-- Absorbing a byte is appending it, and submitting the word if it was the fourth (R211). -/
theorem absorbByte_eq {c : BitVec 8} {s : State} (hw : Store.wf s.store) (x : Byte)
    (hn : (s.slotGet c .bufLen).toNat ≤ 3) :
    absorbByte c x s = if (s.slotGet c .bufLen).toNat = 3 then pollReady .ready (submitted c (appendByte c x s))
      else .ok (appendByte c x s) := by
  obtain ⟨_, g2, _, _⟩ := appendByte_get (c := c) hw x
  have hb : ((appendByte c x s).slotGet c .bufLen).toNat = (s.slotGet c .bufLen).toNat + 1 := by
    rw [g2, BitVec.toNat_add]
    simp
    omega
  by_cases h3 : (s.slotGet c .bufLen).toNat = 3
  · have : (appendByte c x s).slotGet c .bufLen = 4#32 := BitVec.eq_of_toNat_eq (by rw [hb, h3]; rfl)
    rw [if_pos h3]
    simp only [absorbByte, this, if_true, submitBuffer_eq]
  · have : (appendByte c x s).slotGet c .bufLen ≠ 4#32 := by
      intro e
      rw [e] at hb
      simp at hb
      omega
    rw [if_neg h3]
    simp only [absorbByte, this, if_false]

/-- A full buffer is the word of its four bytes. -/
theorem packBytes_of_lanes {o : ByteOrder} {w : Word} {bs : List Byte} (hl : bs.length = 4)
    (h : ∀ b < 4, lane o w b = bs.getD b 0#8) : packBytes o bs = [w] := by
  match bs, hl with
  | [b0, b1, b2, b3], _ =>
    have h0 := h 0 (by omega)
    have h1 := h 1 (by omega)
    have h2 := h 2 (by omega)
    have h3 := h 3 (by omega)
    simp only [List.getD_cons_zero, List.getD_cons_succ] at h0 h1 h2 h3
    rw [← h0, ← h1, ← h2, ← h3]
    simp [packBytes, pack4_lanes]

/-- One more byte, whether it completes a word or not, and whether the poll after the word passes or not (R155, R211). -/
theorem absorbed_step {c : BitVec 8} {s t : State} {done : List Byte} (hw : Store.wf s.store) (x : Byte)
    (A : Absorbed c s done t) : Absorbed c s (done ++ [x]) (absorbByte c x t).state := by
  have hwt := A.touches.wf hw
  have hcfg := A.touches.cfg
  obtain ⟨g1, g2, g3, g4⟩ := appendByte_get (c := c) hwt x
  have hassoc : pendingBytes s c ++ (done ++ [x]) = (pendingBytes s c ++ done) ++ [x] := by simp
  have hlo : (appendByte c x t).slotGet c .loLen = s.slotGet c .loLen + BitVec.ofNat 32 (done ++ [x]).length := by
    rw [g3, A.loLen]
    simp [BitVec.ofNat_add, BitVec.add_assoc]
  obtain ⟨total, htot⟩ : ∃ total, pendingBytes s c ++ done = total := ⟨_, rfl⟩
  have hlen := A.bufLen
  have hlow := A.low
  have hkept := A.high_kept
  have hzero := A.high_zero
  have hpr := A.pr
  have hdin := A.din
  have hwr := A.writes
  rw [htot] at hlen hlow hkept hzero hpr hdin hwr hassoc
  have hr : total.length % 4 < 4 := Nat.mod_lt _ (by omega)
  have hn : ((appendByte c x t).slotGet c .bufLen).toNat = total.length % 4 + 1 := by
    rw [g2, BitVec.toNat_add, hlen]
    simp
    omega
  have hl1 : (total ++ [x]).length = total.length + 1 := by simp
  have hlane : ∀ b < 4, lane s.cfg.byteOrder ((appendByte c x t).slotGet c .buf) b =
      if b = total.length % 4 then x else lane s.cfg.byteOrder (t.slotGet c .buf) b := by
    intro b hb
    rw [g1, hcfg, hlen, lane_setLane _ _ hr hb]
  have hlowx : ∀ b < total.length % 4 + 1, lane s.cfg.byteOrder ((appendByte c x t).slotGet c .buf) b =
      (leftover total ++ [x]).getD b 0#8 := by
    intro b hb
    rw [hlane b (by omega)]
    by_cases hbr : b = total.length % 4
    · rw [if_pos hbr, hbr, ← leftover_length]
      simp
    · rw [if_neg hbr, hlow b (by omega)]
      have : b < (leftover total).length := by rw [leftover_length]; omega
      simp [List.getD_eq_getElem?_getD, List.getElem?_append_left this]
  by_cases h3 : total.length % 4 = 3
  · rw [absorbByte_eq hwt x (by omega), if_pos (by omega)]
    have hpol := pollReady_onlyPolled .ready (submitted c (appendByte c x t))
    have hwrp := pollReady_writes .ready (submitted c (appendByte c x t))
    obtain ⟨v, hv⟩ : ∃ v, (pollReady .ready (submitted c (appendByte c x t))).state = v := ⟨_, rfl⟩
    rw [hv] at hpol hwrp ⊢
    have hwu : Store.wf (appendByte c x t).store := (appendByte_touches c x t).wf hwt
    obtain ⟨k1, k2, k3, k4⟩ := submitted_get (c := c) hwu
    have hword : packBytes s.cfg.byteOrder (leftover total ++ [x]) = [(appendByte c x t).slotGet c .buf] := by
      apply packBytes_of_lanes
      · simp [leftover_length, h3]
      · intro b hb
        exact hlowx b (by omega)
    have hwhole := wholeWords_append_of_full (o := s.cfg.byteOrder) x h3
    rw [hword] at hwhole
    refine ⟨?_, ?_, ?_, ?_, ?_, ?_, ?_, ?_, ?_, ?_, ?_, ?_⟩
    · exact wordFrame_trans A.frame (wordFrame_trans (t := submitted c (appendByte c x t)) rfl (wordFrame_of_onlyPolled hpol))
    · exact touches_trans (touches_trans A.touches (appendByte_touches c x t))
        (touches_trans (submitted_touches c _) (onlyPolled_touches hpol c))
    · refine shadowKept_trans hcfg A.shadow (shadowKept_trans (t := appendByte c x t) rfl (appendByte_shadowKept hwt x) ?_)
      exact shadowKept_trans (t := submitted c (appendByte c x t)) rfl (submitted_shadowKept hwu)
        (shadowKept_of_same (onlyPolled_store hpol))
    · rw [onlyPolled_slotGet hpol, k4, g4, A.stat]
    · rw [onlyPolled_slotGet hpol, k3, hlo]
    · rw [onlyPolled_slotGet hpol, k2, hassoc, hl1]
      simp
      omega
    · intro b hb
      rw [hassoc, hl1] at hb
      omega
    · intro h4
      rw [hassoc, hl1] at h4
      omega
    · intro _ b _ _
      rw [onlyPolled_slotGet hpol, k1, lane_zero]
    · rw [onlyPolled_periph hpol, hassoc, hwhole, List.foldl_append, ← hpr, ← hcfg]
      rfl
    · rw [onlyPolled_periph hpol, hassoc, hwhole]
      simp [submitted]
    · rw [hwrp, hassoc, hwhole]
      have : (submitted c (appendByte c x t)).portLog = .write .din ((appendByte c x t).slotGet c .buf) :: t.portLog := rfl
      rw [this, List.reverse_cons, portWrites_append, hwr]
      simp [portWrites]
  · rw [absorbByte_eq hwt x (by omega), if_neg (by omega)]
    simp only [Polled.state]
    have hwhole := wholeWords_append_of_not_full (o := s.cfg.byteOrder) x h3
    refine ⟨?_, ?_, ?_, ?_, ?_, ?_, ?_, ?_, ?_, ?_, ?_, ?_⟩
    · exact wordFrame_trans A.frame rfl
    · exact touches_trans A.touches (appendByte_touches c x t)
    · exact shadowKept_trans hcfg A.shadow (appendByte_shadowKept hwt x)
    · rw [g4, A.stat]
    · exact hlo
    · rw [hn, hassoc, hl1]
      omega
    · intro b hb
      rw [hassoc, hl1] at hb
      rw [hassoc, leftover_append_of_not_full x h3]
      exact hlowx b (by omega)
    · intro h4 b hb hb4
      rw [hassoc, hl1] at h4 hb
      rw [hlane b hb4, if_neg (by omega), hkept (by omega) b (by omega) hb4]
    · intro h4 b hb hb4
      rw [hassoc, hl1] at h4 hb
      rw [hlane b hb4, if_neg (by omega), hzero (by omega) b (by omega) hb4]
    · rw [hassoc, hwhole]
      exact hpr
    · rw [hassoc, hwhole]
      exact hdin
    · rw [hassoc, hwhole]
      exact hwr

/-- Absorbing bytes to the end (R155): everything it has done. -/
theorem absorbBytes_absorbed {c : BitVec 8} {s : State} (hw : Store.wf s.store) (hn : (s.slotGet c .bufLen).toNat ≤ 3)
    {xs : List Byte} {t : State} (h : absorbBytes c xs s = .ok t) : Absorbed c s xs t := by
  have key : ∀ (xs : List Byte) (done : List Byte) (u : State), Absorbed c s done u → absorbBytes c xs u = .ok t →
      Absorbed c s (done ++ xs) t := by
    intro xs
    induction xs with
    | nil =>
      intro done u A h
      cases h
      simpa using A
    | cons x xs ih =>
      intro done u A h
      have A' := absorbed_step hw x A
      simp only [absorbBytes] at h
      split at h
      · rename_i v hv
        rw [hv] at A'
        have := ih (done ++ [x]) v A' h
        simpa using this
      · cases h
  exact key xs [] s (absorbed_nil hn) h

/-- On a responsive peripheral absorbing bytes ends well, with one poll for each word completed (R155; 10_state R54). -/
theorem absorbBytes_ok {c : BitVec 8} {s : State} (hw : Store.wf s.store) (hn : (s.slotGet c .bufLen).toNat ≤ 3)
    {xs : List Byte} {fs : List Flag}
    (h : responsive (List.replicate (((s.slotGet c .bufLen).toNat + xs.length) / 4) .ready ++ fs) s) :
    ∃ t, absorbBytes c xs s = .ok t ∧ responsive fs t := by
  induction xs generalizing s with
  | nil =>
    have h0 : ((s.slotGet c .bufLen).toNat + ([] : List Byte).length) / 4 = 0 := by
      rw [List.length_nil]
      omega
    rw [h0] at h
    exact ⟨s, rfl, h⟩
  | cons x xs ih =>
    obtain ⟨_, g2, _, _⟩ := appendByte_get (c := c) hw x
    have hwa : Store.wf (appendByte c x s).store := (appendByte_touches c x s).wf hw
    have hra := responsive_congr (t := appendByte c x s) (appendByte_cfg _ _ _) (appendByte_flagSamples _ _ _)
      (appendByte_draws _ _ _) h
    simp only [absorbBytes]
    rw [absorbByte_eq hw x hn]
    by_cases h3 : (s.slotGet c .bufLen).toNat = 3
    · rw [if_pos h3]
      have hq : ((s.slotGet c .bufLen).toNat + (x :: xs).length) / 4 = xs.length / 4 + 1 := by
        rw [List.length_cons]
        omega
      rw [hq, List.replicate_succ, List.cons_append] at hra
      obtain ⟨v, hv, hpol, hrv⟩ := responsive_poll
        (responsive_congr (t := submitted c (appendByte c x s)) (submitted_cfg _ _) (submitted_flagSamples _ _)
          (submitted_draws _ _) hra)
      obtain ⟨_, k2, _, _⟩ := submitted_get (c := c) hwa
      have hwv : Store.wf v.store := by
        rw [onlyPolled_store hpol]
        exact (submitted_touches c _).wf hwa
      have hv0 : (v.slotGet c .bufLen).toNat = 0 := by
        rw [onlyPolled_slotGet hpol, k2]
        rfl
      rw [hv]
      exact ih hwv (by omega) (by rw [hv0, Nat.zero_add]; exact hrv)
    · rw [if_neg h3]
      have hb : ((appendByte c x s).slotGet c .bufLen).toNat = (s.slotGet c .bufLen).toNat + 1 := by
        rw [g2, BitVec.toNat_add]
        simp
        omega
      refine ih hwa (by omega) ?_
      rw [hb, Nat.add_assoc, Nat.add_comm 1]
      exact hra

end Sys2Proof.Machine
end

