-- ==== Sys2Proof/Laws/Load.lean ====
section
/-! SUPPORT. What saving the owner and LoadOrResume leave in the store and on the port (42_arbiter_swap R185, R186, R195;
20_memory R81). -/

namespace Sys2Proof.Machine

theorem portWrites_zipWith_reads (rs : List CtxReg) (vs : List Word) :
    portWrites (List.zipWith (fun r v => PortAccess.read (.ctx r) v) rs vs) = [] := by
  induction rs generalizing vs with
  | nil => rfl
  | cons r rs ih => cases vs with
    | nil => rfl
    | cons v vs => simpa [portWrites] using ih vs

theorem portWrites_zipWith_writes (rs : List CtxReg) (vs : List Word) :
    portWrites (List.zipWith (fun r v => PortAccess.write (.ctx r) v) rs vs) = List.zip (rs.map .ctx) vs := by
  induction rs generalizing vs with
  | nil => rfl
  | cons r rs ih => cases vs with
    | nil => rfl
    | cons v vs => simpa [portWrites] using ih vs

/-- The words a load writes are the words of the shadow. -/
theorem restoreWrites_eq (c : BitVec 8) (s : State) : restoreWrites c s =
    List.zipWith (fun r v => PortAccess.write (.ctx r) v) (contextRegs s.cfg) ((s.shadow c).words s.cfg) := by
  unfold restoreWrites State.shadow
  rw [words_ofWords (by simp)]

/-- The port log after the owner is saved. -/
theorem evictOwner_log (s : State) : (evictOwner s).portLog =
    (if s.owner = none then [] else
      List.zipWith (fun r v => PortAccess.read (.ctx r) v) (contextRegs s.cfg) (s.periph.pr.words s.cfg)).reverse ++
      s.portLog := by
  cases ho : s.owner with
  | none => simp [evictOwner, ho]
  | some t => simp [evictOwner, ho, captureReads]

theorem evictOwner_writes (s : State) :
    portWrites (evictOwner s).portLog.reverse = portWrites s.portLog.reverse := by
  rw [evictOwner_log, List.reverse_append, portWrites_append]
  split
  · simp [portWrites]
  · rw [List.reverse_reverse, portWrites_zipWith_reads, List.append_nil]

/-- The port log after a slot is brought in. -/
theorem bringIn_log (c : BitVec 8) (a : BitVec 4) (s : State) : (bringIn c a s).portLog =
    (if statShv (s.slotGet c .stat) then
      List.zipWith (fun r v => PortAccess.write (.ctx r) v) (contextRegs s.cfg) ((s.shadow c).words s.cfg)
    else [PortAccess.write .start (a.zeroExtend 32)]).reverse ++ s.portLog := by
  unfold bringIn
  split
  · simp [restoreWrites_eq]
  · simp

/-- What a capture of slot `o` keeps: every word outside it. -/
theorem captureInto_outside {o : BitVec 8} {s : State} (h : Store.wf s.store) {x : Nat} (hx : ¬ inSlot s o x) :
    Store.read (captureInto o s).store x = Store.read s.store x := by
  apply (captureInto_touches o s).outside h
  unfold inSlot at hx
  omega

/-- Saving the owner saves it whole. -/
theorem evictOwner_saved {s : State} (h : Store.wf s.store) (ha : s.periph.pr.acc.length = s.cfg.accWords) {o : BitVec 8}
    (ho : s.owner = some o) :
    (evictOwner s).shadow o = s.periph.pr ∧ (evictOwner s).slotGet o .stat = statSetShv (s.slotGet o .stat) ∧
    (evictOwner s).slotGet o .buf = s.slotGet o .buf ∧ (evictOwner s).slotGet o .bufLen = s.slotGet o .bufLen ∧
    (evictOwner s).slotGet o .loLen = s.slotGet o .loLen := by
  rw [evictOwner_some ho]
  exact ⟨captureInto_shadow h ha o, slotGet_captureInto_stat h o, slotGet_captureInto_word h o (.inl rfl),
    slotGet_captureInto_word h o (.inr (.inl rfl)), slotGet_captureInto_word h o (.inr (.inr rfl))⟩

/-- Saving the owner changes no word outside the owner's slot. -/
theorem evictOwner_outside {s : State} (h : Store.wf s.store) {x : Nat} (hx : ∀ o, s.owner = some o → ¬ inSlot s o x) :
    Store.read (evictOwner s).store x = Store.read s.store x := by
  cases ho : s.owner with
  | none => rw [evictOwner_none ho]
  | some o =>
    rw [evictOwner_some ho]
    exact captureInto_outside h (hx o ho)

/-- What LoadOrResume changes at all, when it ends OK (R185). -/
def loadFrame (s t : State) : Prop :=
  t = { s with
    owner := t.owner
    pcnt := t.pcnt
    stg := t.stg
    store := t.store
    periph := { s.periph with pr := t.periph.pr }
    flagSamples := t.flagSamples
    draws := t.draws
    prDefined := t.prDefined
    portLog := t.portLog }

theorem evictOwner_loadFrame (s : State) : loadFrame s (evictOwner s) := by
  unfold loadFrame evictOwner
  split <;> rfl

theorem bringIn_loadFrame (c : BitVec 8) (a : BitVec 4) (s : State) : loadFrame s (bringIn c a s) := by
  unfold loadFrame bringIn
  split <;> rfl

theorem loadFrame_trans {s t u : State} (h1 : loadFrame s t) (h2 : loadFrame t u) : loadFrame s u := by
  unfold loadFrame at *
  rw [h2, h1]

theorem loadFrame_of_onlyPolled {s t : State} (h : onlyPolled s t) : loadFrame s t := by
  unfold loadFrame
  rw [onlyPolled] at h
  rw [h]

/-- LoadOrResume, however it ends, changes no more than `loadFrame` says (R185). -/
theorem loadOrResume_frame (c : BitVec 8) (a : BitVec 4) (s : State) : loadFrame s (loadOrResume c a s).state := by
  rcases loadOrResume_cases c a s with ⟨_, h⟩ | ⟨_, u, _, hpol, h⟩ | ⟨_, u, _, hpol, h⟩ <;> rw [h] <;> simp only [Polled.state]
  · rfl
  · exact loadFrame_of_onlyPolled hpol
  · exact loadFrame_trans (loadFrame_of_onlyPolled hpol)
      (loadFrame_trans (evictOwner_loadFrame u) (bringIn_loadFrame c a _))

/-- The writes LoadOrResume makes on the port (R195; 20_memory R81). -/
theorem loadOrResume_writes {c : BitVec 8} {a : BitVec 4} {s t : State} (h : Store.wf s.store)
    (hl : loadOrResume c a s = .ok t) :
    portWrites t.portLog.reverse = portWrites s.portLog.reverse ++ loadWrites s a c := by
  rcases loadOrResume_ok hl with ⟨ho, rfl⟩ | ⟨ho, u, hp, hpol, rfl⟩
  · simp [loadWrites, ho]
  · have hs := loadOrResume_slotGet (c := c) (y := c) (a := a) h (fun _ => rfl) (f := .stat) trivial
    rw [hl] at hs
    simp only [Polled.state] at hs
    have hstat : (evictOwner u).slotGet c .stat = s.slotGet c .stat := by
      rw [← hs]
      exact slotGet_congr (by rw [bringIn_store]) (by simp) c .stat
    have hcfg : (evictOwner u).cfg = s.cfg := by simp [onlyPolled_cfg hpol]
    have hsh : (evictOwner u).shadow c = s.shadow c := by
      apply shadow_eq_of_read hcfg
      intro k hk
      have := loadOrResume_read (c := c) (y := c) (a := a) h (fun _ => rfl) (k := k)
        (by rw [slotWords_eq]; rw [contextWords_eq] at hk; omega)
      rw [hl] at this
      simpa [Polled.state, bringIn_store] using this
    have hpw : portWrites u.portLog.reverse = portWrites s.portLog.reverse := by
      have := pollReady_writes .ready s
      rwa [hp] at this
    rw [bringIn_log, List.reverse_append, portWrites_append, evictOwner_writes, hpw, hstat, hsh, hcfg, List.reverse_reverse]
    congr 1
    unfold loadWrites
    rw [if_neg ho]
    split
    · exact portWrites_zipWith_writes _ _
    · rfl

/-- After an OK, PR is defined or the slot was already the owner (10_state R55). -/
theorem loadOrResume_prDefined {c : BitVec 8} {a : BitVec 4} {s t : State} (hl : loadOrResume c a s = .ok t) :
    t.prDefined = true ∨ (s.owner = some c ∧ t = s) := by
  rcases loadOrResume_ok hl with h | ⟨_, u, _, _, rfl⟩
  · exact .inr h
  · left
    unfold bringIn
    split <;> rfl

/-- The previous owner is saved whole (R186). -/
theorem loadOrResume_saved {c : BitVec 8} {a : BitVec 4} {s t : State} (h : Store.wf s.store)
    (ha : s.periph.pr.acc.length = s.cfg.accWords) (hl : loadOrResume c a s = .ok t) : ownerSaved c s t := by
  intro o ho hoc
  rcases loadOrResume_ok hl with ⟨ho', rfl⟩ | ⟨_, u, _, hpol, rfl⟩
  · rw [ho] at ho'
    exact absurd (by simpa using ho') hoc
  · have hou : u.owner = some o := by rw [onlyPolled_owner hpol]; exact ho
    have := evictOwner_saved (s := u) (by rwa [onlyPolled_store hpol]) (by rwa [onlyPolled_periph hpol, onlyPolled_cfg hpol]) hou
    have e : ∀ f, (bringIn c a (evictOwner u)).slotGet o f = (evictOwner u).slotGet o f :=
      fun f => slotGet_congr (bringIn_store _ _ _) (bringIn_cfg _ _ _) o f
    have e2 : (bringIn c a (evictOwner u)).shadow o = (evictOwner u).shadow o :=
      shadow_congr (bringIn_store _ _ _) (bringIn_cfg _ _ _) o
    rw [e, e, e, e, e2]
    rw [onlyPolled_periph hpol, onlyPolled_slotGet hpol, onlyPolled_slotGet hpol, onlyPolled_slotGet hpol,
      onlyPolled_slotGet hpol] at this
    exact this

/-- Every word outside the previous owner's slot stays (20_memory R73). -/
theorem loadOrResume_outside {c : BitVec 8} {a : BitVec 4} {s t : State} (h : Store.wf s.store)
    (hl : loadOrResume c a s = .ok t) {x : Nat} (hx : ∀ o, s.owner = some o → o ≠ c → ¬ inSlot s o x) :
    Store.read t.store x = Store.read s.store x := by
  rcases loadOrResume_ok hl with ⟨_, rfl⟩ | ⟨ho, u, _, hpol, rfl⟩
  · rfl
  · rw [bringIn_store, evictOwner_outside (by rwa [onlyPolled_store hpol]), onlyPolled_store hpol]
    intro o hou
    rw [onlyPolled_owner hpol] at hou
    have := hx o hou (fun e => ho (e ▸ hou))
    unfold inSlot at *
    rwa [onlyPolled_cfg hpol]

theorem loadOrResume_othersKept {c : BitVec 8} {a : BitVec 4} {s t : State} (h : Store.wf s.store)
    (hl : loadOrResume c a s = .ok t) : othersKept c s t :=
  fun _ _ ho => loadOrResume_outside h hl fun o ho' _ => ho o ho'

/-! ## Frames through later writes of slot `c` -/

theorem not_inSlot_other {s : State} {c o : BitVec 8} (h : o ≠ c) {k : Nat} (hk : k < s.cfg.slotWords) :
    ¬ inSlot s c (slotAddr s.cfg o + k) := by
  rintro ⟨h1, h2⟩
  exact slot_disjoint (c := s.cfg) h hk (k := slotAddr s.cfg o + k - slotAddr s.cfg c) (by omega) (by omega)

/-- A saved owner stays saved while only slot `c` is written. -/
theorem ownerSaved_touches {c : BitVec 8} {s t u : State} (hw : Store.wf t.store) (h : ownerSaved c s t)
    (ht : Touches c t u) : ownerSaved c s u := by
  intro o ho hoc
  have := h o ho hoc
  rw [touches_shadow ht hw hoc, touches_slotGet ht hw hoc (f := .stat) trivial, touches_slotGet ht hw hoc (f := .buf) trivial,
    touches_slotGet ht hw hoc (f := .bufLen) trivial, touches_slotGet ht hw hoc (f := .loLen) trivial]
  exact this

/-- The other slots stay while only slot `c` is written. -/
theorem othersKept_touches {c : BitVec 8} {s t u : State} (hc : t.cfg = s.cfg) (hw : Store.wf t.store)
    (h : othersKept c s t) (ht : Touches c t u) : othersKept c s u := by
  intro x hx ho
  rw [ht.outside hw x (by unfold inSlot at hx; rw [hc]; omega), h x hx ho]

/-- What latching the algorithm does to the fields of its slot (41_session_lifecycle R155). -/
theorem activate_get {c : BitVec 8} {s : State} (h : Store.wf s.store) (shv : Bool) (a : BitVec 4) (g : Field)
    (hg : g.isWord = true) :
    (activate c shv a s).slotGet c g = if g = .stat then mkStat .active shv true a else s.slotGet c g :=
  slotPut_get h c (f := .stat) rfl _ g hg

theorem activate_shadowKept {c : BitVec 8} {s : State} (h : Store.wf s.store) (shv : Bool) (a : BitVec 4) :
    shadowKept c s (activate c shv a s) := shadowKept_slotPut h c rfl _

/-- The pending bytes of a slot, from its lanes. -/
theorem pendingBytes_of_lanes {t : State} {c : BitVec 8} {l : List Byte} (hl : (t.slotGet c .bufLen).toNat = l.length)
    (h3 : l.length ≤ 3) (h : ∀ b < l.length, lane t.cfg.byteOrder (t.slotGet c .buf) b = l.getD b 0#8) :
    pendingBytes t c = l := by
  apply List.ext_getElem
  · rw [pendingBytes_length (by omega), hl]
  · intro i h1 h2
    have e := pendingBytes_getD (s := t) (c := c) (b := i) (by omega) (by omega)
    rw [h i h2, List.getD_eq_getElem?_getD, List.getD_eq_getElem?_getD, List.getElem?_eq_getElem h1,
      List.getElem?_eq_getElem h2] at e
    simpa using e

/-- A responsive peripheral lets LoadOrResume end OK, and is responsive for the polls that follow (R185; 10_state R54). -/
theorem loadOrResume_of_responsive {fs : List Flag} (c : BitVec 8) (a : BitVec 4) {s : State}
    (h : responsive (swapPolls s c ++ fs) s) : ∃ t, loadOrResume c a s = .ok t ∧ responsive fs t := by
  by_cases ho : s.owner = some c
  · exact ⟨s, by simp [loadOrResume, ho], by simpa [swapPolls, ho] using h⟩
  · obtain ⟨u, hu, hpol, hr⟩ := responsive_poll (f := .ready) (fs := fs) (by simpa [swapPolls, ho] using h)
    refine ⟨bringIn c a (evictOwner u), by simp [loadOrResume, ho, hu], ?_⟩
    refine responsive_congr (by simp) ?_ ?_ hr
    · have e1 : (bringIn c a (evictOwner u)).flagSamples = (evictOwner u).flagSamples := by unfold bringIn; split <;> rfl
      have e2 : (evictOwner u).flagSamples = u.flagSamples := by unfold evictOwner; split <;> rfl
      rw [e1, e2]
    · have e1 : (bringIn c a (evictOwner u)).draws = (evictOwner u).draws := by unfold bringIn; split <;> rfl
      have e2 : (evictOwner u).draws = u.draws := by unfold evictOwner; split <;> rfl
      rw [e1, e2]

end Sys2Proof.Machine
end

