-- ==== Sys2Proof/Laws/Finish.lean ====
section
/-! SUPPORT. Flushing and draining at HFINAL (43_word_submission R215 to R218) and giving the unit over at AINIT
(44_cipher_adapter R233, R236), each said once. -/

namespace Sys2Proof.Machine

/-- Everything the flush can do: nothing when nothing is buffered, else one submission and its poll (R215). -/
theorem flushPartial_cases (c : BitVec 8) (s : State) :
    (s.slotGet c .bufLen = 0#32 ∧ flushPartial c s = .ok s) ∨
    (s.slotGet c .bufLen ≠ 0#32 ∧ flushPartial c s = pollReady .ready (submitted c s)) := by
  unfold flushPartial
  split
  · rename_i h
    exact .inl ⟨h, rfl⟩
  · rename_i h
    exact .inr ⟨h, submitBuffer_eq c s⟩

/-- The flush writes slot `c` only. -/
theorem flushPartial_touches (c : BitVec 8) (s : State) : Touches c s (flushPartial c s).state := by
  rcases flushPartial_cases c s with ⟨_, h⟩ | ⟨_, h⟩ <;> rw [h]
  · exact touches_refl c s
  · exact touches_trans (submitted_touches c s) (onlyPolled_touches (pollReady_onlyPolled _ _) c)

/-- The flush changes nothing beside the store that the word path does not change. -/
theorem flushPartial_frame (c : BitVec 8) (s : State) : wordFrame s (flushPartial c s).state := by
  rcases flushPartial_cases c s with ⟨_, h⟩ | ⟨_, h⟩ <;> rw [h]
  · exact wordFrame_refl s
  · exact wordFrame_trans (t := submitted c s) rfl (wordFrame_of_onlyPolled (pollReady_onlyPolled _ _))

/-- How a drain ends OK: the flush is OK, then the length is written and P.DREADY seen (R216, R218). -/
theorem hfinalDrain_ok {a : BitVec 4} {c : BitVec 8} {s t : State} (h : hfinalDrain a c s = .ok t) :
    ∃ u, flushPartial c s = .ok u ∧ pollReady .dready (finalize a (u.slotGet c .loLen) u) = .ok t := by
  unfold hfinalDrain at h
  split at h
  · cases h
  · rename_i u hu
    exact ⟨u, hu, h⟩

/-- How a drain times out: at the flush, or waiting for the digest (41_session_lifecycle R171). -/
theorem hfinalDrain_timeout {a : BitVec 4} {c : BitVec 8} {s t : State} (h : hfinalDrain a c s = .timeout t) :
    flushPartial c s = .timeout t ∨
    ∃ u, flushPartial c s = .ok u ∧ pollReady .dready (finalize a (u.slotGet c .loLen) u) = .timeout t := by
  unfold hfinalDrain at h
  split at h
  · rename_i u hu
    cases h
    exact .inl hu
  · rename_i u hu
    exact .inr ⟨u, hu, h⟩

/-- A drain writes slot `c` only. -/
theorem hfinalDrain_touches (a : BitVec 4) (c : BitVec 8) (s : State) : Touches c s (hfinalDrain a c s).state := by
  have hf := flushPartial_touches c s
  unfold hfinalDrain
  split
  · rename_i u hu
    rw [hu] at hf
    exact hf
  · rename_i u hu
    rw [hu] at hf
    exact touches_trans hf (touches_trans (t := finalize a (u.slotGet c .loLen) u) (touches_of_same rfl rfl)
      (onlyPolled_touches (pollReady_onlyPolled _ _) c))

/-- Everything the eviction at AINIT can do (R233, R236). -/
theorem evictForCipher_cases (s : State) :
    (s.owner = none ∧ evictForCipher s = .ok s.unspecifyPR) ∨
    (∃ t s', s.owner = some t ∧ pollReady .ready s = .timeout s' ∧ onlyPolled s s' ∧ evictForCipher s = .timeout s') ∨
    (∃ t s', s.owner = some t ∧ pollReady .ready s = .ok s' ∧ onlyPolled s s' ∧
      evictForCipher s = .ok (captureInto t s').releaseUnit) := by
  unfold evictForCipher
  cases ho : s.owner with
  | none => exact .inl ⟨rfl, rfl⟩
  | some t =>
    cases hp : pollReady .ready s with
    | ok s' => exact .inr (.inr ⟨t, s', rfl, rfl, pollReady_ok hp, rfl⟩)
    | timeout s' => exact .inr (.inl ⟨t, s', rfl, rfl, pollReady_timeout hp, rfl⟩)

/-- The aftermath of a data-phase Timeout: slot `c` is filled with free values, the unit is released, and Timeout is
answered (60_exceptions R263). -/
theorem dataPhaseTimeout_eq (opc : BitVec 4) (c : BitVec 8) (s : State) :
    dataPhaseTimeout opc c s =
      answered (responseHeader opc .timeout c 0#8) [] (s.unspecifySlot c).releaseUnit := rfl

end Sys2Proof.Machine
end

