-- ==== Sys2Proof/Laws/Header.lean ====
section
/-! SUPPORT. The fields of a header (30_encoding R101): a header is its fields, and a row of the opcode table selects a
header by its fields (R125). -/

namespace Sys2Proof

/-- Bit `i` of a header (30_encoding R101). -/
theorem mkHeader_getLsbD (o a : BitVec 4) (c d : BitVec 8) (s : BitVec 1) (i : Nat) :
    (mkHeader o a c d s).getLsbD i =
      if i < 1 then s.getLsbD i else if i < 8 then false else if i < 16 then d.getLsbD (i - 8)
      else if i < 24 then c.getLsbD (i - 16) else if i < 28 then a.getLsbD (i - 24) else o.getLsbD (i - 28) := by
  show BitVec.getLsbD (w := 4 + 4 + 8 + 8 + 7 + 1) _ i = _
  unfold mkHeader
  simp only [BitVec.getLsbD_append]
  repeat' split
  all_goals first | omega | (congr 1; omega) | simp | rfl

theorem extractLsb'_of_bits {n : Nat} {k : Nat} {x : BitVec n} {h : Word} (hx : ∀ i < n, h.getLsbD (k + i) = x.getLsbD i) :
    h.extractLsb' k n = x := by
  apply BitVec.eq_of_getLsbD_eq
  intro i hi
  rw [BitVec.getLsbD_extractLsb', hx i hi]
  simp [hi]

@[simp] theorem hdrOpc_mk (o a : BitVec 4) (c d : BitVec 8) (s : BitVec 1) : hdrOpc (mkHeader o a c d s) = o := by
  apply extractLsb'_of_bits
  intro i hi
  rw [mkHeader_getLsbD]
  repeat' split
  all_goals first | omega | (congr 1; omega)

@[simp] theorem hdrAlg_mk (o a : BitVec 4) (c d : BitVec 8) (s : BitVec 1) : hdrAlg (mkHeader o a c d s) = a := by
  apply extractLsb'_of_bits
  intro i hi
  rw [mkHeader_getLsbD]
  repeat' split
  all_goals first | omega | (congr 1; omega)

@[simp] theorem hdrCtx_mk (o a : BitVec 4) (c d : BitVec 8) (s : BitVec 1) : hdrCtx (mkHeader o a c d s) = c := by
  apply extractLsb'_of_bits
  intro i hi
  rw [mkHeader_getLsbD]
  repeat' split
  all_goals first | omega | (congr 1; omega)

@[simp] theorem hdrDsz_mk (o a : BitVec 4) (c d : BitVec 8) (s : BitVec 1) : hdrDsz (mkHeader o a c d s) = d := by
  apply extractLsb'_of_bits
  intro i hi
  rw [mkHeader_getLsbD]
  repeat' split
  all_goals first | omega | (congr 1; omega)

@[simp] theorem hdrShape_mk (o a : BitVec 4) (c d : BitVec 8) (s : BitVec 1) : hdrShape (mkHeader o a c d s) = s := by
  apply extractLsb'_of_bits
  intro i hi
  rw [mkHeader_getLsbD]
  repeat' split
  all_goals first | omega | (congr 1; omega)

@[simp] theorem hdrRsv_mk (o a : BitVec 4) (c d : BitVec 8) (s : BitVec 1) : hdrRsv (mkHeader o a c d s) = 0#7 := by
  apply extractLsb'_of_bits
  intro i hi
  rw [mkHeader_getLsbD]
  repeat' split
  all_goals first | omega | simp

/-- Two headers with the same fields are equal. -/
theorem header_ext {g h : Word} (h1 : hdrOpc g = hdrOpc h) (h2 : hdrAlg g = hdrAlg h) (h3 : hdrCtx g = hdrCtx h)
    (h4 : hdrDsz g = hdrDsz h) (h5 : hdrRsv g = hdrRsv h) (h6 : hdrShape g = hdrShape h) : g = h := by
  apply BitVec.eq_of_getLsbD_eq
  intro i hi
  have key : ∀ (k n : Nat), g.extractLsb' k n = h.extractLsb' k n → k ≤ i → i < k + n → g.getLsbD i = h.getLsbD i := by
    intro k n e hk hn
    have := congrArg (fun x => x.getLsbD (i - k)) e
    simp only [BitVec.getLsbD_extractLsb'] at this
    have e1 : i - k < n := by omega
    have e2 : k + (i - k) = i := by omega
    simpa [e1, e2] using this
  rcases (by omega : i < 1 ∨ (1 ≤ i ∧ i < 8) ∨ (8 ≤ i ∧ i < 16) ∨ (16 ≤ i ∧ i < 24) ∨ (24 ≤ i ∧ i < 28) ∨ 28 ≤ i) with
    hh | hh | hh | hh | hh | hh
  · exact key 0 1 h6 (by omega) (by omega)
  · exact key 1 7 h5 (by omega) (by omega)
  · exact key 8 8 h4 (by omega) (by omega)
  · exact key 16 8 h3 (by omega) (by omega)
  · exact key 24 4 h2 (by omega) (by omega)
  · exact key 28 4 h1 (by omega) (by omega)

/-- Masking a field: the masked header agrees with the pattern iff the fields the mask covers do. -/
theorem masked_iff (h m p : Word) : h &&& m = p ↔
    (hdrOpc h &&& hdrOpc m = hdrOpc p ∧ hdrAlg h &&& hdrAlg m = hdrAlg p ∧ hdrCtx h &&& hdrCtx m = hdrCtx p ∧
     hdrDsz h &&& hdrDsz m = hdrDsz p ∧ hdrRsv h &&& hdrRsv m = hdrRsv p ∧ hdrShape h &&& hdrShape m = hdrShape p) := by
  have e : ∀ k n, (h &&& m).extractLsb' k n = h.extractLsb' k n &&& m.extractLsb' k n := fun k n => BitVec.extractLsb'_and
  constructor
  · rintro rfl
    simp [hdrOpc, hdrAlg, hdrCtx, hdrDsz, hdrRsv, hdrShape, e]
  · rintro ⟨h1, h2, h3, h4, h5, h6⟩
    apply header_ext <;> simpa [hdrOpc, hdrAlg, hdrCtx, hdrDsz, hdrRsv, hdrShape, e]

/-! ## The rows of the opcode table (R125) -/

/-- The DETECT row selects exactly the headers with these fields (30_encoding R125). -/
theorem selects_detect (h : Word) : h &&& 0xFFFFFFFF#32 = 0x10000000#32 ↔
    hdrOpc h = 1#4 ∧ hdrAlg h = 0#4 ∧ hdrCtx h = 0#8 ∧ hdrDsz h = 0#8 ∧ hdrRsv h = 0#7 ∧ hdrShape h = 0#1 := by
  rw [masked_iff, show hdrOpc 0xFFFFFFFF#32 = BitVec.allOnes 4 by decide,
    show hdrOpc 0x10000000#32 = 1#4 by decide,
    show hdrAlg 0xFFFFFFFF#32 = BitVec.allOnes 4 by decide,
    show hdrAlg 0x10000000#32 = 0#4 by decide,
    show hdrCtx 0xFFFFFFFF#32 = BitVec.allOnes 8 by decide,
    show hdrCtx 0x10000000#32 = 0#8 by decide,
    show hdrDsz 0xFFFFFFFF#32 = BitVec.allOnes 8 by decide,
    show hdrDsz 0x10000000#32 = 0#8 by decide,
    show hdrRsv 0xFFFFFFFF#32 = BitVec.allOnes 7 by decide,
    show hdrRsv 0x10000000#32 = 0#7 by decide,
    show hdrShape 0xFFFFFFFF#32 = BitVec.allOnes 1 by decide,
    show hdrShape 0x10000000#32 = 0#1 by decide]
  simp only [BitVec.and_allOnes]

/-- The HINIT row selects exactly the headers with these fields (30_encoding R125). -/
theorem selects_hinit (h : Word) : h &&& 0xFF00FFFF#32 = 0x20000000#32 ↔
    hdrOpc h = 2#4 ∧ hdrAlg h = 0#4 ∧ hdrDsz h = 0#8 ∧ hdrRsv h = 0#7 ∧ hdrShape h = 0#1 := by
  rw [masked_iff, show hdrOpc 0xFF00FFFF#32 = BitVec.allOnes 4 by decide,
    show hdrOpc 0x20000000#32 = 2#4 by decide,
    show hdrAlg 0xFF00FFFF#32 = BitVec.allOnes 4 by decide,
    show hdrAlg 0x20000000#32 = 0#4 by decide,
    show hdrCtx 0xFF00FFFF#32 = 0#8 by decide,
    show hdrCtx 0x20000000#32 = 0#8 by decide,
    show hdrDsz 0xFF00FFFF#32 = BitVec.allOnes 8 by decide,
    show hdrDsz 0x20000000#32 = 0#8 by decide,
    show hdrRsv 0xFF00FFFF#32 = BitVec.allOnes 7 by decide,
    show hdrRsv 0x20000000#32 = 0#7 by decide,
    show hdrShape 0xFF00FFFF#32 = BitVec.allOnes 1 by decide,
    show hdrShape 0x20000000#32 = 0#1 by decide]
  simp only [BitVec.and_allOnes, BitVec.and_zero, true_and]

/-- The HUPDATE row selects exactly the headers with these fields (30_encoding R125). -/
theorem selects_hupdate (h : Word) : h &&& 0xF000FFFF#32 = 0x30000000#32 ↔
    hdrOpc h = 3#4 ∧ hdrDsz h = 0#8 ∧ hdrRsv h = 0#7 ∧ hdrShape h = 0#1 := by
  rw [masked_iff, show hdrOpc 0xF000FFFF#32 = BitVec.allOnes 4 by decide,
    show hdrOpc 0x30000000#32 = 3#4 by decide,
    show hdrAlg 0xF000FFFF#32 = 0#4 by decide,
    show hdrAlg 0x30000000#32 = 0#4 by decide,
    show hdrCtx 0xF000FFFF#32 = 0#8 by decide,
    show hdrCtx 0x30000000#32 = 0#8 by decide,
    show hdrDsz 0xF000FFFF#32 = BitVec.allOnes 8 by decide,
    show hdrDsz 0x30000000#32 = 0#8 by decide,
    show hdrRsv 0xF000FFFF#32 = BitVec.allOnes 7 by decide,
    show hdrRsv 0x30000000#32 = 0#7 by decide,
    show hdrShape 0xF000FFFF#32 = BitVec.allOnes 1 by decide,
    show hdrShape 0x30000000#32 = 0#1 by decide]
  simp only [BitVec.and_allOnes, BitVec.and_zero, true_and]

/-- The HFINAL row selects exactly the headers with these fields (30_encoding R125). -/
theorem selects_hfinal (h : Word) : h &&& 0xF00000FF#32 = 0x40000000#32 ↔
    hdrOpc h = 4#4 ∧ hdrRsv h = 0#7 ∧ hdrShape h = 0#1 := by
  rw [masked_iff, show hdrOpc 0xF00000FF#32 = BitVec.allOnes 4 by decide,
    show hdrOpc 0x40000000#32 = 4#4 by decide,
    show hdrAlg 0xF00000FF#32 = 0#4 by decide,
    show hdrAlg 0x40000000#32 = 0#4 by decide,
    show hdrCtx 0xF00000FF#32 = 0#8 by decide,
    show hdrCtx 0x40000000#32 = 0#8 by decide,
    show hdrDsz 0xF00000FF#32 = 0#8 by decide,
    show hdrDsz 0x40000000#32 = 0#8 by decide,
    show hdrRsv 0xF00000FF#32 = BitVec.allOnes 7 by decide,
    show hdrRsv 0x40000000#32 = 0#7 by decide,
    show hdrShape 0xF00000FF#32 = BitVec.allOnes 1 by decide,
    show hdrShape 0x40000000#32 = 0#1 by decide]
  simp only [BitVec.and_allOnes, BitVec.and_zero, true_and]

/-- The CLOAD row selects exactly the headers with these fields (30_encoding R125). -/
theorem selects_cload (h : Word) : h &&& 0xF000FFFF#32 = 0x50000000#32 ↔
    hdrOpc h = 5#4 ∧ hdrDsz h = 0#8 ∧ hdrRsv h = 0#7 ∧ hdrShape h = 0#1 := by
  rw [masked_iff, show hdrOpc 0xF000FFFF#32 = BitVec.allOnes 4 by decide,
    show hdrOpc 0x50000000#32 = 5#4 by decide,
    show hdrAlg 0xF000FFFF#32 = 0#4 by decide,
    show hdrAlg 0x50000000#32 = 0#4 by decide,
    show hdrCtx 0xF000FFFF#32 = 0#8 by decide,
    show hdrCtx 0x50000000#32 = 0#8 by decide,
    show hdrDsz 0xF000FFFF#32 = BitVec.allOnes 8 by decide,
    show hdrDsz 0x50000000#32 = 0#8 by decide,
    show hdrRsv 0xF000FFFF#32 = BitVec.allOnes 7 by decide,
    show hdrRsv 0x50000000#32 = 0#7 by decide,
    show hdrShape 0xF000FFFF#32 = BitVec.allOnes 1 by decide,
    show hdrShape 0x50000000#32 = 0#1 by decide]
  simp only [BitVec.and_allOnes, BitVec.and_zero, true_and]

/-- The CSAVE row selects exactly the headers with these fields (30_encoding R125). -/
theorem selects_csave (h : Word) : h &&& 0xFF00FFFF#32 = 0x60000000#32 ↔
    hdrOpc h = 6#4 ∧ hdrAlg h = 0#4 ∧ hdrDsz h = 0#8 ∧ hdrRsv h = 0#7 ∧ hdrShape h = 0#1 := by
  rw [masked_iff, show hdrOpc 0xFF00FFFF#32 = BitVec.allOnes 4 by decide,
    show hdrOpc 0x60000000#32 = 6#4 by decide,
    show hdrAlg 0xFF00FFFF#32 = BitVec.allOnes 4 by decide,
    show hdrAlg 0x60000000#32 = 0#4 by decide,
    show hdrCtx 0xFF00FFFF#32 = 0#8 by decide,
    show hdrCtx 0x60000000#32 = 0#8 by decide,
    show hdrDsz 0xFF00FFFF#32 = BitVec.allOnes 8 by decide,
    show hdrDsz 0x60000000#32 = 0#8 by decide,
    show hdrRsv 0xFF00FFFF#32 = BitVec.allOnes 7 by decide,
    show hdrRsv 0x60000000#32 = 0#7 by decide,
    show hdrShape 0xFF00FFFF#32 = BitVec.allOnes 1 by decide,
    show hdrShape 0x60000000#32 = 0#1 by decide]
  simp only [BitVec.and_allOnes, BitVec.and_zero, true_and]

/-- The AINIT row selects exactly the headers with these fields (30_encoding R125). -/
theorem selects_ainit (h : Word) : h &&& 0xF000FFFE#32 = 0x70000000#32 ↔
    hdrOpc h = 7#4 ∧ hdrDsz h = 0#8 ∧ hdrRsv h = 0#7 := by
  rw [masked_iff, show hdrOpc 0xF000FFFE#32 = BitVec.allOnes 4 by decide,
    show hdrOpc 0x70000000#32 = 7#4 by decide,
    show hdrAlg 0xF000FFFE#32 = 0#4 by decide,
    show hdrAlg 0x70000000#32 = 0#4 by decide,
    show hdrCtx 0xF000FFFE#32 = 0#8 by decide,
    show hdrCtx 0x70000000#32 = 0#8 by decide,
    show hdrDsz 0xF000FFFE#32 = BitVec.allOnes 8 by decide,
    show hdrDsz 0x70000000#32 = 0#8 by decide,
    show hdrRsv 0xF000FFFE#32 = BitVec.allOnes 7 by decide,
    show hdrRsv 0x70000000#32 = 0#7 by decide,
    show hdrShape 0xF000FFFE#32 = 0#1 by decide,
    show hdrShape 0x70000000#32 = 0#1 by decide]
  simp only [BitVec.and_allOnes, BitVec.and_zero, true_and, and_true]

/-- Looking a header up in the opcode table, row by row (30_encoding R125). -/
theorem selectRow_eq (h : Word) : selectRow h =
    if h &&& 0xFFFFFFFF#32 = 0x10000000#32 then some .detect
    else if h &&& 0xFF00FFFF#32 = 0x20000000#32 then some .hinit
    else if h &&& 0xF000FFFF#32 = 0x30000000#32 then some .hupdate
    else if h &&& 0xF00000FF#32 = 0x40000000#32 then some .hfinal
    else if h &&& 0xF000FFFF#32 = 0x50000000#32 then some .cload
    else if h &&& 0xFF00FFFF#32 = 0x60000000#32 then some .csave
    else if h &&& 0xF000FFFE#32 = 0x70000000#32 then some .ainit
    else none := by
  unfold selectRow opcodeTable
  simp only [List.find?_cons, List.find?_nil, Row.selects, beq_eq_decide]
  repeat' split
  all_goals simp_all

/-- What the fields of a header are when it selects a row (30_encoding R115, R125). -/
def rowFields : Op → Word → Prop
  | .detect, h => hdrOpc h = 1#4 ∧ hdrAlg h = 0#4 ∧ hdrCtx h = 0#8 ∧ hdrDsz h = 0#8 ∧ hdrRsv h = 0#7 ∧ hdrShape h = 0#1
  | .hinit, h => hdrOpc h = 2#4 ∧ hdrAlg h = 0#4 ∧ hdrDsz h = 0#8 ∧ hdrRsv h = 0#7 ∧ hdrShape h = 0#1
  | .hupdate, h => hdrOpc h = 3#4 ∧ hdrDsz h = 0#8 ∧ hdrRsv h = 0#7 ∧ hdrShape h = 0#1
  | .hfinal, h => hdrOpc h = 4#4 ∧ hdrRsv h = 0#7 ∧ hdrShape h = 0#1
  | .cload, h => hdrOpc h = 5#4 ∧ hdrDsz h = 0#8 ∧ hdrRsv h = 0#7 ∧ hdrShape h = 0#1
  | .csave, h => hdrOpc h = 6#4 ∧ hdrAlg h = 0#4 ∧ hdrDsz h = 0#8 ∧ hdrRsv h = 0#7 ∧ hdrShape h = 0#1
  | .ainit, h => hdrOpc h = 7#4 ∧ hdrDsz h = 0#8 ∧ hdrRsv h = 0#7

/-- A header selects a row exactly when its fields are that row's. -/
theorem selectRow_iff (h : Word) (op : Op) : selectRow h = some op ↔ rowFields op h := by
  rw [selectRow_eq]
  simp only [selects_detect, selects_hinit, selects_hupdate, selects_hfinal, selects_cload, selects_csave, selects_ainit]
  cases op <;> simp only [rowFields] <;> constructor <;> intro e
  all_goals first
    | (repeat' split at e)
      all_goals first | assumption | simp at e
    | (obtain ⟨e1, e⟩ := e; simp [e1, e])

end Sys2Proof
end

