-- ==== Sys2Proof/Laws/Packets.lean ====
section
/-! SUPPORT. Framing and decoding of packets (30_encoding R104, R125), said once: what an accepted decode says, and how
long the packet of a command is. -/

namespace Sys2Proof

theorem packetWords_pos {ws : List Word} {n : Nat} (h : packetWords ws = some n) : 0 < n := by
  unfold packetWords at h
  split at h
  · cases h
  · split at h
    · split at h <;> cases h
      omega
    · split at h
      · split at h
        · cases h
        · split at h
          · cases h
            omega
          · split at h <;> cases h
            omega
      · cases h
        omega

/-- Everything an accepted decode says. -/
theorem decode_command {ws packet rest : List Word} {i : Instr} (h : decode ws = .command i packet rest) :
    ∃ n op, packetWords ws = some n ∧ n ≤ ws.length ∧ selectRow (ws.getD 0 0#32) = some op ∧
      packet = ws.take n ∧ rest = ws.drop n ∧ i = decodeOp op packet := by
  unfold decode at h
  split at h
  · cases h
  · rename_i n hn
    split at h
    · cases h
    · rename_i hl
      simp only at h
      split at h
      · rename_i op hop
        cases h
        exact ⟨n, op, hn, by omega, hop, rfl, rfl, rfl⟩
      · cases h

/-- Everything a refused header says. -/
theorem decode_illFormed {ws packet rest : List Word} {why : IllFormed} (h : decode ws = .illFormed why packet rest) :
    ∃ n, packetWords ws = some n ∧ n ≤ ws.length ∧ selectRow (ws.getD 0 0#32) = none ∧
      packet = ws.take n ∧ rest = ws.drop n ∧ why = illFormedWhy (ws.getD 0 0#32) := by
  unfold decode at h
  split at h
  · cases h
  · rename_i n hn
    split at h
    · cases h
    · rename_i hl
      simp only at h
      split at h
      · cases h
      · rename_i hop
        cases h
        exact ⟨n, hn, by omega, hop, rfl, rfl, rfl⟩

/-- A stream that begins with a whole packet whose header selects a row decodes to that row's command. -/
theorem decode_packet {p rest : List Word} {op : Op} (h0 : p ≠ []) (hn : packetWords (p ++ rest) = some p.length)
    (hs : selectRow (p.getD 0 0#32) = some op) : decode (p ++ rest) = .command (decodeOp op p) p rest := by
  have e : (p ++ rest).getD 0 0#32 = p.getD 0 0#32 := by
    cases p with
    | nil => exact absurd rfl h0
    | cons x xs => rfl
  unfold decode
  simp only [hn, e, hs]
  rw [if_neg (by simp)]
  simp

theorem encode_ne_nil (i : Instr) : encode i ≠ [] := by
  cases i with
  | ainit f k b => cases b <;> simp [encode]
  | _ => simp [encode]

/-- The row of the opcode table a command belongs to (30_encoding R102, R125). -/
def rowOf : Instr → Op
  | .detect => .detect
  | .hinit _ => .hinit
  | .hupdate _ _ _ _ => .hupdate
  | .hfinal _ _ _ => .hfinal
  | .cload _ _ => .cload
  | .csave _ => .csave
  | .ainit _ _ _ => .ainit

/-- The header of a command's packet selects the command's row. -/
theorem selectRow_encode (i : Instr) : selectRow ((encode i).getD 0 0#32) = some (rowOf i) := by
  rw [selectRow_iff]
  cases i with
  | ainit f k b => cases b <;> simp [encode, rowOf, rowFields]
  | _ => simp [encode, rowOf, rowFields]

end Sys2Proof
end

