-- ==== Sys2Proof/Laws/PerInstr.lean ====
section
/-! SUPPORT. Families of statements made for every command, one lemma per constructor. -/

/-- The packet of a well-formed command is framed at its own length, whatever follows it in the stream, and its header
selects the command's row (30_encoding R104, R125). -/
def Sys2Proof.Laws.HeaderRow.Statement (i : Sys2Proof.Instr) : Prop :=
  i.wf = true → (∀ rest, Sys2Proof.packetWords (Sys2Proof.encode i ++ rest) = some (Sys2Proof.encode i).length) ∧
    Sys2Proof.selectRow ((Sys2Proof.encode i).getD 0 0#32) = some (Sys2Proof.rowOf i)

open Sys2Proof

theorem Sys2Proof.Laws.HeaderRow.detect : Sys2Proof.Laws.HeaderRow.Statement .detect :=
  fun _ => ⟨fun rest => by simp [encode, packetWords], selectRow_encode _⟩

theorem Sys2Proof.Laws.HeaderRow.hinit (ctx : BitVec 8) : Sys2Proof.Laws.HeaderRow.Statement (.hinit ctx) :=
  fun _ => ⟨fun rest => by simp [encode, packetWords], selectRow_encode _⟩

theorem Sys2Proof.Laws.HeaderRow.hupdate (alg : BitVec 4) (ctx : BitVec 8) (len : Word) (payload : List Word) :
    Sys2Proof.Laws.HeaderRow.Statement (.hupdate alg ctx len payload) := by
  refine fun h => ⟨fun rest => ?_, selectRow_encode _⟩
  have hp : payload.length = payloadWords len := by simpa [Instr.wf] using h
  simp only [encode, packetWords, List.cons_append, hdrOpc_mk, List.length_cons, hp, if_true]
  congr 1
  omega

theorem Sys2Proof.Laws.HeaderRow.hfinal (alg : BitVec 4) (ctx dsz : BitVec 8) :
    Sys2Proof.Laws.HeaderRow.Statement (.hfinal alg ctx dsz) :=
  fun _ => ⟨fun rest => by simp [encode, packetWords], selectRow_encode _⟩

theorem Sys2Proof.Laws.HeaderRow.cload (alg : BitVec 4) (ctx : BitVec 8) :
    Sys2Proof.Laws.HeaderRow.Statement (.cload alg ctx) :=
  fun _ => ⟨fun rest => by simp [encode, packetWords], selectRow_encode _⟩

theorem Sys2Proof.Laws.HeaderRow.csave (ctx : BitVec 8) : Sys2Proof.Laws.HeaderRow.Statement (.csave ctx) :=
  fun _ => ⟨fun rest => by simp [encode, packetWords], selectRow_encode _⟩

theorem Sys2Proof.Laws.HeaderRow.ainit (fam : BitVec 4) (sess : BitVec 8) (blocks : Blocks) :
    Sys2Proof.Laws.HeaderRow.Statement (.ainit fam sess blocks) := by
  refine fun h => ⟨fun rest => ?_, selectRow_encode _⟩
  cases blocks with
  | handle hd =>
    have hl : hd.length < 2 ^ 32 := by simpa [Instr.wf, Blocks.wf] using h
    simp only [encode, packetWords, List.cons_append, hdrOpc_mk, hdrShape_mk, BitVec.toNat_ofNat, Nat.mod_eq_of_lt hl,
      List.length_cons]
    simp
    omega
  | structs g k =>
    have ⟨hg, hk⟩ : g.length < 2 ^ 32 ∧ k.length < 2 ^ 32 := by simpa [Instr.wf, Blocks.wf] using h
    have hd : (g ++ (BitVec.ofNat 32 k.length :: (k ++ rest))).drop g.length = BitVec.ofNat 32 k.length :: (k ++ rest) := by
      simp
    simp only [encode, packetWords, List.cons_append, List.append_assoc, hdrOpc_mk, hdrShape_mk, BitVec.toNat_ofNat,
      Nat.mod_eq_of_lt hg, List.length_cons, List.length_append, hd, Nat.mod_eq_of_lt hk]
    simp
    omega
end

