-- ==== Sys2Proof/Machine/Text.lean ====
section
/-! DEFINITION. The text form of commands and responses (30_encoding R123) and the three pseudo-commands (R124). Text is a
list of characters, read and written structurally. What R123 leaves open of the spelling is log entry 16. -/

namespace Sys2Proof.Machine

/-! ## Tokens -/

/-- The pieces of a line: words, and the punctuation R123 uses. -/
inductive Token where
  | word (w : List Char)
  | comma
  | openBrace
  | closeBrace
deriving DecidableEq, Repr

/-- The characters that open and close a block of AINIT, by their codes. -/
def openBraceChar : Char := Char.ofNat 123
def closeBraceChar : Char := Char.ofNat 125

/-- Close the word read so far, if it has a character. -/
def flushWord (acc : List Char) (ts : List Token) : List Token := if acc.isEmpty then ts else .word acc.reverse :: ts

/-- The tokens of a line, `acc` being the word read so far backwards; a comment runs from a semicolon on (R123). -/
def tokensFrom : List Char → List Char → List Token
  | [], acc => flushWord acc []
  | x :: xs, acc =>
    if x = ';' then flushWord acc []
    else if x = ' ' ∨ x = '\t' then flushWord acc (tokensFrom xs [])
    else if x = ',' then flushWord acc (.comma :: tokensFrom xs [])
    else if x = openBraceChar then flushWord acc (.openBrace :: tokensFrom xs [])
    else if x = closeBraceChar then flushWord acc (.closeBrace :: tokensFrom xs [])
    else tokensFrom xs (x :: acc)

/-- The tokens of a line. -/
def tokens (line : List Char) : List Token := tokensFrom line []

/-! ## Numbers -/

/-- The value of a decimal digit. -/
def decDigit (x : Char) : Option Nat := if 48 ≤ x.toNat ∧ x.toNat ≤ 57 then some (x.toNat - 48) else none

/-- The value of a hexadecimal digit, either case. -/
def hexDigit (x : Char) : Option Nat :=
  if 48 ≤ x.toNat ∧ x.toNat ≤ 57 then some (x.toNat - 48)
  else if 97 ≤ x.toNat ∧ x.toNat ≤ 102 then some (x.toNat - 87)
  else if 65 ≤ x.toNat ∧ x.toNat ≤ 70 then some (x.toNat - 55)
  else none

/-- Digits in a base, the most significant first, added to what was read before. -/
def digitsFrom (digit : Char → Option Nat) (base : Nat) : List Char → Nat → Option Nat
  | [], n => some n
  | x :: xs, n =>
    match digit x with
    | none => none
    | some d => digitsFrom digit base xs (base * n + d)

/-- A decimal number of at least one digit. -/
def readDec (w : List Char) : Option Nat := if w.isEmpty then none else digitsFrom decDigit 10 w 0

/-- A hexadecimal number, with or without 0x before it. -/
def readHex : List Char → Option Nat
  | [] => none
  | '0' :: 'x' :: w => if w.isEmpty then none else digitsFrom hexDigit 16 w 0
  | w => digitsFrom hexDigit 16 w 0

/-- A number: hexadecimal after 0x, else decimal. -/
def readNumber : List Char → Option Nat
  | '0' :: 'x' :: w => if w.isEmpty then none else digitsFrom hexDigit 16 w 0
  | w => readDec w

/-- `n` as a field of `k` bits, if it fits. -/
def fitBits (k : Nat) (n : Option Nat) : Option (BitVec k) :=
  match n with
  | none => none
  | some n => if n < 2 ^ k then some (BitVec.ofNat k n) else none

/-- An even number of hexadecimal digits as bytes, in order (R123). -/
def readBytes : List Char → Option (List Byte)
  | [] => some []
  | [_] => none
  | x :: y :: rest =>
    match hexDigit x, hexDigit y, readBytes rest with
    | some hi, some lo, some bs => some (BitVec.ofNat 8 (16 * hi + lo) :: bs)
    | _, _, _ => none

/-! ## Operands -/

/-- `c<n>` or `s<n>`: a slot or a session record, the number in decimal (R123). -/
def readIndexed (letter : Char) : List Char → Option (BitVec 8)
  | [] => none
  | x :: w => if x = letter then fitBits 8 (readDec w) else none

/-- `<alg>`: a text name of R109 or a number (R123). -/
def readAlg (w : List Char) : Option (BitVec 4) :=
  if w = ['s', 'h', 'a', '1'] then some 0#4
  else if w = ['m', 'd', '5'] then some 1#4
  else if w = ['s', 'h', 'a', '2', '2', '4'] then some 2#4
  else if w = ['s', 'h', 'a', '2', '5', '6'] then some 3#4
  else fitBits 4 (readNumber w)

/-- `<fam>`: `aes` or a number (R123). -/
def readFam (w : List Char) : Option (BitVec 4) := if w = ['a', 'e', 's'] then some 0#4 else fitBits 4 (readNumber w)

/-- The words of a block up to its closing brace, and the tokens after it: words with a comma between each two (R123). -/
def readBlock : List Token → Option (List Word × List Token)
  | .closeBrace :: rest => some ([], rest)
  | .word w :: .closeBrace :: rest =>
    match fitBits 32 (readHex w) with
    | none => none
    | some v => some ([v], rest)
  | .word w :: .comma :: .word w' :: rest =>
    match fitBits 32 (readHex w), readBlock (.word w' :: rest) with
    | some v, some (vs, rest') => some (v :: vs, rest')
    | _, _ => none
  | _ => none

/-- An HUPDATE of the bytes `bs`: LEN is their number, the payload their packing (R105, R123). -/
def updateOf (o : ByteOrder) (alg : BitVec 4) (ctx : BitVec 8) (bs : List Byte) : Instr :=
  .hupdate alg ctx (BitVec.ofNat 32 bs.length) (packBytes o bs)

/-! ## Lines -/

/-- A line: a command, or a pseudo-command (R123, R124). -/
inductive Line where
  | command (i : Instr)
  /-- `HASH c<n>, <alg>, <hex>, <dsz>` (R124). -/
  | hash (ctx : BitVec 8) (alg : BitVec 4) (data : List Byte) (dsz : BitVec 8)
  /-- `HRESTART c<n>` (R124). -/
  | hrestart (ctx : BitVec 8)
  /-- `SWAPTO c<n>, <alg>` (R124). -/
  | swapto (ctx : BitVec 8) (alg : BitVec 4)
deriving DecidableEq, Repr

/-- The operands of HUPDATE after the slot and the algorithm: hex digits, possibly none (R123). -/
def readHexOperand : List Token → Option (List Byte)
  | [] => some []
  | [.word w] => readBytes w
  | _ => none

/-- The blocks of AINIT (R123): H for SHAPE = 0, G then K for SHAPE = 1. -/
def readBlocks : List Token → Option Blocks
  | .word ['H'] :: .openBrace :: rest =>
    match readBlock rest with
    | some (h, []) => some (.handle h)
    | _ => none
  | .word ['G'] :: .openBrace :: rest =>
    match readBlock rest with
    | some (g, .comma :: .word ['K'] :: .openBrace :: rest') =>
      match readBlock rest' with
      | some (k, []) => some (.structs g k)
      | _ => none
    | _ => none
  | _ => none

/-- HASH's data and digest size (R124): the hex digits may be none. -/
def readHashOperands : List Token → Option (List Byte × BitVec 8)
  | [.comma, .word d] =>
    match fitBits 8 (readDec d) with
    | some dsz => some ([], dsz)
    | none => none
  | [.word w, .comma, .word d] =>
    match readBytes w, fitBits 8 (readDec d) with
    | some bs, some dsz => some (bs, dsz)
    | _, _ => none
  | _ => none

/-- The forms whose only operand is a slot. -/
def readSlotLine (mnemonic : List Char) (c : BitVec 8) : Option Line :=
  if mnemonic = ['H', 'I', 'N', 'I', 'T'] then some (.command (.hinit c))
  else if mnemonic = ['C', 'S', 'A', 'V', 'E'] then some (.command (.csave c))
  else if mnemonic = ['H', 'R', 'E', 'S', 'T', 'A', 'R', 'T'] then some (.hrestart c)
  else none

/-- The forms that begin with a slot and an algorithm; `rest` is what stands after the algorithm. -/
def readAlgLine (o : ByteOrder) (mnemonic : List Char) (c : BitVec 8) (a : BitVec 4) (rest : List Token) : Option Line :=
  if mnemonic = ['C', 'L', 'O', 'A', 'D'] then if rest = [] then some (.command (.cload a c)) else none
  else if mnemonic = ['S', 'W', 'A', 'P', 'T', 'O'] then if rest = [] then some (.swapto c a) else none
  else
    match rest with
    | .comma :: rest =>
      if mnemonic = ['H', 'U', 'P', 'D', 'A', 'T', 'E'] then
        match readHexOperand rest with
        | some bs => some (.command (updateOf o a c bs))
        | none => none
      else if mnemonic = ['H', 'F', 'I', 'N', 'A', 'L'] then
        match rest with
        | [.word d] =>
          match fitBits 8 (readDec d) with
          | some dsz => some (.command (.hfinal a c dsz))
          | none => none
        | _ => none
      else if mnemonic = ['H', 'A', 'S', 'H'] then
        match readHashOperands rest with
        | some (bs, dsz) => some (.hash c a bs dsz)
        | none => none
      else none
    | _ => none

/-- A line of text (R123, R124); none for a line of another form. -/
def readLine (o : ByteOrder) (line : List Char) : Option Line :=
  match tokens line with
  | [.word m] => if m = ['D', 'E', 'T', 'E', 'C', 'T'] then some (.command .detect) else none
  | [.word m, .word c] =>
    match readIndexed 'c' c with
    | some ctx => readSlotLine m ctx
    | none => none
  | .word m :: .word c :: .comma :: .word a :: rest =>
    if m = ['A', 'I', 'N', 'I', 'T'] then
      match readIndexed 's' c, readFam a, rest with
      | some sess, some fam, .comma :: blocks =>
        match readBlocks blocks with
        | some b => some (.command (.ainit fam sess b))
        | none => none
      | _, _, _ => none
    else
      match readIndexed 'c' c, readAlg a with
      | some ctx, some alg => readAlgLine o m ctx alg rest
      | _, _ => none
  | _ => none

/-! ## Expansion (R124) -/

/-- The commands a line stands for (R124). -/
def Line.expand (o : ByteOrder) : Line → List Instr
  | .command i => [i]
  | .hash c a bs d => [.hinit c, updateOf o a c bs, .hfinal a c d]
  | .hrestart c => [.hinit c]
  | .swapto c a => [.cload a c]

/-- STATUS of a response header (30_encoding R111). -/
def statusOf (h : Word) : BitVec 4 := h.extractLsb' 24 4

/-- Issue the commands one after the other; the expansion stops at the first response that is not OK (R124). -/
def runExpansion : List Instr → State → Host.Outcome State Fault Refusal
  | [], s => .next s
  | i :: is, s =>
    match exec i s with
    | .next t => if statusOf (t.responses.getD s.responses.length 0#32) = 0#4 then runExpansion is t else .next t
    | .fault f => .fault f
    | .refused r => .refused r

/-- Run one line of text. -/
def runLine (l : Line) (s : State) : Host.Outcome State Fault Refusal := runExpansion (l.expand s.cfg.byteOrder) s

/-! ## Responses as text (R123) -/

/-- The name of a status code; none for the codes that are never produced (30_encoding R112). -/
def statusName (code : BitVec 4) : Option String :=
  if code = 0#4 then some "OK"
  else if code = 1#4 then some "Timeout"
  else if code = 2#4 then some "UnsupportedDigestSize"
  else if code = 3#4 then some "UnsupportedCipherFamily"
  else if code = 4#4 then some "InvalidState"
  else if code = 5#4 then some "Rejected"
  else none

/-- A digit of hexadecimal text. -/
def hexChar (n : Nat) : Char := if n < 10 then Char.ofNat (48 + n) else Char.ofNat (87 + n)

/-- A byte as two hexadecimal digits. -/
def byteText (b : Byte) : List Char := [hexChar (b.toNat / 16), hexChar (b.toNat % 16)]

/-- PLEN of a response header (30_encoding R111). -/
def plenOf (h : Word) : Nat := (h.extractLsb' 8 8).toNat

/-- A response packet as `-> <STATUSNAME>` and, when there is a payload, its bytes in hex (R123). -/
def responseText (o : ByteOrder) (h : Word) (payload : List Word) : Option (List Char) :=
  match statusName (statusOf h) with
  | none => none
  | some name =>
    let bytes := (bytesOf o (plenOf h) payload).flatMap byteText
    some (['-', '>', ' '] ++ name.toList ++ (if bytes.isEmpty then [] else ' ' :: bytes))

end Sys2Proof.Machine
end

