-- ==== Sys2Proof/Tests/Slice0.lean ====
section
/-! SUPPORT. The model's own tests: ill-formed terms that the well-formedness check refuses, words written out from
30_encoding that decode as the spec says, one-step vectors of 95_test_vectors on the spec's test double T0, and for each
obligation with hypotheses a state and operands that meet them (the theorems named witness). -/

namespace Sys2Proof.Machine

/-! ## Well-formedness: each check refuses something -/

theorem test_wf_payload_short : (Instr.hupdate 0#4 0#8 5#32 [0#32]).wf = false := by decide
theorem test_wf_payload_long : (Instr.hupdate 0#4 0#8 4#32 [0#32, 0#32]).wf = false := by decide
theorem test_wf_payload_exact : (Instr.hupdate 0#4 0#8 5#32 [0#32, 0#32]).wf = true := by decide
theorem test_wf_handle_long (h : List Word) (hl : h.length = 2 ^ 32) : (Instr.ainit 0#4 0#8 (.handle h)).wf = false := by
  simp [Instr.wf, Blocks.wf, hl]
theorem test_wf_generic_long (g : List Word) (hl : g.length = 2 ^ 32) :
    (Instr.ainit 0#4 0#8 (.structs g [0#32])).wf = false := by simp [Instr.wf, Blocks.wf, hl]
theorem test_wf_key_long (k : List Word) (hl : k.length = 2 ^ 32) :
    (Instr.ainit 0#4 0#8 (.structs [0#32] k)).wf = false := by simp [Instr.wf, Blocks.wf, hl]
theorem test_wf_config : Config.baseline.wf = true ∧ { Config.baseline with nctx := 0 }.wf = false ∧
    { Config.baseline with nsess := 257 }.wf = false := by decide

/-! ## Decoding words written out from 30_encoding R101 to R107, R125, R126 and 95_test_vectors section 4 -/

/-- DETECT: OPC 1, all else 0. -/
theorem test_decode_detect : decode [0b0001_0000_00000000_00000000_0000000_0#32] =
    .command .detect [0x10000000#32] [] := by decide
/-- V10: HINIT c3. -/
theorem test_decode_hinit : decode [0b0010_0000_00000011_00000000_0000000_0#32] =
    .command (.hinit 3#8) [0x20030000#32] [] := by decide
/-- V23: HUPDATE c1, sha256, 616263, followed by another packet. -/
theorem test_decode_hupdate : decode [0b0011_0011_00000001_00000000_0000000_0#32, 3#32, 0x00636261#32, 0x10000000#32] =
    .command (.hupdate 3#4 1#8 3#32 [0x00636261#32]) [0x33010000#32, 3#32, 0x00636261#32] [0x10000000#32] := by decide
/-- V15: HFINAL c1, sha256, 32. -/
theorem test_decode_hfinal : decode [0b0100_0011_00000001_00100000_0000000_0#32] =
    .command (.hfinal 3#4 1#8 32#8) [0x43012000#32] [] := by decide
/-- V21 with another slot and algorithm: CLOAD c2, md5. -/
theorem test_decode_cload : decode [0b0101_0001_00000010_00000000_0000000_0#32] =
    .command (.cload 1#4 2#8) [0x51020000#32] [] := by decide
/-- V19: CSAVE c2. -/
theorem test_decode_csave : decode [0b0110_0000_00000010_00000000_0000000_0#32] =
    .command (.csave 2#8) [0x60020000#32] [] := by decide
/-- V29: AINIT s0, aes, one generic word and two key words: six words. -/
theorem test_decode_ainit : decode [0b0111_0000_00000000_00000000_0000000_1#32, 1#32, 7#32, 2#32, 8#32, 9#32] =
    .command (.ainit 0#4 0#8 (.structs [7#32] [8#32, 9#32])) [0x70000001#32, 1#32, 7#32, 2#32, 8#32, 9#32] [] := by decide
/-- V27: an ill-formed HUPDATE is still framed by its length word: three words. -/
theorem test_decode_illformed_framed : decode [0x30000100#32, 4#32, 5#32, 0x10000000#32] =
    .illFormed .fieldNotZero [0x30000100#32, 4#32, 5#32] [0x10000000#32] := by decide
/-- V13, V14: the reserved operation codes. -/
theorem test_decode_reserved : decode [0#32] = .illFormed .reservedOpcode [0#32] [] ∧
    decode [0x8A120000#32] = .illFormed .reservedOpcode [0x8A120000#32] [] := by decide
/-- V30: L1 = 0 is a whole packet of two words; V25: LEN = 0 too. -/
theorem test_decode_empty : decode [0x70000000#32, 0#32] = .command (.ainit 0#4 0#8 (.handle [])) [0x70000000#32, 0#32] [] ∧
    decode [0x31020000#32, 0#32] = .command (.hupdate 1#4 2#8 0#32 []) [0x31020000#32, 0#32] [] := by decide
/-- The table words: one row without further words, two with. -/
theorem test_decode_table : decodeTableWord 32 0x43012000 = some (.hfinal 3#4 1#8 32#8) ∧
    decodeTableWord 32 0x33010000 = some (.hupdate 3#4 1#8 0#32 []) ∧
    decodeTableWord 32 0x71000001 = some (.ainit 1#4 0#8 (.structs [] [])) ∧ decodeTableWord 32 0x21030000 = none := by decide

/-! ## Text (R123, R124, R126) -/

theorem test_text_hupdate : readLine .little "HUPDATE c1, sha256, 616263 ; bytes".toList =
    some (.command (.hupdate 3#4 1#8 3#32 [0x00636261#32])) := by decide
theorem test_text_hash : (readLine .little "HASH c2, md5, , 16".toList).map (Line.expand .little) =
    some [.hinit 2#8, .hupdate 1#4 2#8 0#32 [], .hfinal 1#4 2#8 16#8] := by decide
theorem test_text_response : responseText .little 0x40010300#32 [0x00C3B2A1#32] = some "-> OK a1b2c3".toList := by decide

/-! ## States the vectors start from -/

/-- The configuration of 95_test_vectors section 2 with T = 1 (each poll reads at most one sample). -/
def cfgT0 : Config := { Config.baseline with transform := .testDouble, tmo := 1#32 }

/-- T0 with a budget of 3. -/
def cfgT3 : Config := { cfgT0 with tmo := 3#32 }

/-- What HINIT of slots 0, 1 and 2 leaves in the store. -/
def cleared : Store := (List.range 183).map fun a => (a, 0#32)

/-- Slots 0, 1 and 2 just initialised, nothing loaded, the peripheral ready and done at the next eight samples. -/
def idle : State := { State.resetOf cfgT0 with store := cleared, flagSamples := List.replicate 8 3#32 }

/-- Slot 0 Active (algorithm 0, never loaded); slot 1 Active, once captured, and the owner; slot 2 Fresh. -/
def owned : State := { idle with owner := some 1#8, prDefined := true, store := (cleared.write 60 0x09#32).write 121 0x0D#32 }

/-- The same with a peripheral that never answers. -/
def stuck : State := { owned with flagSamples := List.replicate 8 0#32 }

/-- P.READY set and P.DREADY clear at every sample: the ordinary unit during an update. -/
def absorbing : State := { owned with flagSamples := List.replicate 8 1#32 }

/-- Slot 0 Finalized. -/
def finished : State := { idle with store := cleared.write 60 0x0A#32 }

/-- Slot 0 Active with two bytes buffered. -/
def halfway : State := { idle with store := cleared.writeAll 57 [0x0201#32, 2#32, 2#32, 0x09#32] }

/-- Slot 0 Active with three bytes buffered. -/
def nearly : State := { idle with store := cleared.writeAll 57 [0x030201#32, 3#32, 3#32, 0x09#32] }

/-- OWNER names slot 200, which does not exist. -/
def astray : State := { owned with owner := some 200#8 }

/-- The responses of a step that goes on. -/
def answers : Host.Outcome State Fault Refusal → List Word
  | .next t => t.responses
  | .fault _ => []
  | .refused _ => []

/-- What `f` sees of the state a step goes on to. -/
def after {α : Type} (f : State → α) : Host.Outcome State Fault Refusal → Option α
  | .next t => some (f t)
  | .fault _ => none
  | .refused _ => none

/-- STAT, BUF, BUFLEN, LOLEN of slot `c`. -/
def slotView (c : BitVec 8) (s : State) : Word × Word × Word × Word :=
  (s.slotGet c .stat, s.slotGet c .buf, s.slotGet c .bufLen, s.slotGet c .loLen)

/-! ## One step on T0 -/

/-- V1 and V2. -/
theorem test_detect : answers (exec .detect idle) = [0x10000400#32, 0x00203601#32] ∧
    answers (exec .detect (State.resetOf { cfgT0 with ext := false })) = [0x10000400#32, 0x00143200#32] := by decide
set_option maxRecDepth 8000 in
/-- V91: HINIT of the owner drops it without a capture. -/
theorem test_hinit_owner : after (fun t => (t.owner, t.slotGet 1#8 .stat, t.portLog)) (exec (.hinit 1#8) owned) =
    some (none, 0#32, []) := by decide
/-- V11. -/
theorem test_hinit_range : answers (exec (.hinit 4#8) idle) = [0x25040000#32] := by decide
set_option maxRecDepth 8000 in
/-- The example of 41_session_lifecycle R155. -/
theorem test_hupdate_five : after (fun t => (slotView 1#8 t, t.owner, t.portLog.reverse))
    (exec (.hupdate 3#4 1#8 5#32 [0x64636261#32, 0xFFFFFF65#32]) idle) =
    some ((0x39#32, 0x65#32, 1#32, 5#32), some 1#8,
      [.read .flags 3#32, .write .start 3#32, .write .din 0x64636261#32, .read .flags 3#32]) := by decide
/-- V94: no bytes. -/
theorem test_hupdate_none : after (fun t => (slotView 2#8 t, t.owner, t.portLog)) (exec (.hupdate 1#4 2#8 0#32 []) idle) =
    some ((0x19#32, 0#32, 0#32, 0#32), none, []) := by decide
set_option maxRecDepth 8000 in
/-- V95: HFINAL of a Fresh slot, sha224, 28 bytes. -/
theorem test_hfinal_fresh : answers (exec (.hfinal 2#4 0#8 28#8) idle) =
    [0x40001C00#32, 0#32, 0#32, 0#32, 0#32, 0x102#32, 0#32, 0#32] := by decide
set_option maxRecDepth 8000 in
/-- The flush of a partial word and the length of 2 bytes (R215, R217): T0 shows both. -/
theorem test_hfinal_flush : answers (exec (.hfinal 0#4 0#8 16#8) halfway) =
    [0x40001000#32, 0x0201#32, 0x0201#32, 1#32, 16#32] := by decide
set_option maxRecDepth 8000 in
/-- CLOAD of a slot never started, from an owner: the owner is saved, P.START written (42_arbiter_swap R185, R188). -/
theorem test_cload_swap : after (fun t => (t.owner, t.slotGet 1#8 .stat, t.slotGet 0#8 .stat, t.periph.pr.cr))
    (exec (.cload 0#4 0#8) owned) = some (some 0#8, 0x0D#32, 0x09#32, 0x100#32) := by decide
/-- V97's order for CLOAD: a Finalized slot is InvalidState, another algorithm or not. -/
theorem test_cload_finalized : answers (exec (.cload 1#4 0#8) finished) = [0x54000000#32] := by decide
set_option maxRecDepth 8000 in
/-- 42_arbiter_swap R191: N + 3 reads after one flag read, for the owner. -/
theorem test_csave_owner : after (fun t => (t.owner, t.portLog.length)) (exec (.csave 1#8) owned) =
    some (some 1#8, 58) := by decide
/-- V19: not the owner. -/
theorem test_csave_other : answers (exec (.csave 2#8) owned) = [0x60020000#32] := by decide
/-- V100: STATUS replaces FAM in the echo. -/
theorem test_ainit_bind : after (fun t => (t.responses, t.sessions, t.portLog))
    (exec (.ainit 0xA#4 0#8 (.handle [0x11111111#32])) idle) =
    some ([0x70000000#32], [⟨true, 0xA#4, [0x11111111#32]⟩], []) := by decide
/-- V101 and V106. -/
theorem test_ainit_family :
    answers (exec (.ainit 0xA#4 0#8 (.handle [1#32])) { idle with cfg := { cfgT0 with singleCipher := true } }) =
      [0x73000000#32] ∧
    answers (exec (.ainit 0xA#4 1#8 (.handle [1#32])) { idle with cfg := { cfgT0 with singleCipher := true } }) =
      [0x75010000#32] := by decide

/-! ## Witnesses: the hypotheses of each obligation can be met -/

theorem cleared_wf : Store.wf cleared := by
  rw [cleared, Store.wf, List.pairwise_map]
  exact List.pairwise_lt_range

theorem cleared_bound : ∀ x ∈ cleared, x.1 < cfgT0.storeWords := by
  intro x hx
  obtain ⟨a, ha, rfl⟩ := List.mem_map.1 hx
  exact lt_trans (List.mem_range.1 ha) (by decide)

theorem write_bound {m : Store} {n a : Nat} {v : Word} (h : ∀ x ∈ m, x.1 < n) (ha : a < n) :
    ∀ x ∈ m.write a v, x.1 < n := by
  intro x hx
  rcases Store.mem_write hx with rfl | hx
  · exact ha
  · exact h x hx

theorem owned_wf : Store.wf owned.store := Store.write_wf (Store.write_wf cleared_wf _ _) _ _

theorem owned_bound : ∀ x ∈ owned.store, x.1 < cfgT0.storeWords :=
  write_bound (write_bound cleared_bound (by decide)) (by decide)

theorem owned_sound : Sound owned :=
  ⟨owned_wf, owned_bound, by decide, by decide, by decide, by decide, fun c h => by
    obtain rfl : c = 1#8 := by simpa [owned] using h.symm
    exact ⟨by decide, by decide, rfl⟩⟩

theorem stuck_sound : Sound stuck :=
  ⟨owned_wf, owned_bound, by decide, by decide, by decide, by decide, fun c h => by
    obtain rfl : c = 1#8 := by simpa [stuck, owned] using h.symm
    exact ⟨by decide, by decide, rfl⟩⟩

theorem absorbing_sound : Sound absorbing :=
  ⟨owned_wf, owned_bound, by decide, by decide, by decide, by decide, fun c h => by
    obtain rfl : c = 1#8 := by simpa [absorbing, owned] using h.symm
    exact ⟨by decide, by decide, rfl⟩⟩

theorem unowned_sound {s : State} (ho : s.owner = none) (h1 : Store.wf s.store) (h2 : ∀ x ∈ s.store, x.1 < s.cfg.storeWords)
    (h3 : s.sessions.length = s.cfg.nsess) (h4 : s.periph.pr.acc.length = s.cfg.accWords)
    (h5 : s.stg.acc.length = s.cfg.accWords) (h6 : s.periph.res.length = s.cfg.resultWords) : Sound s :=
  ⟨h1, h2, h3, h4, h5, h6, fun c h => by rw [ho] at h; cases h⟩

theorem idle_sound : Sound idle :=
  unowned_sound rfl cleared_wf cleared_bound (by decide) (by decide) (by decide) (by decide)

/-- Slot 0 with its last four words written. -/
theorem slot0_sound (ws : List Word) (h : ws.length = 4) : Sound { idle with store := cleared.writeAll 57 ws } := by
  refine unowned_sound rfl (Store.writeAll_wf cleared_wf 57 ws) (fun x hx => ?_) idle_sound.sessions_len idle_sound.acc_len
    idle_sound.stg_len idle_sound.res_len
  rcases Store.mem_writeAll hx with ⟨_, h2⟩ | hx
  · have h3 : (61 : Nat) < cfgT0.storeWords := by decide
    exact lt_trans (by omega) h3
  · exact cleared_bound x hx

theorem halfway_sound : Sound halfway := slot0_sound _ rfl
theorem nearly_sound : Sound nearly := slot0_sound _ rfl

theorem sessionOpen_of {s : State} {a : BitVec 4} {c : BitVec 8}
    (h : (slotExists s.cfg c && algOk s.cfg a && !statMalformed (s.slotGet c .stat) &&
      decide (statLife (s.slotGet c .stat) ≠ .finalized) &&
      (!statAlgv (s.slotGet c .stat) || decide (statAlg (s.slotGet c .stat) = a))) = true) : SessionOpen s a c := by
  simp only [Bool.and_eq_true, Bool.or_eq_true, Bool.not_eq_true', decide_eq_true_eq] at h
  obtain ⟨⟨⟨⟨h1, h2⟩, h3⟩, h4⟩, h5⟩ := h
  exact ⟨h1, h2, h3, h4, fun hv => h5.resolve_left (by simp [hv])⟩

theorem owned_open0 : SessionOpen owned 0#4 0#8 := sessionOpen_of (by decide)
theorem owned_open1 : SessionOpen owned 0#4 1#8 := sessionOpen_of (by decide)
theorem owned_open2 : SessionOpen owned 3#4 2#8 := sessionOpen_of (by decide)
theorem stuck_open0 : SessionOpen stuck 0#4 0#8 := sessionOpen_of (by decide)
theorem stuck_open1 : SessionOpen stuck 0#4 1#8 := sessionOpen_of (by decide)
theorem idle_open : SessionOpen idle 3#4 1#8 := sessionOpen_of (by decide)
theorem halfway_open : SessionOpen halfway 0#4 0#8 := sessionOpen_of (by decide)
theorem nearly_open : SessionOpen nearly 0#4 0#8 := sessionOpen_of (by decide)
theorem astray_open : SessionOpen astray 0#4 0#8 := sessionOpen_of (by decide)

theorem cipherOpen_of {s : State} {f : BitVec 4} {k : BitVec 8} {b : Blocks}
    (h : (decide (k.toNat < s.cfg.nsess) && decide (blocksShape b = s.cfg.cipherShape) && !blocksEmpty b &&
      (!s.cfg.singleCipher || decide (f = s.cfg.supportedFam))) = true) : CipherOpen s f k b := by
  simp only [Bool.and_eq_true, Bool.or_eq_true, Bool.not_eq_true', decide_eq_true_eq] at h
  obtain ⟨⟨⟨h1, h2⟩, h3⟩, h4⟩ := h
  exact ⟨h1, h2, h3, fun hv => h4.resolve_left (by simp [hv])⟩

theorem idle_cipherOpen : CipherOpen idle 0xA#4 0#8 (.handle [1#32]) := cipherOpen_of (by decide)
theorem owned_cipherOpen : CipherOpen owned 0xA#4 0#8 (.handle [1#32]) := cipherOpen_of (by decide)

/-- Where every value ahead has the flag of each poll set, every poll is answered at its first read. -/
theorem responsive_of_set {s : State} (hb : 0 < s.cfg.budget) :
    ∀ (fs : List Flag) (j : Nat), (∀ k < j + fs.length, ∀ f ∈ fs, f.isSet (flagsAhead s k) = true) → pollsAnswered s fs j
  | [], _, _ => trivial
  | f :: fs, j, h => by
    refine ⟨0, hb, h j (by simp) f (by simp), fun k hk => by omega, responsive_of_set hb fs _ fun k hk g hg => ?_⟩
    exact h k (by simp only [List.length_cons]; omega) g (by simp [hg])

theorem responsive_threes {fs : List Flag} {s : State} (hb : s.cfg.budget = 1) (hf : s.flagSamples = List.replicate 8 3#32)
    (hl : fs.length ≤ 8) : responsive fs s := by
  refine responsive_of_set (by omega) fs 0 fun k hk f _ => ?_
  have hk8 : k < 8 := by omega
  have : flagsAhead s k = 3#32 := by
    unfold flagsAhead
    rw [hf, if_pos (by simpa using hk8)]
    interval_cases k <;> rfl
  rw [this]
  cases f <;> decide

theorem absorbing_responsive : responsive (updatePolls absorbing 2#8 5) absorbing := by
  refine responsive_of_set (by decide) _ 0 ?_
  decide

/-- The items of R57 for a slot, as checks that evaluate. -/
theorem slotSound_of {s : State} {c : BitVec 8} (h1 : (s.slotGet c .bufLen).toNat ≤ 3)
    (h2 : ∀ b < 4, (s.slotGet c .bufLen).toNat ≤ b → lane s.cfg.byteOrder (s.slotGet c .buf) b = 0#8)
    (h3 : statLife (s.slotGet c .stat) = .fresh → ∀ k < s.cfg.slotWords, Store.read s.store (slotAddr s.cfg c + k) = 0#32)
    (h4 : statShv (s.slotGet c .stat) = true → statLife (s.slotGet c .stat) = .active)
    (h5 : statAlgv (s.slotGet c .stat) = false → statLife (s.slotGet c .stat) = .fresh)
    (h6 : statLife (s.slotGet c .stat) = .active → statAlgv (s.slotGet c .stat) = true)
    (h7 : statMalformed (s.slotGet c .stat) = false) : SlotSound s c :=
  ⟨h1, fun b hn hb => h2 b hb hn, h3, h4, h5, h6, h7⟩

theorem idle_slotSound : SlotSound idle 1#8 :=
  slotSound_of (by decide) (by decide) (by decide) (by decide) (by decide) (by decide) (by decide)
theorem owned_slotSound : SlotSound owned 1#8 :=
  slotSound_of (by decide) (by decide) (by decide) (by decide) (by decide) (by decide) (by decide)
theorem halfway_slotSound : SlotSound halfway 0#8 :=
  slotSound_of (by decide) (by decide) (by decide) (by decide) (by decide) (by decide) (by decide)

theorem witness_DecodeInvertsEncode : (Instr.hupdate 0#4 0#8 5#32 [0#32, 0#32]).wf = true ∧
    (Instr.ainit 0#4 0#8 (.structs [] [1#32])).wf = true := by decide

theorem witness_EncodeInvertsDecode : decode [0x71000001#32, 0#32, 0#32, 9#32] =
    .command (.ainit 1#4 0#8 (.structs [] [])) [0x71000001#32, 0#32, 0#32] [9#32] := by decide

theorem witness_StepRunsTheDecodedCommand : decode { idle with commands := [0x33010000#32, 0#32, 7#32] }.commands =
    .command (.hupdate 3#4 1#8 0#32 []) [0x33010000#32, 0#32] [7#32] := by decide

theorem witness_IllFormedPacketIsRejected :
    { idle with commands := [0x30000100#32, 4#32, 5#32] }.commands = 0x30000100#32 :: [4#32, 5#32] ∧
    selectRow 0x30000100#32 = none ∧ packetWords [0x30000100#32, 4#32, 5#32] = some 3 ∧
    3 ≤ [0x30000100#32, 4#32, 5#32].length ∧
    selectRow 0#32 = none ∧ packetWords [0#32] = some 1 ∧ 1 ≤ [0#32].length := by decide

theorem witness_StepWaitsForAWholePacket : packetWords State.reset.commands = none ∧
    packetWords { idle with commands := [0x30000000#32, 5#32, 0#32] }.commands = some 4 ∧
    { idle with commands := [0x30000000#32, 5#32, 0#32] }.commands.length < 4 := by decide

theorem witness_PlacedPacketRunsNext : decodeTableWord 32 0x70000001 = some (.ainit 0#4 0#8 (.structs [] [])) := by decide

theorem witness_ConfigurationNeverChanges : ∃ t, step { idle with commands := [0x20030000#32] } = .next t := ⟨_, rfl⟩

theorem witness_OneResponsePerCommand :
    (∃ t, step { idle with commands := [0x10000000#32] } = .next t) ∧ packetWords [0x10000000#32] = some 1 ∧
    (∃ t, step { idle with commands := [0x40000500#32, 1#32] } = .next t) ∧ packetWords [0x40000500#32, 1#32] = some 1 ∧
    (∃ t, step { idle with commands := [0#32] } = .next t) ∧ packetWords [0#32] = some 1 :=
  ⟨⟨_, rfl⟩, by decide, ⟨_, rfl⟩, by decide, ⟨_, rfl⟩, by decide⟩

theorem witness_CommandsRunToTheirResponse : ownerExists owned ∧
    (∀ c, slotOf (.hfinal 0#4 1#8 32#8) = some c →
      statMalformed (owned.slotGet c .stat) = false ∧ (owned.slotGet c .bufLen).toNat ≤ 3) := by
  refine ⟨ownerExists_of_sound owned_sound, fun c h => ?_⟩
  obtain rfl : c = 1#8 := by simpa [slotOf] using h.symm
  decide

theorem witness_OnlyAinitWritesSessions : (∃ t, exec (.csave 0#8) owned = .next t) ∧
    ∀ f k b, Instr.csave 0#8 ≠ .ainit f k b := ⟨⟨_, rfl⟩, by simp⟩

theorem witness_BadOperandIsRejected :
    operandRejected idle (.hinit 4#8) ∧ operandRejected idle (.hupdate 0#4 4#8 0#32 []) ∧
    operandRejected idle (.hupdate 4#4 0#8 0#32 []) ∧ operandRejected idle (.hfinal 15#4 0#8 33#8) ∧
    operandRejected idle (.hfinal 0#4 255#8 0#8) ∧ operandRejected idle (.cload 0#4 4#8) ∧
    operandRejected { idle with cfg := { cfgT0 with ext := false } } (.cload 2#4 0#8) ∧ operandRejected idle (.csave 4#8) ∧
    operandRejected idle (.ainit 0#4 1#8 (.handle [1#32])) ∧ operandRejected idle (.ainit 0#4 0#8 (.structs [1#32] [1#32])) ∧
    operandRejected idle (.ainit 0#4 0#8 (.handle [])) ∧
    operandRejected { idle with cfg := { cfgT0 with cipherShape := .struct } } (.ainit 0#4 0#8 (.structs [1#32] [])) := by
  simp only [operandRejected]
  decide

theorem witness_OversizedDigestIsRefusedFirst :
    slotExists idle.cfg 2#8 = true ∧ algOk idle.cfg 3#4 = true ∧ (if idle.cfg.ext then 32 else 20) < (33#8).toNat ∧
    (32#8).toNat ≤ (if idle.cfg.ext then 32 else 20) ∧ (∃ t, exec (.hfinal 3#4 2#8 32#8) idle = .next t) ∧
    algOk { cfgT0 with ext := false } 1#4 = true ∧
    (if { cfgT0 with ext := false }.ext then 32 else 20) < (21#8).toNat :=
  ⟨by decide, by decide, by decide, by decide, ⟨_, rfl⟩, by decide, by decide⟩

theorem witness_FinalizedSlotIsInvalidState :
    slotExists finished.cfg 0#8 = true ∧ algOk finished.cfg 1#4 = true ∧
    statMalformed (finished.slotGet 0#8 .stat) = false ∧ (finished.slotGet 0#8 .bufLen).toNat ≤ 3 ∧
    statLife (finished.slotGet 0#8 .stat) = .finalized ∧ (32#8).toNat ≤ finished.cfg.maxDigest := by decide

theorem witness_ChangedAlgorithmIsRejected :
    slotExists owned.cfg 0#8 = true ∧ algOk owned.cfg 3#4 = true ∧ statMalformed (owned.slotGet 0#8 .stat) = false ∧
    (owned.slotGet 0#8 .bufLen).toNat ≤ 3 ∧ statLife (owned.slotGet 0#8 .stat) ≠ .finalized ∧
    statAlgv (owned.slotGet 0#8 .stat) = true ∧ 3#4 ≠ statAlg (owned.slotGet 0#8 .stat) ∧
    (32#8).toNat ≤ owned.cfg.maxDigest := by decide

theorem witness_UnsupportedFamilyIsRefused :
    (0#8).toNat < cfgT0.nsess ∧ blocksShape (.handle [1#32]) = cfgT0.cipherShape ∧ blocksEmpty (.handle [1#32]) = false ∧
    { cfgT0 with singleCipher := true }.singleCipher = true ∧ 1#4 ≠ { cfgT0 with singleCipher := true }.supportedFam ∧
    idle.cfg.singleCipher = false ∧ (∃ t, exec (.ainit 15#4 0#8 (.handle [1#32])) idle = .next t) :=
  ⟨by decide, by decide, by decide, by decide, by decide, by decide, ⟨_, rfl⟩⟩

theorem witness_MalformedSlotIsRefused :
    slotExists idle.cfg 0#8 = true ∧ algOk idle.cfg 0#4 = true ∧
    statMalformed ({ idle with store := [(60, 3#32)] }.slotGet 0#8 .stat) = true ∧
    statMalformed ({ idle with store := [(60, 0x80000000#32)] }.slotGet 0#8 .stat) = true ∧
    3 < ({ idle with store := [(58, 4#32)] }.slotGet 0#8 .bufLen).toNat ∧ (32#8).toNat ≤ idle.cfg.maxDigest := by decide

theorem witness_StrayOwnerFaults :
    astray.owner = some 200#8 ∧ slotExists astray.cfg 200#8 = false ∧ SessionOpen astray 0#4 0#8 ∧
    (astray.slotGet 0#8 .bufLen).toNat ≤ 3 ∧ (32#8).toNat ≤ astray.cfg.maxDigest ∧
    4 ≤ (astray.slotGet 0#8 .bufLen).toNat + (updateData astray.cfg 4#32 [0#32]).length ∧
    CipherOpen astray 0#4 0#8 (.handle [1#32]) :=
  ⟨rfl, by decide, astray_open, by decide, by decide, by decide, cipherOpen_of (by decide)⟩

/-- V42, V44, V41, V45 and V46: the flag set at the last and at the first sample, at none, a budget of 0, and the other
flag set. -/
theorem witness_PollSamplesAtMostTheBudget :
    ({ idle with cfg := cfgT3, flagSamples := [0#32, 0#32, 1#32] }.flagSamples = [0#32, 0#32] ++ 1#32 :: [] ∧
      (∀ z ∈ [0#32, 0#32], Flag.ready.isSet z = false) ∧ Flag.ready.isSet 1#32 = true ∧
      [0#32, 0#32].length < cfgT3.budget) ∧
    (idle.flagSamples = [] ++ 3#32 :: List.replicate 7 3#32 ∧ Flag.dready.isSet 3#32 = true ∧
      ([] : List Word).length < cfgT0.budget) ∧
    ((∀ z ∈ [1#32, 1#32, 1#32], Flag.dready.isSet z = false) ∧ [1#32, 1#32, 1#32].length = cfgT3.budget) ∧
    ([] : List Word).length = { cfgT0 with tmo := 0#32 }.budget :=
  ⟨⟨rfl, by simp [Flag.isSet], by decide, by decide⟩, ⟨rfl, by decide, by decide⟩, ⟨by simp [Flag.isSet], by decide⟩,
    by decide⟩

theorem witness_PollingIsBounded : Store.wf owned.store ∧ ∃ t, exec (.hupdate 0#4 0#8 4#32 [0#32]) owned = .next t :=
  ⟨owned_wf, _, rfl⟩

theorem witness_SwapPhaseTimeoutChangesNothing :
    ownerExists stuck ∧ (∃ s', pollReady .ready stuck = .timeout s') ∧
    idleChecks stuck (.hupdate 0#4 0#8 4#32 [0#32]) ∧ idleChecks stuck (.hfinal 0#4 0#8 32#8) ∧
    idleChecks stuck (.cload 0#4 0#8) ∧ idleChecks stuck (.csave 1#8) ∧
    idleChecks stuck (.ainit 0#4 0#8 (.handle [1#32])) :=
  ⟨ownerExists_of_sound stuck_sound, ⟨_, rfl⟩, ⟨stuck_open0, by decide, by decide, by decide⟩,
    ⟨stuck_open0, by decide, by decide, by decide⟩, ⟨stuck_open0, by decide⟩, ⟨by decide, by decide⟩,
    ⟨cipherOpen_of (by decide), by decide⟩⟩

theorem witness_DataPhaseTimeoutEffect : Store.wf owned.store := owned_sound.store_wf

/-- With OWNER = 1 already, the first poll of slot 1 is the one after the word, or after the length write. -/
theorem witness_DataPhaseTimeoutHarmsOneSlot :
    Sound stuck ∧ SessionOpen stuck 0#4 1#8 ∧ (stuck.slotGet 1#8 .bufLen).toNat ≤ 3 ∧
    hupdateSwap 0#4 1#8 (updateData stuck.cfg 4#32 [0#32]) stuck = .ok stuck ∧
    (∃ s2, absorbBytes 1#8 (updateData stuck.cfg 4#32 [0#32])
      (activate 1#8 (statShv (stuck.slotGet 1#8 .stat)) 0#4 stuck) = .timeout s2) ∧
    (32#8).toNat ≤ stuck.cfg.maxDigest ∧ loadOrResume 1#8 0#4 stuck = .ok stuck ∧
    (∃ s2, hfinalDrain 0#4 1#8 stuck = .timeout s2) :=
  ⟨stuck_sound, stuck_open1, by decide, rfl, ⟨_, rfl⟩, by decide, rfl, ⟨_, rfl⟩⟩

theorem witness_HinitClearsTheSlot : Store.wf owned.store ∧ slotExists owned.cfg 4#8 = false ∧
    slotExists owned.cfg 3#8 = true ∧ slotExists owned.cfg 1#8 = true ∧ owned.owner = some 1#8 :=
  ⟨owned_sound.store_wf, by decide, by decide, by decide, rfl⟩

/-- No byte, and one byte into the last free lane that leaves the word open. -/
theorem witness_HupdateBuffersAShortChunk :
    Store.wf idle.store ∧ SessionOpen idle 3#4 1#8 ∧
    (idle.slotGet 1#8 .bufLen).toNat + (updateData idle.cfg 0#32 []).length < 4 ∧
    SessionOpen halfway 0#4 0#8 ∧
    (halfway.slotGet 0#8 .bufLen).toNat + (updateData halfway.cfg 1#32 [7#32]).length < 4 :=
  ⟨cleared_wf, idle_open, by decide, halfway_open, by decide⟩

/-- One byte that completes a word, and five bytes with a swap, P.DREADY never set. -/
theorem witness_HupdateSubmitsWholeWords :
    (Sound nearly ∧ SessionOpen nearly 0#4 0#8 ∧ (nearly.slotGet 0#8 .bufLen).toNat ≤ 3 ∧
      4 ≤ (nearly.slotGet 0#8 .bufLen).toNat + (updateData nearly.cfg 1#32 [7#32]).length ∧
      responsive (updatePolls nearly 0#8 (updateData nearly.cfg 1#32 [7#32]).length) nearly) ∧
    (Sound absorbing ∧ SessionOpen absorbing 3#4 2#8 ∧ (absorbing.slotGet 2#8 .bufLen).toNat ≤ 3 ∧
      4 ≤ (absorbing.slotGet 2#8 .bufLen).toNat + (updateData absorbing.cfg 5#32 [7#32, 8#32]).length ∧
      responsive (updatePolls absorbing 2#8 (updateData absorbing.cfg 5#32 [7#32, 8#32]).length) absorbing) :=
  ⟨⟨nearly_sound, nearly_open, by decide, by decide, responsive_threes (by decide) rfl (by decide)⟩,
    ⟨absorbing_sound, sessionOpen_of (by decide), by decide, by decide, absorbing_responsive⟩⟩

/-- The first chunk completes no word and the second does. -/
theorem witness_ChunkingIndependence :
    Sound halfway ∧
    updateData halfway.cfg 3#32 [0x030201#32] =
      updateData halfway.cfg 1#32 [0x01#32] ++ updateData halfway.cfg 2#32 [0x0302#32] ∧
    (∃ t u, exec (.hupdate 0#4 0#8 1#32 [0x01#32]) halfway = .next t ∧
      t.responses = halfway.responses ++ [responseHeader 3#4 .ok 0#8 0#8] ∧
      exec (.hupdate 0#4 0#8 2#32 [0x0302#32]) t = .next u ∧
      u.responses = t.responses ++ [responseHeader 3#4 .ok 0#8 0#8]) :=
  ⟨halfway_sound, by decide, _, _, rfl, rfl, rfl, rfl⟩

theorem witness_SpareLanesAreIgnored : (5#32).toNat = 4 * [0#32].length + (5#32).toNat % 4 ∧ (5#32).toNat % 4 ≠ 0 ∧
    (∀ b < (5#32).toNat % 4, lane .little 0xAABBCC01#32 b = lane .little 0x01#32 b) ∧
    0xAABBCC01#32 ≠ 0x01#32 := by decide

theorem witness_WholeWordsPassUnchanged :
    Sound owned ∧ SessionOpen owned 3#4 2#8 ∧ owned.slotGet 2#8 .bufLen = 0#32 ∧
    (8#32).toNat = 4 * [1#32, 2#32].length ∧ [1#32, 2#32] ≠ [] ∧
    responsive (updatePolls owned 2#8 (4 * [1#32, 2#32].length)) owned :=
  ⟨owned_sound, owned_open2, by decide, by decide, by decide, responsive_threes (by decide) rfl (by decide)⟩

/-- With bytes buffered and without, a full digest and none. -/
theorem witness_HfinalDeliversTheDigest :
    (Sound halfway ∧ SessionOpen halfway 0#4 0#8 ∧ SlotSound halfway 0#8 ∧ (32#8).toNat ≤ halfway.cfg.maxDigest ∧
      responsive (finalPolls halfway 0#8) halfway) ∧
    (Sound owned ∧ SessionOpen owned 0#4 1#8 ∧ SlotSound owned 1#8 ∧ (0#8).toNat ≤ owned.cfg.maxDigest ∧
      responsive (finalPolls owned 1#8) owned) :=
  ⟨⟨halfway_sound, halfway_open, halfway_slotSound, by decide, responsive_threes (by decide) rfl (by decide)⟩,
    ⟨owned_sound, owned_open1, owned_slotSound, by decide, responsive_threes (by decide) rfl (by decide)⟩⟩

theorem witness_HfinalOfFreshIsTheEmptyMessage :
    Sound idle ∧ SessionOpen idle 3#4 1#8 ∧ SlotSound idle 1#8 ∧ statLife (idle.slotGet 1#8 .stat) = .fresh ∧
    (32#8).toNat ≤ idle.cfg.maxDigest ∧ responsive (finalPolls idle 1#8) idle :=
  ⟨idle_sound, idle_open, idle_slotSound, by decide, by decide, responsive_threes (by decide) rfl (by decide)⟩

theorem witness_ReadDigestTakesLanesInOrder : idle.periph.res.length = idle.cfg.resultWords ∧
    (32#8).toNat ≤ idle.cfg.maxDigest ∧ (0#8).toNat ≤ idle.cfg.maxDigest := by decide

theorem witness_DefaultLengthIsBitsModulo512 : Config.baseline.lengthRule = .standard := rfl

theorem witness_CloadOfTheOwnerOnlyResumes : Store.wf owned.store ∧ SessionOpen owned 0#4 1#8 ∧ owned.owner = some 1#8 :=
  ⟨owned_sound.store_wf, owned_open1, rfl⟩

/-- From an owner to a slot never loaded, and from no owner; and a slot with a shadow. -/
theorem witness_CloadSwapsTheSessionIn :
    (Sound owned ∧ SessionOpen owned 0#4 0#8 ∧ owned.owner ≠ some 0#8 ∧ ∃ s', pollReady .ready owned = .ok s') ∧
    (Sound { owned with owner := none } ∧ SessionOpen { owned with owner := none } 0#4 1#8 ∧
      statShv ({ owned with owner := none }.slotGet 1#8 .stat) = true ∧
      ∃ s', pollReady .ready { owned with owner := none } = .ok s') :=
  ⟨⟨owned_sound, owned_open0, by decide, ⟨_, rfl⟩⟩,
    ⟨unowned_sound rfl owned_wf owned_bound (by decide) (by decide) (by decide) (by decide), sessionOpen_of (by decide),
      by decide, ⟨_, rfl⟩⟩⟩

theorem witness_CaptureSavesTheLiveRegisters : Store.wf owned.store ∧ owned.periph.pr.acc.length = owned.cfg.accWords :=
  ⟨owned_sound.store_wf, by decide⟩

theorem witness_LoadOrResumeBringsTheSlotIn :
    Store.wf owned.store ∧ owned.periph.pr.acc.length = owned.cfg.accWords ∧ owned.owner = some 1#8 ∧
    owned.owner ≠ some 0#8 ∧ (∃ s', pollReady .ready owned = .ok s') ∧
    stuck.owner ≠ some 0#8 ∧ (∃ s', pollReady .ready stuck = .timeout s') :=
  ⟨owned_sound.store_wf, by decide, rfl, by decide, ⟨_, rfl⟩, by decide, ⟨_, rfl⟩⟩

theorem witness_SwapTraffic : Store.wf owned.store ∧ owned.owner = some 1#8 ∧ owned.owner ≠ some 0#8 ∧
    ∃ t, loadOrResume 0#8 0#4 owned = .ok t := ⟨owned_sound.store_wf, rfl, by decide, ⟨_, rfl⟩⟩

theorem witness_CsaveCapturesTheOwner :
    Store.wf owned.store ∧ owned.periph.pr.acc.length = owned.cfg.accWords ∧ slotExists owned.cfg 4#8 = false ∧
    slotExists owned.cfg 3#8 = true ∧ owned.owner ≠ some 3#8 ∧ slotExists owned.cfg 1#8 = true ∧ owned.owner = some 1#8 ∧
    (∃ s', pollReady .ready owned = .ok s') ∧ stuck.owner = some 1#8 ∧ (∃ s', pollReady .ready stuck = .timeout s') :=
  ⟨owned_sound.store_wf, by decide, by decide, by decide, by decide, by decide, rfl, ⟨_, rfl⟩, rfl, ⟨_, rfl⟩⟩

/-- Slot 1 is captured by a CSAVE and by the swap to slot 0, or by an AINIT, and is loaded again. -/
theorem witness_SwapTransparency :
    Sound owned ∧ owned.owner = some 1#8 ∧
    (∀ i ∈ [Instr.csave 1#8, .cload 0#4 0#8], slotOf i ≠ some 1#8 ∨ i = .csave 1#8) ∧
    (∃ s₁ s₂, execAll [.csave 1#8, .cload 0#4 0#8] owned = .next s₁ ∧ s₁.owner = some 0#8 ∧
      exec (.cload 0#4 1#8) s₁ = .next s₂ ∧ s₂.owner = some 1#8) ∧
    (∀ i ∈ [Instr.ainit 0xA#4 0#8 (.handle [1#32])], slotOf i ≠ some 1#8 ∨ i = .csave 1#8) ∧
    (∃ s₁ s₂, execAll [.ainit 0xA#4 0#8 (.handle [1#32])] owned = .next s₁ ∧ s₁.owner = none ∧
      exec (.cload 0#4 1#8) s₁ = .next s₂ ∧ s₂.owner = some 1#8) :=
  ⟨owned_sound, rfl, by decide, ⟨_, _, rfl, rfl, rfl, rfl⟩, by decide, ⟨_, _, rfl, rfl, rfl, rfl⟩⟩

theorem witness_AinitBindsTheRecord :
    CipherOpen idle 0xA#4 0#8 (.handle [1#32]) ∧ idle.owner = none ∧ idle.sessions.length = idle.cfg.nsess :=
  ⟨idle_cipherOpen, rfl, by decide⟩

theorem witness_AinitEvictsTheLoadedSession :
    Sound owned ∧ CipherOpen owned 0xA#4 0#8 (.handle [1#32]) ∧ owned.owner = some 1#8 ∧
    ∃ s', pollReady .ready owned = .ok s' := ⟨owned_sound, owned_cipherOpen, rfl, ⟨_, rfl⟩⟩

theorem called_inv : Inv { owned with commands := [0x50000000#32] } :=
  ⟨⟨owned_wf, owned_bound, by decide, by decide, by decide, by decide, owned_sound.owner_sound⟩, rfl, rfl⟩

theorem witness_InvariantIsKept : Inv { owned with commands := [0x50000000#32] } ∧
    ∃ t, step { owned with commands := [0x50000000#32] } = .next t := ⟨called_inv, ⟨_, rfl⟩⟩

theorem witness_HinitMakesTheSlotSound : Sound owned ∧ slotExists owned.cfg 1#8 = true ∧
    ∃ t, exec (.hinit 1#8) owned = .next t := ⟨owned_sound, by decide, ⟨_, rfl⟩⟩

/-- A CLOAD of slot 0 runs, and slot 1, the owner, is captured. -/
theorem witness_SoundSlotsStaySound :
    Inv { owned with commands := [0x50000000#32] } ∧ SlotSound { owned with commands := [0x50000000#32] } 1#8 ∧
    ∃ t, step { owned with commands := [0x50000000#32] } = .next t ∧ t.owner = some 0#8 :=
  ⟨called_inv, ⟨owned_slotSound.1, owned_slotSound.2, owned_slotSound.3, owned_slotSound.4, owned_slotSound.5,
    owned_slotSound.6, owned_slotSound.7⟩, _, rfl, rfl⟩

/-- A slot that is the owner and one that is not, neither named by the command. -/
theorem witness_CommandsLeaveOtherSlotsAlone :
    Sound owned ∧ (∃ t, exec (.cload 0#4 0#8) owned = .next t) ∧ slotOf (.cload 0#4 0#8) ≠ some 1#8 ∧
    owned.owner = some 1#8 ∧ slotOf (.cload 0#4 0#8) ≠ some 2#8 ∧ owned.owner ≠ some 2#8 :=
  ⟨owned_sound, ⟨_, rfl⟩, by decide, rfl, by decide, by decide⟩

/-- One command of each of the five kinds that answers OK. -/
theorem witness_LifecycleTransitions :
    Sound owned ∧ Sound halfway ∧
    (∃ t, exec (.hinit 1#8) owned = .next t ∧
      t.responses = owned.responses ++ responseHeader (opcOf (.hinit 1#8)) .ok 1#8 0#8 :: []) ∧
    (∃ t, exec (.hupdate 0#4 0#8 0#32 []) owned = .next t ∧
      t.responses = owned.responses ++ responseHeader (opcOf (.hupdate 0#4 0#8 0#32 [])) .ok 0#8 0#8 :: []) ∧
    (∃ t, exec (.cload 0#4 0#8) owned = .next t ∧
      t.responses = owned.responses ++ responseHeader (opcOf (.cload 0#4 0#8)) .ok 0#8 0#8 :: []) ∧
    (∃ t p, exec (.hfinal 0#4 0#8 16#8) halfway = .next t ∧
      t.responses = halfway.responses ++ responseHeader (opcOf (.hfinal 0#4 0#8 16#8)) .ok 0#8 16#8 :: p) ∧
    (∃ t, exec (.csave 1#8) owned = .next t ∧
      t.responses = owned.responses ++ responseHeader (opcOf (.csave 1#8)) .ok 1#8 0#8 :: []) :=
  ⟨owned_sound, halfway_sound, ⟨_, rfl, rfl⟩, ⟨_, rfl, rfl⟩, ⟨_, rfl, rfl⟩, ⟨_, _, rfl, rfl⟩, ⟨_, rfl, rfl⟩⟩

end Sys2Proof.Machine
end

/-! PROOFS. 00_scope: the step runs the command it decodes (R16), and no step writes a parameter (R11). -/

namespace Sys2Proof.Machine

/-! ## One step -/

/-- At a whole packet whose header selects a row the step is `exec` after `accept` (00_scope R16). -/
theorem step_of_command {s : State} {i : Instr} {packet rest : List Word} (h : decode s.commands = .command i packet rest) :
    step s = exec i (accept packet rest s) := by
  simp only [step, h]

/-- Everything a step that goes on can do: run the decoded command, reject an ill-formed packet (30_encoding R116), or
wait for the rest of one (60_exceptions R274). -/
theorem step_next {s t : State} (h : step s = .next t) :
    (∃ i packet rest, decode s.commands = .command i packet rest ∧ exec i (accept packet rest s) = .next t) ∨
    (∃ why packet rest, decode s.commands = .illFormed why packet rest ∧
      t = rejectHeader (packet.getD 0 0#32) (accept packet rest s)) ∨
    (decode s.commands = .incomplete ∧ t = s) := by
  unfold step at h
  split at h
  · rename_i i packet rest hd
    exact .inl ⟨i, packet, rest, hd, h⟩
  · rename_i why packet rest hd
    cases h
    exact .inr (.inl ⟨why, packet, rest, hd, rfl⟩)
  · rename_i hd
    cases h
    exact .inr (.inr ⟨hd, rfl⟩)

/-- What a next state of HINIT can be (41_session_lifecycle R152). -/
theorem exec_hinit_next {s t : State} {c : BitVec 8} (h : exec (.hinit c) s = .next t) :
    (slotExists s.cfg c = false ∧ t = raise 2#4 c .rejected s) ∨
    (slotExists s.cfg c = true ∧ t = returnOk 2#4 c (initSlot c s)) := by
  simp only [exec, execHinit] at h
  split at h
  · rename_i hc
    cases h
    exact .inr ⟨hc, rfl⟩
  · rename_i hc
    cases h
    exact .inl ⟨by simpa using hc, rfl⟩

/-- What a next state of CSAVE can be (42_arbiter_swap R191). -/
theorem exec_csave_next {s t : State} {c : BitVec 8} (h : exec (.csave c) s = .next t) :
    (slotExists s.cfg c = false ∧ t = raise 6#4 c .rejected s) ∨
    (slotExists s.cfg c = true ∧ t = csaveRun c s) := by
  simp only [exec, execCsave] at h
  split at h
  · rename_i hc
    cases h
    exact .inr ⟨hc, rfl⟩
  · rename_i hc
    cases h
    exact .inl ⟨by simpa using hc, rfl⟩

/-! ## The configuration through each command (00_scope R11) -/

@[simp] theorem Polled.state_ok (s : State) : (Polled.ok s).state = s := rfl

@[simp] theorem Polled.state_timeout (s : State) : (Polled.timeout s).state = s := rfl

@[simp] theorem rejectHeader_cfg (h : Word) (s : State) : (rejectHeader h s).cfg = s.cfg := rfl

@[simp] theorem hfinalDeliver_cfg (a : BitVec 4) (c d : BitVec 8) (s : State) : (hfinalDeliver a c d s).cfg = s.cfg := rfl

theorem hupdateSwap_cfg (a : BitVec 4) (c : BitVec 8) (data : List Byte) (s : State) :
    (hupdateSwap a c data s).state.cfg = s.cfg := by
  unfold hupdateSwap
  split
  · exact loadOrResume_cfg c a s
  · rfl

theorem hupdateBody_cfg (a : BitVec 4) (c : BitVec 8) (shv : Bool) (data : List Byte) (s : State) :
    (hupdateBody a c shv data s).cfg = s.cfg := by
  have habsorb := (absorbBytes_touches c data (activate c shv a s)).cfg
  unfold hupdateBody
  split
  all_goals
    rename_i u hu
    rw [hu] at habsorb
    simpa using habsorb

theorem hupdateRun_cfg (a : BitVec 4) (c : BitVec 8) (data : List Byte) (s : State) :
    (hupdateRun a c data s).cfg = s.cfg := by
  have hswap := hupdateSwap_cfg a c data s
  unfold hupdateRun
  split
  all_goals
    rename_i u hu
    rw [hu] at hswap
    simpa [hupdateBody_cfg] using hswap

theorem hfinalRun_cfg (a : BitVec 4) (c d : BitVec 8) (s : State) : (hfinalRun a c d s).cfg = s.cfg := by
  have hload := loadOrResume_cfg c a s
  unfold hfinalRun
  split
  · rename_i u hu
    rw [hu] at hload
    simpa using hload
  · rename_i u hu
    rw [hu, Polled.state_ok] at hload
    have hdrain := (hfinalDrain_touches a c u).cfg.trans hload
    split
    all_goals
      rename_i v hv
      rw [hv] at hdrain
      simpa using hdrain

theorem cloadRun_cfg (a : BitVec 4) (c : BitVec 8) (s : State) : (cloadRun a c s).cfg = s.cfg := by
  have hload := loadOrResume_cfg c a s
  unfold cloadRun
  split
  all_goals
    rename_i u hu
    rw [hu] at hload
    simpa using hload

theorem csaveRun_cfg (c : BitVec 8) (s : State) : (csaveRun c s).cfg = s.cfg := by
  unfold csaveRun
  split
  · split
    · rename_i u hu
      simpa using onlyPolled_cfg (pollReady_timeout hu)
    · rename_i u hu
      simpa using onlyPolled_cfg (pollReady_ok hu)
  · rfl

theorem evictForCipher_cfg (s : State) : (evictForCipher s).state.cfg = s.cfg := by
  rcases evictForCipher_cases s with ⟨_, h⟩ | ⟨t, u, _, _, hpol, h⟩ | ⟨t, u, _, _, hpol, h⟩ <;> rw [h]
  · rfl
  · exact onlyPolled_cfg hpol
  · simpa using onlyPolled_cfg hpol

theorem ainitRun_cfg (f : BitVec 4) (k : BitVec 8) (b : Blocks) (s : State) : (ainitRun f k b s).cfg = s.cfg := by
  have hevict := evictForCipher_cfg s
  unfold ainitRun
  split
  all_goals
    rename_i u hu
    rw [hu] at hevict
    simpa using hevict

/-- No command writes a parameter (00_scope R11). -/
theorem exec_cfg {i : Instr} {s t : State} (h : exec i s = .next t) : t.cfg = s.cfg := by
  cases i with
  | detect =>
    cases h
    rfl
  | hinit c =>
    obtain ⟨_, rfl⟩ | ⟨_, rfl⟩ := exec_hinit_next h
    · rfl
    · simp
  | hupdate a c len payload =>
    obtain ⟨st, _, rfl⟩ | ⟨_, _, _, rfl⟩ := exec_hupdate_next h
    · rfl
    · exact hupdateRun_cfg a c _ s
  | hfinal a c d =>
    obtain ⟨st, _, rfl⟩ | ⟨_, _, _, _, rfl⟩ := exec_hfinal_next h
    · rfl
    · exact hfinalRun_cfg a c d s
  | cload a c =>
    obtain ⟨st, _, rfl⟩ | ⟨_, _, rfl⟩ := exec_cload_next h
    · rfl
    · exact cloadRun_cfg a c s
  | csave c =>
    obtain ⟨_, rfl⟩ | ⟨_, rfl⟩ := exec_csave_next h
    · rfl
    · exact csaveRun_cfg c s
  | ainit f k b =>
    obtain ⟨st, _, rfl⟩ | ⟨_, _, rfl⟩ := exec_ainit_next h
    · rfl
    · exact ainitRun_cfg f k b s

/-! ## The obligations -/

/-- Settles O10: whether a step runs a command, rejects a packet or waits, it writes no parameter. -/
theorem configurationNeverChanges : Obligations.ConfigurationNeverChanges := by
  intro s t h
  obtain ⟨i, packet, rest, _, hexec⟩ | ⟨why, packet, rest, _, rfl⟩ | ⟨_, rfl⟩ := step_next h
  · exact (exec_cfg hexec).trans (accept_cfg s packet rest)
  · simp
  · rfl

/-- Settles O6: `accept` is the consumption and latching that the statement writes out. -/
theorem stepRunsTheDecodedCommand : Obligations.StepRunsTheDecodedCommand :=
  fun _ _ _ _ h => step_of_command h

end Sys2Proof.Machine

/-! PROOFS. 10_state: what reset leaves (R59), the invariant of every reachable state (R57 items 1 and 2), slots in good
standing (R57 items 3 to 6), and that only AINIT writes a session record (R56). -/

namespace Sys2Proof.Machine

/-! ## The STAT words a command writes (10_state R48) -/

@[simp] theorem statShv_mkStat (l : Life) (v g : Bool) (a : BitVec 4) : statShv (mkStat l v g a) = v := by
  unfold statShv mkStat
  rw [BitVec.getLsbD_append, BitVec.getLsbD_append]
  simp

@[simp] theorem statAlgv_mkStat (l : Life) (v g : Bool) (a : BitVec 4) : statAlgv (mkStat l v g a) = g := by
  unfold statAlgv mkStat
  rw [BitVec.getLsbD_append, BitVec.getLsbD_append, BitVec.getLsbD_append]
  simp

@[simp] theorem statReserved_mkStat (l : Life) (v g : Bool) (a : BitVec 4) : statReserved (mkStat l v g a) = 0#24 := by
  unfold statReserved mkStat
  rw [BitVec.extractLsb'_append_eq_of_le (by omega), BitVec.extractLsb'_append_eq_of_le (by omega),
    BitVec.extractLsb'_append_eq_of_le (by omega), BitVec.extractLsb'_append_eq_of_le (by omega)]
  rfl

@[simp] theorem statMalformed_mkStat (l : Life) (v g : Bool) (a : BitVec 4) :
    statMalformed (mkStat l v g a) = decide (l = .reserved) := by
  simp [statMalformed]

/-! ## What the run of each command can do -/

/-- `s1` is what the swap phase of a command on slot `c` leaves of `s` when it does not time out: the same state where no
swap was needed, else the state LoadOrResume leaves (41_session_lifecycle R156; 42_arbiter_swap R185). -/
def swapped (a : BitVec 4) (c : BitVec 8) (s s1 : State) : Prop := s1 = s ∨ loadOrResume c a s = .ok s1

/-- Everything the swap of HUPDATE can do: time out having only polled, or go on (R156). -/
theorem hupdateSwap_cases (a : BitVec 4) (c : BitVec 8) (data : List Byte) (s : State) :
    (∃ u, onlyPolled s u ∧ hupdateSwap a c data s = .timeout u) ∨
    (∃ s1, swapped a c s s1 ∧ hupdateSwap a c data s = .ok s1) := by
  unfold hupdateSwap
  split
  · cases hload : loadOrResume c a s with
    | timeout u => exact .inl ⟨u, (loadOrResume_timeout hload).2.2, rfl⟩
    | ok s1 => exact .inr ⟨s1, .inr hload, rfl⟩
  · exact .inr ⟨s, .inl rfl, rfl⟩

/-- Everything an HUPDATE can do after its checks: time out in the swap, absorb all its bytes, or time out in its data
phase (R155, R160). -/
theorem hupdateRun_cases (a : BitVec 4) (c : BitVec 8) (data : List Byte) (s : State) :
    (∃ u, onlyPolled s u ∧ hupdateRun a c data s = raise 3#4 c .timeout u) ∨
    (∃ s1 u, swapped a c s s1 ∧ absorbBytes c data (activate c (statShv (s.slotGet c .stat)) a s1) = .ok u ∧
      hupdateRun a c data s = returnOk 3#4 c u) ∨
    (∃ s1 u, swapped a c s s1 ∧ absorbBytes c data (activate c (statShv (s.slotGet c .stat)) a s1) = .timeout u ∧
      hupdateRun a c data s = dataPhaseTimeout 3#4 c u) := by
  obtain ⟨u, hpol, hswap⟩ | ⟨s1, hs1, hswap⟩ := hupdateSwap_cases a c data s
  · exact .inl ⟨u, hpol, by simp only [hupdateRun, hswap]⟩
  · cases habs : absorbBytes c data (activate c (statShv (s.slotGet c .stat)) a s1) with
    | ok u => exact .inr (.inl ⟨s1, u, hs1, habs, by simp only [hupdateRun, hswap, hupdateBody, habs]⟩)
    | timeout u => exact .inr (.inr ⟨s1, u, hs1, habs, by simp only [hupdateRun, hswap, hupdateBody, habs]⟩)

/-- Everything an HFINAL can do after its checks: time out in the swap, deliver the digest, or time out in its data phase
(R166, R171). -/
theorem hfinalRun_cases (a : BitVec 4) (c d : BitVec 8) (s : State) :
    (∃ u, onlyPolled s u ∧ hfinalRun a c d s = raise 4#4 c .timeout u) ∨
    (∃ s1 u, loadOrResume c a s = .ok s1 ∧ hfinalDrain a c s1 = .ok u ∧ hfinalRun a c d s = hfinalDeliver a c d u) ∨
    (∃ s1 u, loadOrResume c a s = .ok s1 ∧ hfinalDrain a c s1 = .timeout u ∧
      hfinalRun a c d s = dataPhaseTimeout 4#4 c u) := by
  cases hload : loadOrResume c a s with
  | timeout u => exact .inl ⟨u, (loadOrResume_timeout hload).2.2, by simp only [hfinalRun, hload]⟩
  | ok s1 =>
    cases hdrain : hfinalDrain a c s1 with
    | ok u => exact .inr (.inl ⟨s1, u, rfl, hdrain, by simp only [hfinalRun, hload, hdrain]⟩)
    | timeout u => exact .inr (.inr ⟨s1, u, rfl, hdrain, by simp only [hfinalRun, hload, hdrain]⟩)

/-- Everything a CLOAD can do after its checks (R189, R190). -/
theorem cloadRun_cases (a : BitVec 4) (c : BitVec 8) (s : State) :
    (∃ u, onlyPolled s u ∧ cloadRun a c s = raise 5#4 c .timeout u) ∨
    (∃ s1, loadOrResume c a s = .ok s1 ∧
      cloadRun a c s = returnOk 5#4 c (activate c (statShv (s.slotGet c .stat)) a s1)) := by
  cases hload : loadOrResume c a s with
  | timeout u => exact .inl ⟨u, (loadOrResume_timeout hload).2.2, by simp only [cloadRun, hload]⟩
  | ok s1 => exact .inr ⟨s1, rfl, by simp only [cloadRun, hload]⟩

/-- Everything a CSAVE of an existing slot can do (R191, R192). -/
theorem csaveRun_cases (c : BitVec 8) (s : State) :
    (s.owner ≠ some c ∧ csaveRun c s = returnOk 6#4 c s) ∨
    (∃ u, onlyPolled s u ∧ csaveRun c s = raise 6#4 c .timeout u) ∨
    (∃ u, s.owner = some c ∧ onlyPolled s u ∧ csaveRun c s = returnOk 6#4 c (captureInto c u)) := by
  by_cases ho : s.owner = some c
  · cases hpoll : pollReady .ready s with
    | timeout u => exact .inr (.inl ⟨u, pollReady_timeout hpoll, by simp only [csaveRun, ho, if_true, hpoll]⟩)
    | ok u => exact .inr (.inr ⟨u, ho, pollReady_ok hpoll, by simp only [csaveRun, ho, if_true, hpoll]⟩)
  · exact .inl ⟨ho, by simp only [csaveRun, ho, if_false]⟩

/-- The session record an AINIT binds, and nothing else (44_cipher_adapter R233). -/
def bindRecord (f : BitVec 4) (k : BitVec 8) (b : Blocks) (s : State) : State :=
  { s with sessions := s.sessions.set k.toNat ⟨true, f, blocksBlob b⟩ }

/-- Everything an AINIT can do after its checks (44_cipher_adapter R233, R236). -/
theorem ainitRun_cases (f : BitVec 4) (k : BitVec 8) (b : Blocks) (s : State) :
    (s.owner = none ∧ ainitRun f k b s = returnOk 7#4 k (bindRecord f k b s.unspecifyPR)) ∨
    (∃ u, onlyPolled s u ∧ ainitRun f k b s = raise 7#4 k .timeout u) ∨
    (∃ o u, s.owner = some o ∧ onlyPolled s u ∧
      ainitRun f k b s = returnOk 7#4 k (bindRecord f k b (captureInto o u).releaseUnit)) := by
  obtain ⟨ho, heq⟩ | ⟨o, u, _, _, hpol, heq⟩ | ⟨o, u, ho, _, hpol, heq⟩ := evictForCipher_cases s
  · exact .inl ⟨ho, by simp only [ainitRun, heq]; rfl⟩
  · exact .inr (.inl ⟨u, hpol, by simp only [ainitRun, heq]⟩)
  · exact .inr (.inr ⟨o, u, ho, hpol, by simp only [ainitRun, heq]; rfl⟩)

/-- What the flush, the length write and the polls keep, a drain keeps (41_session_lifecycle R166). -/
theorem hfinalDrain_keeps {P : State → Prop} {a : BitVec 4} {c : BitVec 8} (hsubmit : ∀ s, P s → P (submitted c s))
    (hfin : ∀ len s, P s → P (finalize a len s)) (hpoll : ∀ s t, onlyPolled s t → P s → P t) {s : State} (h : P s) :
    P (hfinalDrain a c s).state := by
  have hflush : P (flushPartial c s).state := by
    obtain ⟨_, heq⟩ | ⟨_, heq⟩ := flushPartial_cases c s <;> rw [heq]
    · exact h
    · exact hpoll _ _ (pollReady_onlyPolled _ _) (hsubmit s h)
  unfold hfinalDrain
  split
  · rename_i u hu
    rwa [hu] at hflush
  · rename_i u hu
    rw [hu] at hflush
    exact hpoll _ _ (pollReady_onlyPolled _ _) (hfin _ u hflush)

/-! ## What only the end of a command writes (10_state R56; 30_encoding R111) -/

/-- From `s` to `t` no session record and no response word is written. -/
structure Silent (s t : State) : Prop where
  sessions : t.sessions = s.sessions
  responses : t.responses = s.responses

theorem silent_refl (s : State) : Silent s s := ⟨rfl, rfl⟩

theorem silent_trans {s t u : State} (h1 : Silent s t) (h2 : Silent t u) : Silent s u :=
  ⟨h2.sessions.trans h1.sessions, h2.responses.trans h1.responses⟩

theorem onlyPolled_silent {s t : State} (h : onlyPolled s t) : Silent s t :=
  ⟨onlyPolled_sessions h, onlyPolled_responses h⟩

theorem loadOrResume_silent {a : BitVec 4} {c : BitVec 8} {s t : State} (h : loadOrResume c a s = .ok t) : Silent s t := by
  have hframe := loadOrResume_frame c a s
  rw [h, Polled.state_ok] at hframe
  exact ⟨by rw [hframe], by rw [hframe]⟩

theorem swapped_silent {a : BitVec 4} {c : BitVec 8} {s s1 : State} (h : swapped a c s s1) : Silent s s1 := by
  obtain rfl | h := h
  · exact silent_refl s1
  · exact loadOrResume_silent h

theorem submitBuffer_silent (c : BitVec 8) (s : State) : Silent s (submitBuffer c s).state :=
  silent_trans (t := submitted c s) ⟨rfl, rfl⟩ (onlyPolled_silent (pollReady_onlyPolled _ _))

theorem absorbBytes_silent (c : BitVec 8) (xs : List Byte) (s : State) : Silent s (absorbBytes c xs s).state :=
  absorbBytes_keeps (P := Silent s) (fun _ _ h => silent_trans h ⟨rfl, rfl⟩)
    (fun t h => silent_trans h (submitBuffer_silent c t)) xs (silent_refl s)

theorem hfinalDrain_silent (a : BitVec 4) (c : BitVec 8) (s : State) : Silent s (hfinalDrain a c s).state :=
  hfinalDrain_keeps (P := Silent s) (fun _ h => silent_trans h ⟨rfl, rfl⟩) (fun _ _ h => silent_trans h ⟨rfl, rfl⟩)
    (fun _ _ hpol h => silent_trans h (onlyPolled_silent hpol)) (silent_refl s)

/-- The swap and the data phase of an HUPDATE write no session record and no response, however they end. -/
theorem hupdate_silent {a : BitVec 4} {c : BitVec 8} {shv : Bool} {data : List Byte} {s s1 : State} (h : swapped a c s s1) :
    Silent s (absorbBytes c data (activate c shv a s1)).state :=
  have hactivate : Silent s1 (activate c shv a s1) := ⟨rfl, rfl⟩
  silent_trans (silent_trans (swapped_silent h) hactivate) (absorbBytes_silent c data _)

/-- The swap and the data phase of an HFINAL write no session record and no response, however they end. -/
theorem hfinal_silent {a : BitVec 4} {c : BitVec 8} {s s1 : State} (h : loadOrResume c a s = .ok s1) :
    Silent s (hfinalDrain a c s1).state :=
  silent_trans (loadOrResume_silent h) (hfinalDrain_silent a c s1)

theorem hupdateRun_sessions (a : BitVec 4) (c : BitVec 8) (data : List Byte) (s : State) :
    (hupdateRun a c data s).sessions = s.sessions := by
  obtain ⟨u, hpol, heq⟩ | ⟨s1, u, hswap, habs, heq⟩ | ⟨s1, u, hswap, habs, heq⟩ := hupdateRun_cases a c data s <;>
    rw [heq]
  · simpa using onlyPolled_sessions hpol
  all_goals
    have h := hupdate_silent (shv := statShv (s.slotGet c .stat)) (data := data) hswap
    rw [habs] at h
    exact h.sessions

theorem hfinalRun_sessions (a : BitVec 4) (c d : BitVec 8) (s : State) : (hfinalRun a c d s).sessions = s.sessions := by
  obtain ⟨u, hpol, heq⟩ | ⟨s1, u, hload, hdrain, heq⟩ | ⟨s1, u, hload, hdrain, heq⟩ := hfinalRun_cases a c d s <;>
    rw [heq]
  · simpa using onlyPolled_sessions hpol
  all_goals
    have h := hfinal_silent hload
    rw [hdrain] at h
    exact h.sessions

theorem cloadRun_sessions (a : BitVec 4) (c : BitVec 8) (s : State) : (cloadRun a c s).sessions = s.sessions := by
  obtain ⟨u, hpol, heq⟩ | ⟨s1, hload, heq⟩ := cloadRun_cases a c s <;> rw [heq]
  · simpa using onlyPolled_sessions hpol
  · exact (loadOrResume_silent hload).sessions

theorem csaveRun_sessions (c : BitVec 8) (s : State) : (csaveRun c s).sessions = s.sessions := by
  obtain ⟨_, heq⟩ | ⟨u, hpol, heq⟩ | ⟨u, _, hpol, heq⟩ := csaveRun_cases c s <;> rw [heq]
  · rfl
  · simpa using onlyPolled_sessions hpol
  · simpa using onlyPolled_sessions hpol

/-! ## The invariant of the data, between commands and during one (10_state R57) -/

theorem sized_of_sound {s : State} (h : Sound s) : Sized s := ⟨h.sessions_len, h.acc_len, h.stg_len, h.res_len⟩

/-- The invariant while a command on slot `c` is in progress: as `Sound`, but STAT of slot `c` may still have to become
Active. A swap makes the slot the owner before the command writes its STAT (R155, R185, R189). -/
structure SoundBut (c : BitVec 8) (s : State) : Prop where
  slot : slotExists s.cfg c = true
  store_wf : Store.wf s.store
  store_bound : ∀ x ∈ s.store, x.1 < s.cfg.storeWords
  sized : Sized s
  owner_but : ∀ o, s.owner = some o →
    slotExists s.cfg o = true ∧ (o ≠ c → statLife (s.slotGet o .stat) = .active) ∧ s.prDefined = true

theorem soundBut_of_sound {c : BitVec 8} {s : State} (h : Sound s) (hc : slotExists s.cfg c = true) : SoundBut c s where
  slot := hc
  store_wf := h.store_wf
  store_bound := h.store_bound
  sized := sized_of_sound h
  owner_but := fun o ho =>
    have ⟨hex, hact, hdef⟩ := h.owner_sound o ho
    ⟨hex, fun _ => hact, hdef⟩

/-- Once the slot in progress is Active, or the unit has no owner, the invariant holds again. -/
theorem sound_of_soundBut {c : BitVec 8} {s : State} (h : SoundBut c s)
    (hact : s.owner = some c → statLife (s.slotGet c .stat) = .active) : Sound s where
  store_wf := h.store_wf
  store_bound := h.store_bound
  sessions_len := h.sized.sessions
  acc_len := h.sized.acc
  stg_len := h.sized.stg
  res_len := h.sized.res
  owner_sound := fun o ho => by
    obtain ⟨hex, hother, hdef⟩ := h.owner_but o ho
    by_cases hoc : o = c
    · subst hoc
      exact ⟨hex, hact ho, hdef⟩
    · exact ⟨hex, hother hoc, hdef⟩

/-- The invariant reads the store, the configuration, OWNER, the record of PR and the sizes. -/
theorem sound_congr {s t : State} (hstore : t.store = s.store) (hcfg : t.cfg = s.cfg) (howner : t.owner = s.owner)
    (hdef : t.prDefined = s.prDefined) (hsized : Sized t) (h : Sound s) : Sound t where
  store_wf := by rw [hstore]; exact h.store_wf
  store_bound := by rw [hstore, hcfg]; exact h.store_bound
  sessions_len := hsized.sessions
  acc_len := hsized.acc
  stg_len := hsized.stg
  res_len := hsized.res
  owner_sound := fun o ho => by
    rw [hcfg, hdef, slotGet_congr hstore hcfg]
    exact h.owner_sound o (howner ▸ ho)

theorem onlyPolled_sound {s t : State} (hpol : onlyPolled s t) (h : Sound s) : Sound t :=
  sound_congr (onlyPolled_store hpol) (onlyPolled_cfg hpol) (onlyPolled_owner hpol) (onlyPolled_prDefined hpol)
    (onlyPolled_sized hpol (sized_of_sound h)) h

theorem accept_sound {s : State} (packet rest : List Word) (h : Sound s) : Sound (accept packet rest s) :=
  sound_congr (s := s) rfl rfl rfl rfl (sized_congr (s := s) rfl rfl rfl rfl (sized_of_sound h)) h

/-- A response ends the command, and sound data stay sound (30_encoding R111). -/
theorem answered_inv {s : State} (hdr : Word) (p : List Word) (h : Sound s) : Inv (answered hdr p s) where
  sound := sound_congr (s := s) rfl rfl rfl rfl (sized_congr (s := s) rfl rfl rfl rfl (sized_of_sound h)) h
  no_command := rfl
  no_response := rfl

theorem respond_inv {s : State} (hdr : Word) (p : List Word) (h : Sound s) : Inv (respond hdr p s) :=
  respond_eq_answered hdr p s ▸ answered_inv hdr p h

theorem raise_inv {s : State} (o : BitVec 4) (c : BitVec 8) (st : Status) (h : Sound s) : Inv (raise o c st s) :=
  raise_eq_answered o c st s ▸ answered_inv _ _ h

theorem returnOk_inv {s : State} (o : BitVec 4) (c : BitVec 8) (h : Sound s) : Inv (returnOk o c s) :=
  returnOk_eq_answered o c s ▸ answered_inv _ _ h

/-! ## Operations on the slot of the command in progress -/

/-- Writes to the slot in progress keep the invariant in progress. -/
theorem touches_soundBut {c : BitVec 8} {s t : State} (h : SoundBut c s) (ht : Touches c s t) (hsized : Sized t)
    (howner : t.owner = s.owner) (hdef : t.prDefined = s.prDefined) : SoundBut c t where
  slot := by rw [ht.cfg]; exact h.slot
  store_wf := ht.wf h.store_wf
  store_bound := by rw [ht.cfg]; exact ht.bound h.slot h.store_bound
  sized := hsized
  owner_but := fun o ho => by
    obtain ⟨hex, hother, hd⟩ := h.owner_but o (howner ▸ ho)
    refine ⟨by rwa [ht.cfg], fun hoc => ?_, hdef.trans hd⟩
    rw [touches_slotGet ht h.store_wf hoc (f := .stat) trivial]
    exact hother hoc

theorem onlyPolled_soundBut {c : BitVec 8} {s t : State} (hpol : onlyPolled s t) (h : SoundBut c s) : SoundBut c t :=
  touches_soundBut h (onlyPolled_touches hpol c) (onlyPolled_sized hpol h.sized) (onlyPolled_owner hpol)
    (onlyPolled_prDefined hpol)

theorem slotPut_soundBut {c : BitVec 8} {s : State} {f : Field} (hf : f.valid s.cfg) (v : Word) (h : SoundBut c s) :
    SoundBut c (s.slotPut c f v) :=
  touches_soundBut h (slotPut_touches s c hf v) (sized_congr (s := s) rfl rfl rfl rfl h.sized) rfl rfl

theorem activate_soundBut {c : BitVec 8} {s : State} (shv : Bool) (a : BitVec 4) (h : SoundBut c s) :
    SoundBut c (activate c shv a s) :=
  slotPut_soundBut (f := .stat) trivial _ h

theorem appendByte_soundBut {c : BitVec 8} {s : State} (x : Byte) (h : SoundBut c s) : SoundBut c (appendByte c x s) :=
  touches_soundBut h (appendByte_touches c x s) (appendByte_sized c x h.sized) rfl rfl

theorem submitted_soundBut {c : BitVec 8} {s : State} (h : SoundBut c s) : SoundBut c (submitted c s) :=
  touches_soundBut h (submitted_touches c s)
    (submitWord_sized _ (sized_congr (s := s) rfl rfl rfl rfl h.sized)) rfl rfl

theorem finalize_soundBut {c : BitVec 8} {s : State} (a : BitVec 4) (len : Word) (h : SoundBut c s) :
    SoundBut c (finalize a len s) :=
  touches_soundBut h (touches_of_same rfl rfl) (finalize_sized a len h.sized) rfl rfl

theorem absorbBytes_soundBut {c : BitVec 8} {s : State} (xs : List Byte) (h : SoundBut c s) :
    SoundBut c (absorbBytes c xs s).state :=
  absorbBytes_keeps (P := SoundBut c) (fun _ x h => appendByte_soundBut x h)
    (fun _ h => onlyPolled_soundBut (pollReady_onlyPolled _ _) (submitted_soundBut h)) xs h

theorem hfinalDrain_soundBut {a : BitVec 4} {c : BitVec 8} {s : State} (h : SoundBut c s) :
    SoundBut c (hfinalDrain a c s).state :=
  hfinalDrain_keeps (P := SoundBut c) (fun _ h => submitted_soundBut h) (fun len _ h => finalize_soundBut a len h)
    (fun _ _ hpol h => onlyPolled_soundBut hpol h) h

/-- Absorbing bytes leaves STAT of the slot alone (R155). -/
theorem absorbBytes_stat {c : BitVec 8} {s : State} (xs : List Byte) (hw : Store.wf s.store) :
    (absorbBytes c xs s).state.slotGet c .stat = s.slotGet c .stat := by
  have happend : ∀ (t : State) (x : Byte), Store.wf t.store ∧ t.slotGet c .stat = s.slotGet c .stat →
      Store.wf (appendByte c x t).store ∧ (appendByte c x t).slotGet c .stat = s.slotGet c .stat := by
    rintro t x ⟨hwt, hstat⟩
    obtain ⟨_, _, _, hkeep⟩ := appendByte_get (c := c) hwt x
    exact ⟨(appendByte_touches c x t).wf hwt, hkeep.trans hstat⟩
  have hsubmit : ∀ t : State, Store.wf t.store ∧ t.slotGet c .stat = s.slotGet c .stat →
      Store.wf (submitBuffer c t).state.store ∧ (submitBuffer c t).state.slotGet c .stat = s.slotGet c .stat := by
    rintro t ⟨hwt, hstat⟩
    obtain ⟨_, _, _, hkeep⟩ := submitted_get (c := c) hwt
    have hpol := pollReady_onlyPolled .ready (submitted c t)
    exact ⟨(submitBuffer_touches c t).wf hwt, by rw [submitBuffer_eq, onlyPolled_slotGet hpol, hkeep, hstat]⟩
  exact (absorbBytes_keeps (P := fun t => Store.wf t.store ∧ t.slotGet c .stat = s.slotGet c .stat) happend hsubmit xs
    ⟨hw, rfl⟩).2

/-- Releasing the unit ends every claim on OWNER (41_session_lifecycle R153, R170). -/
theorem releaseUnit_sound {c : BitVec 8} {s : State} (h : SoundBut c s) : Sound s.releaseUnit :=
  sound_of_soundBut (c := c)
    { slot := h.slot
      store_wf := h.store_wf
      store_bound := h.store_bound
      sized := releaseUnit_sized h.sized
      owner_but := fun _ ho => nomatch ho }
    (fun ho => nomatch ho)

/-- A data-phase Timeout leaves sound data: its slot holds free values, and nothing is loaded (60_exceptions R263). -/
theorem dataPhaseTimeout_inv {c : BitVec 8} {s : State} (o : BitVec 4) (h : SoundBut c s) : Inv (dataPhaseTimeout o c s) := by
  have hslot : SoundBut c (s.unspecifySlot c) :=
    touches_soundBut h (unspecifySlot_touches s c) (sized_congr (s := s) rfl rfl rfl rfl h.sized) rfl rfl
  exact raise_inv o c .timeout (releaseUnit_sound hslot)

/-! ## The swap (42_arbiter_swap R185, R186) -/

/-- A capture of the owner leaves it Active (R186). -/
theorem captureInto_sound {o : BitVec 8} {s : State} (h : Sound s) (ho : s.owner = some o) : Sound (captureInto o s) := by
  obtain ⟨hex, hact, _⟩ := h.owner_sound o ho
  have hbut : SoundBut o (captureInto o s) :=
    touches_soundBut (soundBut_of_sound h hex) (captureInto_touches o s) (captureInto_sized o (sized_of_sound h)) rfl rfl
  refine sound_of_soundBut hbut fun _ => ?_
  rw [slotGet_captureInto_stat h.store_wf, statLife_setShv, hact]

theorem evictOwner_sound {s : State} (h : Sound s) : Sound (evictOwner s) := by
  cases ho : s.owner with
  | none => rwa [evictOwner_none ho]
  | some o =>
    rw [evictOwner_some ho]
    exact captureInto_sound h ho

/-- After the slot is brought in, only its STAT is left to be made Active (R185). -/
theorem bringIn_soundBut {c : BitVec 8} {a : BitVec 4} {s : State} (h : Sound s) (hc : slotExists s.cfg c = true) :
    SoundBut c (bringIn c a s) where
  slot := by rwa [bringIn_cfg]
  store_wf := by rw [bringIn_store]; exact h.store_wf
  store_bound := by rw [bringIn_store, bringIn_cfg]; exact h.store_bound
  sized := bringIn_sized c a (sized_of_sound h)
  owner_but := fun o ho => by
    rw [bringIn_owner, Option.some.injEq] at ho
    subst ho
    exact ⟨by rwa [bringIn_cfg], fun hne => absurd rfl hne, bringIn_prDefined s c a⟩

theorem loadOrResume_soundBut {c : BitVec 8} {a : BitVec 4} {s t : State} (h : Sound s) (hc : slotExists s.cfg c = true)
    (hload : loadOrResume c a s = .ok t) : SoundBut c t := by
  obtain ⟨_, rfl⟩ | ⟨_, u, _, hpol, rfl⟩ := loadOrResume_ok hload
  · exact soundBut_of_sound h hc
  · exact bringIn_soundBut (evictOwner_sound (onlyPolled_sound hpol h)) (by rwa [evictOwner_cfg, onlyPolled_cfg hpol])

theorem swapped_soundBut {c : BitVec 8} {a : BitVec 4} {s s1 : State} (h : Sound s) (hc : slotExists s.cfg c = true)
    (hswap : swapped a c s s1) : SoundBut c s1 := by
  obtain rfl | hload := hswap
  · exact soundBut_of_sound h hc
  · exact loadOrResume_soundBut h hc hload

/-! ## The invariant through each command -/

theorem activate_stat {c : BitVec 8} {s : State} (hw : Store.wf s.store) (shv : Bool) (a : BitVec 4) :
    (activate c shv a s).slotGet c .stat = mkStat .active shv true a := activate_get hw shv a .stat rfl

theorem activate_sound {c : BitVec 8} {s : State} (shv : Bool) (a : BitVec 4) (h : SoundBut c s) :
    Sound (activate c shv a s) :=
  sound_of_soundBut (activate_soundBut shv a h) fun _ => by rw [activate_stat h.store_wf, statLife_mkStat]

theorem initSlot_sound {c : BitVec 8} {s : State} (h : Sound s) (hc : slotExists s.cfg c = true) : Sound (initSlot c s) := by
  have hfill : SoundBut c (s.slotFill c (List.replicate s.cfg.slotWords 0#32)) :=
    touches_soundBut (soundBut_of_sound h hc) (slotFill_touches s c (by simp))
      (sized_congr (s := s) rfl rfl rfl rfl (sized_of_sound h)) rfl rfl
  simp only [initSlot]
  split
  · exact releaseUnit_sound hfill
  · rename_i hne
    exact sound_of_soundBut hfill fun ho => absurd ho hne

theorem hupdateRun_inv {a : BitVec 4} {c : BitVec 8} {data : List Byte} {s : State} (h : Sound s)
    (hc : slotExists s.cfg c = true) : Inv (hupdateRun a c data s) := by
  have hdata : ∀ s1 shv, swapped a c s s1 → SoundBut c (absorbBytes c data (activate c shv a s1)).state :=
    fun s1 shv hswap => absorbBytes_soundBut data (activate_soundBut shv a (swapped_soundBut h hc hswap))
  obtain ⟨u, hpol, heq⟩ | ⟨s1, u, hswap, habs, heq⟩ | ⟨s1, u, hswap, habs, heq⟩ := hupdateRun_cases a c data s <;>
    rw [heq]
  · exact raise_inv _ _ _ (onlyPolled_sound hpol h)
  · have hs1 := (swapped_soundBut h hc hswap).store_wf
    have hbut := hdata s1 (statShv (s.slotGet c .stat)) hswap
    have hstat := absorbBytes_stat (c := c) data ((activate_touches c (statShv (s.slotGet c .stat)) a s1).wf hs1)
    rw [habs, Polled.state_ok] at hbut hstat
    refine returnOk_inv _ _ (sound_of_soundBut hbut fun _ => ?_)
    rw [hstat, activate_stat hs1, statLife_mkStat]
  · have hbut := hdata s1 (statShv (s.slotGet c .stat)) hswap
    rw [habs] at hbut
    exact dataPhaseTimeout_inv _ hbut

theorem hfinalDeliver_inv {a : BitVec 4} {c d : BitVec 8} {s : State} (h : SoundBut c s) : Inv (hfinalDeliver a c d s) := by
  have hread : SoundBut c (afterDigestRead d s) :=
    touches_soundBut h (touches_of_same rfl rfl) (sized_congr (s := s) rfl rfl rfl rfl h.sized) rfl rfl
  exact respond_inv _ _ (releaseUnit_sound (slotPut_soundBut (f := .stat) trivial _ hread))

theorem hfinalRun_inv {a : BitVec 4} {c d : BitVec 8} {s : State} (h : Sound s) (hc : slotExists s.cfg c = true) :
    Inv (hfinalRun a c d s) := by
  have hdata : ∀ s1, loadOrResume c a s = .ok s1 → SoundBut c (hfinalDrain a c s1).state :=
    fun s1 hload => hfinalDrain_soundBut (loadOrResume_soundBut h hc hload)
  obtain ⟨u, hpol, heq⟩ | ⟨s1, u, hload, hdrain, heq⟩ | ⟨s1, u, hload, hdrain, heq⟩ := hfinalRun_cases a c d s <;>
    rw [heq]
  · exact raise_inv _ _ _ (onlyPolled_sound hpol h)
  · have hbut := hdata s1 hload
    rw [hdrain] at hbut
    exact hfinalDeliver_inv hbut
  · have hbut := hdata s1 hload
    rw [hdrain] at hbut
    exact dataPhaseTimeout_inv _ hbut

theorem cloadRun_inv {a : BitVec 4} {c : BitVec 8} {s : State} (h : Sound s) (hc : slotExists s.cfg c = true) :
    Inv (cloadRun a c s) := by
  obtain ⟨u, hpol, heq⟩ | ⟨s1, hload, heq⟩ := cloadRun_cases a c s <;> rw [heq]
  · exact raise_inv _ _ _ (onlyPolled_sound hpol h)
  · exact returnOk_inv _ _ (activate_sound _ a (loadOrResume_soundBut h hc hload))

theorem csaveRun_inv {c : BitVec 8} {s : State} (h : Sound s) : Inv (csaveRun c s) := by
  obtain ⟨_, heq⟩ | ⟨u, hpol, heq⟩ | ⟨u, ho, hpol, heq⟩ := csaveRun_cases c s <;> rw [heq]
  · exact returnOk_inv _ _ h
  · exact raise_inv _ _ _ (onlyPolled_sound hpol h)
  · exact returnOk_inv _ _ (captureInto_sound (onlyPolled_sound hpol h) ((onlyPolled_owner hpol).trans ho))

/-- Binding a session record keeps the number of records (10_state R56). -/
theorem bindRecord_sound {s : State} (f : BitVec 4) (k : BitVec 8) (b : Blocks) (h : Sound s) : Sound (bindRecord f k b s) :=
  sound_congr (s := s) rfl rfl rfl rfl (sized_congr (s := s) rfl (by simp [bindRecord]) rfl rfl (sized_of_sound h)) h

theorem ainitRun_inv {f : BitVec 4} {k : BitVec 8} {b : Blocks} {s : State} (h : Sound s) : Inv (ainitRun f k b s) := by
  obtain ⟨ho, heq⟩ | ⟨u, hpol, heq⟩ | ⟨o, u, ho, hpol, heq⟩ := ainitRun_cases f k b s <;> rw [heq]
  · refine returnOk_inv _ _ (bindRecord_sound f k b ?_)
    exact { h with
      acc_len := (unspecifyPR_sized (sized_of_sound h)).acc
      owner_sound := fun o hso => by rw [unspecifyPR_owner, ho] at hso; cases hso }
  · exact raise_inv _ _ _ (onlyPolled_sound hpol h)
  · have hu := onlyPolled_sound hpol h
    have hou := (onlyPolled_owner hpol).trans ho
    have hcap : SoundBut o (captureInto o u) := soundBut_of_sound (captureInto_sound hu hou) (hu.owner_sound o hou).1
    exact returnOk_inv _ _ (bindRecord_sound f k b (releaseUnit_sound hcap))

/-- Every command run on sound data ends with its response and sound data (10_state R57). -/
theorem exec_inv {i : Instr} {s t : State} (hs : Sound s) (h : exec i s = .next t) : Inv t := by
  cases i with
  | detect =>
    cases h
    exact respond_inv _ _ hs
  | hinit c =>
    obtain ⟨_, rfl⟩ | ⟨hc, rfl⟩ := exec_hinit_next h
    · exact raise_inv _ _ _ hs
    · exact returnOk_inv _ _ (initSlot_sound hs hc)
  | hupdate a c len payload =>
    obtain ⟨st, _, rfl⟩ | ⟨hopen, _, _, rfl⟩ := exec_hupdate_next h
    · exact raise_inv _ _ _ hs
    · exact hupdateRun_inv hs hopen.slot
  | hfinal a c d =>
    obtain ⟨st, _, rfl⟩ | ⟨hopen, _, _, _, rfl⟩ := exec_hfinal_next h
    · exact raise_inv _ _ _ hs
    · exact hfinalRun_inv hs hopen.slot
  | cload a c =>
    obtain ⟨st, _, rfl⟩ | ⟨hopen, _, rfl⟩ := exec_cload_next h
    · exact raise_inv _ _ _ hs
    · exact cloadRun_inv hs hopen.slot
  | csave c =>
    obtain ⟨_, rfl⟩ | ⟨_, rfl⟩ := exec_csave_next h
    · exact raise_inv _ _ _ hs
    · exact csaveRun_inv hs
  | ainit f k b =>
    obtain ⟨st, _, rfl⟩ | ⟨_, _, rfl⟩ := exec_ainit_next h
    · exact raise_inv _ _ _ hs
    · exact ainitRun_inv hs

/-! ## Slots in good standing (10_state R57 items 3 to 6) -/

/-- A slot's good standing is a fact about the slot's own words. -/
theorem slotSound_of_sameSlot {c : BitVec 8} {s t : State} (hcfg : t.cfg = s.cfg) (hsame : sameSlot c s t)
    (h : SlotSound s c) : SlotSound t c := by
  have hget : ∀ f : Field, f.valid s.cfg → t.slotGet c f = s.slotGet c f := fun f hf => by
    unfold State.slotGet
    rw [hcfg]
    exact hsame _ (offset_lt hf)
  have hlen := hget .bufLen trivial
  have hstat := hget .stat trivial
  constructor
  case fresh_zero =>
    rw [hstat, hcfg]
    intro hfresh k hk
    rw [hsame k hk, h.fresh_zero hfresh k hk]
  case spare_lanes =>
    rw [hlen, hget .buf trivial, hcfg]
    exact h.spare_lanes
  case bufLen_le => exact hlen ▸ h.bufLen_le
  case shv_active => exact hstat ▸ h.shv_active
  case unlatched_fresh => exact hstat ▸ h.unlatched_fresh
  case active_latched => exact hstat ▸ h.active_latched
  case stat_sound => exact hstat ▸ h.stat_sound

theorem slotSound_congr {c : BitVec 8} {s t : State} (hstore : t.store = s.store) (hcfg : t.cfg = s.cfg)
    (h : SlotSound s c) : SlotSound t c :=
  slotSound_of_sameSlot hcfg (fun _ _ => by rw [hstore]) h

theorem onlyPolled_slotSound {c : BitVec 8} {s t : State} (hpol : onlyPolled s t) (h : SlotSound s c) : SlotSound t c :=
  slotSound_congr (onlyPolled_store hpol) (onlyPolled_cfg hpol) h

/-- Writes to one slot keep the others in good standing (20_memory R73). -/
theorem touches_slotSound {c y : BitVec 8} {s t : State} (ht : Touches c s t) (hw : Store.wf s.store) (hy : y ≠ c)
    (h : SlotSound s y) : SlotSound t y :=
  slotSound_of_sameSlot ht.cfg (fun _ hk => touches_read ht hw hy hk) h

/-- A slot of zeros is in good standing and Fresh (10_state R60). -/
theorem slotSound_of_zeros {c : BitVec 8} {s : State}
    (hzero : ∀ k < s.cfg.slotWords, Store.read s.store (slotAddr s.cfg c + k) = 0#32) :
    SlotSound s c ∧ statLife (s.slotGet c .stat) = .fresh := by
  have hget : ∀ f : Field, f.valid s.cfg → s.slotGet c f = 0#32 := fun f hf => hzero _ (offset_lt hf)
  have hlen := hget .bufLen trivial
  have hbuf := hget .buf trivial
  have hstat := hget .stat trivial
  refine ⟨?_, by rw [hstat]; decide⟩
  constructor
  case fresh_zero => exact fun _ => hzero
  case spare_lanes => simp [hbuf]
  case bufLen_le => simp [hlen]
  case shv_active => rw [hstat]; decide
  case unlatched_fresh => rw [hstat]; decide
  case active_latched => rw [hstat]; decide
  case stat_sound => rw [hstat]; decide

/-- HINIT puts its slot in good standing, and Fresh (41_session_lifecycle R152). -/
theorem initSlot_slotSound {c : BitVec 8} {s : State} (hw : Store.wf s.store) :
    SlotSound (initSlot c s) c ∧ statLife ((initSlot c s).slotGet c .stat) = .fresh := by
  apply slotSound_of_zeros
  intro k hk
  rw [initSlot_cfg] at hk ⊢
  have hread := read_slotFill_same hw c (List.replicate s.cfg.slotWords 0#32) k
  rw [slotFill_store, List.length_replicate, if_pos hk] at hread
  rw [initSlot_store, hread]
  simp [List.getD_eq_getElem?_getD, hk]

/-- A slot whose STAT a command has just written, Active or Finalized, is in good standing if its buffer is. -/
theorem slotSound_of_mkStat {c : BitVec 8} {s : State} {l : Life} {shv : Bool} {a : BitVec 4}
    (hstat : s.slotGet c .stat = mkStat l shv true a) (hl : l = .active ∨ l = .finalized ∧ shv = false)
    (hlen : (s.slotGet c .bufLen).toNat ≤ 3)
    (hspare : ∀ b, (s.slotGet c .bufLen).toNat ≤ b → b < 4 → lane s.cfg.byteOrder (s.slotGet c .buf) b = 0#8) :
    SlotSound s c := by
  have hlife : l ≠ .fresh ∧ l ≠ .reserved ∧ (shv = true → l = .active) := by
    obtain rfl | ⟨rfl, rfl⟩ := hl <;> simp
  obtain ⟨hfresh, hreserved, hshv⟩ := hlife
  constructor
  case bufLen_le => exact hlen
  case spare_lanes => exact hspare
  case fresh_zero =>
    rw [hstat, statLife_mkStat]
    exact fun h => absurd h hfresh
  case shv_active => rwa [hstat, statShv_mkStat, statLife_mkStat]
  case unlatched_fresh => simp [hstat]
  case active_latched => simp [hstat]
  case stat_sound => simpa [hstat] using hreserved

/-! ## The swap and good standing -/

/-- A capture keeps every slot in good standing: it changes only an Active slot, and of its STAT only SHV (R186). -/
theorem captureInto_slotSound {o y : BitVec 8} {s : State} (hw : Store.wf s.store)
    (hact : statLife (s.slotGet o .stat) = .active) (h : SlotSound s y) : SlotSound (captureInto o s) y := by
  by_cases hy : y = o
  · subst hy
    have hlen := slotGet_captureInto_word hw y (f := .bufLen) (.inr (.inl rfl))
    have hbuf := slotGet_captureInto_word hw y (f := .buf) (.inl rfl)
    have hstat := slotGet_captureInto_stat hw y
    have hlife : statLife ((captureInto y s).slotGet y .stat) = .active := by rw [hstat, statLife_setShv, hact]
    constructor
    case bufLen_le => exact hlen ▸ h.bufLen_le
    case spare_lanes =>
      rw [hlen, hbuf, captureInto_cfg]
      exact h.spare_lanes
    case fresh_zero =>
      rw [hlife]
      exact fun hfresh => nomatch hfresh
    case shv_active => exact fun _ => hlife
    case unlatched_fresh =>
      rw [hstat, statAlgv_setShv, h.active_latched hact]
      exact fun hfalse => nomatch hfalse
    case active_latched =>
      rw [hstat, statAlgv_setShv]
      exact fun _ => h.active_latched hact
    case stat_sound =>
      rw [hstat, statMalformed_setShv]
      exact h.stat_sound
  · exact touches_slotSound (captureInto_touches o s) hw hy h

theorem evictOwner_slotSound {y : BitVec 8} {s : State} (hs : Sound s) (h : SlotSound s y) :
    SlotSound (evictOwner s) y := by
  cases ho : s.owner with
  | none => rwa [evictOwner_none ho]
  | some o =>
    obtain ⟨_, hact, _⟩ := hs.owner_sound o ho
    rw [evictOwner_some ho]
    exact captureInto_slotSound hs.store_wf hact h

theorem swapped_slotSound {a : BitVec 4} {c y : BitVec 8} {s s1 : State} (hs : Sound s) (hswap : swapped a c s s1)
    (h : SlotSound s y) : SlotSound s1 y := by
  obtain rfl | hload := hswap
  · exact h
  obtain ⟨_, rfl⟩ | ⟨_, u, _, hpol, rfl⟩ := loadOrResume_ok hload
  · exact h
  · exact slotSound_congr (bringIn_store _ c a) (bringIn_cfg _ c a)
      (evictOwner_slotSound (onlyPolled_sound hpol hs) (onlyPolled_slotSound hpol h))

/-! ## The data phase and the good standing of its slot -/

theorem activate_slotSound {c : BitVec 8} {s : State} (shv : Bool) (a : BitVec 4) (hw : Store.wf s.store)
    (h : SlotSound s c) : SlotSound (activate c shv a s) c := by
  have hlen : (activate c shv a s).slotGet c .bufLen = s.slotGet c .bufLen := activate_get hw shv a .bufLen rfl
  have hbuf : (activate c shv a s).slotGet c .buf = s.slotGet c .buf := activate_get hw shv a .buf rfl
  apply slotSound_of_mkStat (activate_stat hw shv a) (.inl rfl)
  · exact hlen ▸ h.bufLen_le
  · rw [hlen, hbuf, activate_cfg]
    exact h.spare_lanes

/-- Absorbing bytes to the end leaves fewer than four of them buffered, and the lanes behind them 0 (R211, R212). -/
theorem absorbBytes_slotSound {c : BitVec 8} {s t : State} {xs : List Byte} {shv : Bool} {a : BitVec 4}
    (hw : Store.wf s.store) (hstat : s.slotGet c .stat = mkStat .active shv true a) (h : SlotSound s c)
    (habs : absorbBytes c xs s = .ok t) : SlotSound t c := by
  have A := absorbBytes_absorbed hw h.bufLen_le habs
  have hcfg : t.cfg = s.cfg := A.touches.cfg
  have hpending := pendingBytes_length h.bufLen_le
  have hlen := A.bufLen
  apply slotSound_of_mkStat (A.stat.trans hstat) (.inl rfl)
  · omega
  · intro b hb hb4
    rw [hcfg]
    by_cases hword : 4 ≤ (pendingBytes s c ++ xs).length
    · exact A.high_zero hword b (by omega) hb4
    · have hshort : (pendingBytes s c ++ xs).length ≤ b := by omega
      rw [A.high_kept (by omega) b hshort hb4]
      rw [List.length_append, hpending] at hshort
      exact h.spare_lanes b (by omega) hb4

/-- The flush leaves the buffer empty: it was, with every lane 0, or its word was taken out (R212, R215). -/
theorem flushPartial_empty {c : BitVec 8} {s t : State} (hw : Store.wf s.store) (h : SlotSound s c)
    (hflush : flushPartial c s = .ok t) : t.slotGet c .bufLen = 0#32 ∧ t.slotGet c .buf = 0#32 := by
  obtain ⟨hlen, heq⟩ | ⟨_, heq⟩ := flushPartial_cases c s <;> rw [heq] at hflush
  · cases hflush
    refine ⟨hlen, word_ext_lanes s.cfg.byteOrder fun b hb => ?_⟩
    rw [lane_zero]
    exact h.spare_lanes b (by simp [hlen]) hb
  · obtain ⟨hbuf, hlen, _, _⟩ := submitted_get (c := c) hw
    have hpol := pollReady_ok hflush
    exact ⟨(onlyPolled_slotGet hpol c .bufLen).trans hlen, (onlyPolled_slotGet hpol c .buf).trans hbuf⟩

theorem hfinalDrain_empty {a : BitVec 4} {c : BitVec 8} {s t : State} (hw : Store.wf s.store) (h : SlotSound s c)
    (hdrain : hfinalDrain a c s = .ok t) : t.slotGet c .bufLen = 0#32 ∧ t.slotGet c .buf = 0#32 := by
  obtain ⟨u, hflush, hpoll⟩ := hfinalDrain_ok hdrain
  obtain ⟨hlen, hbuf⟩ := flushPartial_empty hw h hflush
  have hpol := pollReady_ok hpoll
  exact ⟨(onlyPolled_slotGet hpol c .bufLen).trans hlen, (onlyPolled_slotGet hpol c .buf).trans hbuf⟩

theorem hfinalDeliver_touches (a : BitVec 4) (c d : BitVec 8) (s : State) : Touches c s (hfinalDeliver a c d s) :=
  touches_trans (t := (afterDigestRead d s).slotPut c .stat (mkStat .finalized false true a))
    (touches_trans (t := afterDigestRead d s) (touches_of_same rfl rfl) (slotPut_touches _ c (f := .stat) trivial _))
    (touches_of_same rfl rfl)

/-- A slot whose digest is delivered is Finalized without a shadow, its buffer empty (41_session_lifecycle R166, R170). -/
theorem hfinalDeliver_slotSound {a : BitVec 4} {c d : BitVec 8} {s : State} (hw : Store.wf s.store)
    (hlen : s.slotGet c .bufLen = 0#32) (hbuf : s.slotGet c .buf = 0#32) : SlotSound (hfinalDeliver a c d s) c := by
  have hget : ∀ g : Field, g.isWord = true → (hfinalDeliver a c d s).slotGet c g =
      if g = .stat then mkStat .finalized false true a else s.slotGet c g :=
    slotPut_get (s := afterDigestRead d s) hw c (f := .stat) rfl _
  have hlen' := (hget .bufLen rfl).trans hlen
  have hbuf' := (hget .buf rfl).trans hbuf
  apply slotSound_of_mkStat (hget .stat rfl) (.inr ⟨rfl, rfl⟩)
  · simp [hlen']
  · simp [hbuf']

/-! ## Good standing through each command -/

/-- The step from `s` ended by a data-phase Timeout of an HUPDATE or HFINAL of slot `c` (60_exceptions R263). -/
def lostInDataPhase (c : BitVec 8) (s t : State) : Prop :=
  ∃ u, u.responses = s.responses ∧ (t = dataPhaseTimeout 3#4 c u ∨ t = dataPhaseTimeout 4#4 c u)

theorem hupdateRun_slotSound {a : BitVec 4} {c y : BitVec 8} {data : List Byte} {s : State} (hs : Sound s)
    (hc : slotExists s.cfg c = true) (h : SlotSound s y) :
    SlotSound (hupdateRun a c data s) y ∨ lostInDataPhase y s (hupdateRun a c data s) := by
  obtain ⟨u, hpol, heq⟩ | ⟨s1, u, hswap, habs, heq⟩ | ⟨s1, u, hswap, habs, heq⟩ := hupdateRun_cases a c data s <;>
    rw [heq]
  · exact .inl (slotSound_congr (s := u) rfl rfl (onlyPolled_slotSound hpol h))
  all_goals
    have hw1 : Store.wf s1.store := (swapped_soundBut hs hc hswap).store_wf
    have hy1 := swapped_slotSound hs hswap h
    have hact := activate_touches c (statShv (s.slotGet c .stat)) a s1
    have hdata := touches_trans hact (absorbBytes_touches c data _)
    rw [habs] at hdata
  · left
    by_cases hy : y = c
    · subst hy
      exact slotSound_congr (s := u) rfl rfl (absorbBytes_slotSound (hact.wf hw1) (activate_stat hw1 _ a)
        (activate_slotSound _ a hw1 hy1) habs)
    · exact slotSound_congr (s := u) rfl rfl (touches_slotSound hdata hw1 hy hy1)
  · by_cases hy : y = c
    · subst hy
      have hsilent := hupdate_silent (shv := statShv (s.slotGet y .stat)) (data := data) hswap
      rw [habs] at hsilent
      exact .inr ⟨u, hsilent.responses, .inl rfl⟩
    · exact .inl (touches_slotSound (touches_trans hdata (dataPhaseTimeout_touches 3#4 c u)) hw1 hy hy1)

theorem hfinalRun_slotSound {a : BitVec 4} {c d y : BitVec 8} {s : State} (hs : Sound s)
    (hc : slotExists s.cfg c = true) (h : SlotSound s y) :
    SlotSound (hfinalRun a c d s) y ∨ lostInDataPhase y s (hfinalRun a c d s) := by
  obtain ⟨u, hpol, heq⟩ | ⟨s1, u, hload, hdrain, heq⟩ | ⟨s1, u, hload, hdrain, heq⟩ := hfinalRun_cases a c d s <;>
    rw [heq]
  · exact .inl (slotSound_congr (s := u) rfl rfl (onlyPolled_slotSound hpol h))
  all_goals
    have hw1 : Store.wf s1.store := (loadOrResume_soundBut hs hc hload).store_wf
    have hy1 := swapped_slotSound hs (.inr hload) h
    have hdata := hfinalDrain_touches a c s1
    rw [hdrain] at hdata
  · left
    by_cases hy : y = c
    · subst hy
      obtain ⟨hlen, hbuf⟩ := hfinalDrain_empty hw1 hy1 hdrain
      exact hfinalDeliver_slotSound (hdata.wf hw1) hlen hbuf
    · exact touches_slotSound (touches_trans hdata (hfinalDeliver_touches a c d u)) hw1 hy hy1
  · by_cases hy : y = c
    · subst hy
      have hsilent := hfinal_silent hload
      rw [hdrain] at hsilent
      exact .inr ⟨u, hsilent.responses, .inr rfl⟩
    · exact .inl (touches_slotSound (touches_trans hdata (dataPhaseTimeout_touches 4#4 c u)) hw1 hy hy1)

theorem cloadRun_slotSound {a : BitVec 4} {c y : BitVec 8} {s : State} (hs : Sound s) (hc : slotExists s.cfg c = true)
    (h : SlotSound s y) : SlotSound (cloadRun a c s) y := by
  obtain ⟨u, hpol, heq⟩ | ⟨s1, hload, heq⟩ := cloadRun_cases a c s <;> rw [heq]
  · exact slotSound_congr (s := u) rfl rfl (onlyPolled_slotSound hpol h)
  · have hw1 : Store.wf s1.store := (loadOrResume_soundBut hs hc hload).store_wf
    have hy1 := swapped_slotSound hs (.inr hload) h
    refine slotSound_congr (s := activate c (statShv (s.slotGet c .stat)) a s1) rfl rfl ?_
    by_cases hy : y = c
    · subst hy
      exact activate_slotSound _ a hw1 hy1
    · exact touches_slotSound (activate_touches c _ a s1) hw1 hy hy1

theorem csaveRun_slotSound {c y : BitVec 8} {s : State} (hs : Sound s) (h : SlotSound s y) :
    SlotSound (csaveRun c s) y := by
  obtain ⟨_, heq⟩ | ⟨u, hpol, heq⟩ | ⟨u, ho, hpol, heq⟩ := csaveRun_cases c s <;> rw [heq]
  · exact slotSound_congr (s := s) rfl rfl h
  · exact slotSound_congr (s := u) rfl rfl (onlyPolled_slotSound hpol h)
  · have hu := onlyPolled_sound hpol hs
    obtain ⟨_, hact, _⟩ := hu.owner_sound c ((onlyPolled_owner hpol).trans ho)
    exact slotSound_congr (s := captureInto c u) rfl rfl
      (captureInto_slotSound hu.store_wf hact (onlyPolled_slotSound hpol h))

theorem ainitRun_slotSound {f : BitVec 4} {k y : BitVec 8} {b : Blocks} {s : State} (hs : Sound s)
    (h : SlotSound s y) : SlotSound (ainitRun f k b s) y := by
  obtain ⟨_, heq⟩ | ⟨u, hpol, heq⟩ | ⟨o, u, ho, hpol, heq⟩ := ainitRun_cases f k b s <;> rw [heq]
  · exact slotSound_congr (s := s) rfl rfl h
  · exact slotSound_congr (s := u) rfl rfl (onlyPolled_slotSound hpol h)
  · have hu := onlyPolled_sound hpol hs
    obtain ⟨_, hact, _⟩ := hu.owner_sound o ((onlyPolled_owner hpol).trans ho)
    exact slotSound_congr (s := captureInto o u) rfl rfl
      (captureInto_slotSound hu.store_wf hact (onlyPolled_slotSound hpol h))

/-- Every command keeps a slot in good standing, but for a data-phase Timeout of its own (10_state R57). -/
theorem exec_slotSound {i : Instr} {y : BitVec 8} {s t : State} (hs : Sound s) (hy : SlotSound s y)
    (h : exec i s = .next t) : SlotSound t y ∨ lostInDataPhase y s t := by
  have hraise : ∀ (o : BitVec 4) (c : BitVec 8) (st : Status), SlotSound (raise o c st s) y :=
    fun _ _ _ => slotSound_congr (s := s) rfl rfl hy
  cases i with
  | detect =>
    cases h
    exact .inl (slotSound_congr (s := s) rfl rfl hy)
  | hinit c =>
    obtain ⟨_, rfl⟩ | ⟨_, rfl⟩ := exec_hinit_next h
    · exact .inl (hraise _ _ _)
    · refine .inl (slotSound_congr (s := initSlot c s) rfl rfl ?_)
      by_cases hyc : y = c
      · subst hyc
        exact (initSlot_slotSound hs.store_wf).1
      · exact touches_slotSound (initSlot_touches c s) hs.store_wf hyc hy
  | hupdate a c len payload =>
    obtain ⟨st, _, rfl⟩ | ⟨hopen, _, _, rfl⟩ := exec_hupdate_next h
    · exact .inl (hraise _ _ _)
    · exact hupdateRun_slotSound hs hopen.slot hy
  | hfinal a c d =>
    obtain ⟨st, _, rfl⟩ | ⟨hopen, _, _, _, rfl⟩ := exec_hfinal_next h
    · exact .inl (hraise _ _ _)
    · exact hfinalRun_slotSound hs hopen.slot hy
  | cload a c =>
    obtain ⟨st, _, rfl⟩ | ⟨hopen, _, rfl⟩ := exec_cload_next h
    · exact .inl (hraise _ _ _)
    · exact .inl (cloadRun_slotSound hs hopen.slot hy)
  | csave c =>
    obtain ⟨_, rfl⟩ | ⟨_, rfl⟩ := exec_csave_next h
    · exact .inl (hraise _ _ _)
    · exact .inl (csaveRun_slotSound hs hy)
  | ainit f k b =>
    obtain ⟨st, _, rfl⟩ | ⟨_, _, rfl⟩ := exec_ainit_next h
    · exact .inl (hraise _ _ _)
    · exact .inl (ainitRun_slotSound hs hy)

/-! ## The obligations -/

/-- Settles O48, by the invariant `SoundBut` of a command in progress: a swap makes the named slot the owner before its
STAT is Active, and every command then makes it Active or releases the unit. -/
theorem invariantIsKept : Obligations.InvariantIsKept := by
  intro s t hinv h
  obtain ⟨i, packet, rest, _, hexec⟩ | ⟨why, packet, rest, _, rfl⟩ | ⟨_, rfl⟩ := step_next h
  · exact exec_inv (accept_sound packet rest hinv.sound) hexec
  · exact raise_inv _ _ _ (accept_sound packet rest hinv.sound)
  · exact hinv

/-- Settles O50: a command writes the slot it names and captures the owner, which is Active; what it leaves in either is in
good standing again unless its data phase timed out. -/
theorem soundSlotsStaySound : Obligations.SoundSlotsStaySound := by
  intro s t c hinv hc h
  obtain ⟨i, packet, rest, _, hexec⟩ | ⟨why, packet, rest, _, rfl⟩ | ⟨_, rfl⟩ := step_next h
  · have hc' : SlotSound (accept packet rest s) c := slotSound_congr (s := s) rfl rfl hc
    have hnext := exec_slotSound (accept_sound packet rest hinv.sound) hc' hexec
    simpa only [lostInDataPhase, accept_responses] using hnext
  · exact .inl (slotSound_congr (s := s) rfl rfl hc)
  · exact .inl hc

/-- Settles O49: the slot is all zeros after `initSlot`, and the response writes no slot. -/
theorem hinitMakesTheSlotSound : Obligations.HinitMakesTheSlotSound := by
  intro c s t hs hc h
  obtain ⟨hno, _⟩ | ⟨_, rfl⟩ := exec_hinit_next h
  · simp [hc] at hno
  · obtain ⟨hsound, hfresh⟩ := initSlot_slotSound (c := c) hs.store_wf
    exact ⟨slotSound_congr (s := initSlot c s) rfl rfl hsound, hfresh⟩

/-- Settles O13, command by command: a swap, a capture, a data phase and a response write no session record. -/
theorem onlyAinitWritesSessions : Obligations.OnlyAinitWritesSessions := by
  intro i s t h hne
  cases i with
  | detect =>
    cases h
    rfl
  | hinit c =>
    obtain ⟨_, rfl⟩ | ⟨_, rfl⟩ := exec_hinit_next h
    · rfl
    · simp
  | hupdate a c len payload =>
    obtain ⟨st, _, rfl⟩ | ⟨_, _, _, rfl⟩ := exec_hupdate_next h
    · rfl
    · exact hupdateRun_sessions a c _ s
  | hfinal a c d =>
    obtain ⟨st, _, rfl⟩ | ⟨_, _, _, _, rfl⟩ := exec_hfinal_next h
    · rfl
    · exact hfinalRun_sessions a c d s
  | cload a c =>
    obtain ⟨st, _, rfl⟩ | ⟨_, _, rfl⟩ := exec_cload_next h
    · rfl
    · exact cloadRun_sessions a c s
  | csave c =>
    obtain ⟨_, rfl⟩ | ⟨_, rfl⟩ := exec_csave_next h
    · rfl
    · exact csaveRun_sessions c s
  | ainit f k b => exact absurd rfl (hne f k b)

/-- Settles O46: `State.resetOf` names each of these values. -/
theorem resetState : Obligations.ResetState := fun _ =>
  ⟨rfl, rfl, rfl, rfl, List.length_replicate, fun _ hr => List.eq_of_mem_replicate hr, fun _ => rfl, rfl⟩

/-- Settles O47: nothing is stored, the register lists have their sizes, and OWNER is NONE. -/
theorem invariantHoldsAtReset : Obligations.InvariantHoldsAtReset := fun _ =>
  { sound :=
      { store_wf := List.Pairwise.nil
        store_bound := fun _ hx => nomatch hx
        sessions_len := List.length_replicate
        acc_len := List.length_replicate
        stg_len := List.length_replicate
        res_len := List.length_replicate
        owner_sound := fun _ ho => nomatch ho }
    no_command := rfl
    no_response := rfl }

end Sys2Proof.Machine

/-! PROOFS. 20_memory: the packet a table word places is the next one consumed (R91), a capture never leaves the context
store (R71), whole payload words reach P.DIN as the host sent them (R76), and a command writes the slot it names and, by a
capture, the owner's (R73, R83). -/

namespace Sys2Proof.Machine

/-! ## The placed packet (20_memory R91; 30_encoding R104) -/

theorem packetWords_hupdate {hd : Word} (hopc : hdrOpc hd = 3#4) (len : Word) (xs : List Word) :
    packetWords (hd :: len :: xs) = some (2 + payloadWords len) := by
  simp [packetWords, hopc]

theorem packetWords_handle {hd : Word} (hopc : hdrOpc hd = 7#4) (hshape : hdrShape hd = 0#1) (l1 : Word)
    (xs : List Word) : packetWords (hd :: l1 :: xs) = some (2 + l1.toNat) := by
  simp [packetWords, hopc, hshape]

theorem packetWords_structs {hd l1 : Word} {generic : List Word} (hopc : hdrOpc hd = 7#4) (hshape : hdrShape hd ≠ 0#1)
    (hlen : generic.length = l1.toNat) (l2 : Word) (xs : List Word) :
    packetWords (hd :: l1 :: (generic ++ l2 :: xs)) = some (3 + l1.toNat + l2.toNat) := by
  simp [packetWords, hopc, hshape, List.drop_left' hlen]

theorem packetWords_header {hd : Word} (h3 : hdrOpc hd ≠ 3#4) (h7 : hdrOpc hd ≠ 7#4) (xs : List Word) :
    packetWords (hd :: xs) = some 1 := by
  simp [packetWords, h3, h7]

/-- A list with `y :: ys` behind `k` elements has exactly `k` elements before them. -/
theorem eq_append_of_drop_eq_cons {l ys : List Word} {y : Word} {k : Nat} (h : l.drop k = y :: ys) :
    ∃ g, g.length = k ∧ l = g ++ y :: ys := by
  have hlen := congrArg List.length h
  rw [List.length_drop, List.length_cons] at hlen
  exact ⟨l.take k, by rw [List.length_take]; omega, by rw [← h, List.take_append_drop]⟩

/-- Framing reads some words at the front of a packet, and nothing behind them (R104). -/
theorem packetWords_front {ws : List Word} {n : Nat} (h : packetWords ws = some n) :
    ∃ front back, ws = front ++ back ∧ front.length ≤ n ∧ ∀ xs, packetWords (front ++ xs) = some n := by
  obtain _ | ⟨hd, rest⟩ := ws
  · cases h
  by_cases h3 : hdrOpc hd = 3#4
  · obtain _ | ⟨len, back⟩ := rest
    · simp [packetWords, h3] at h
    · rw [packetWords_hupdate h3] at h
      cases h
      exact ⟨[hd, len], back, rfl, by simp, packetWords_hupdate h3 len⟩
  by_cases h7 : hdrOpc hd = 7#4
  · obtain _ | ⟨l1, tail⟩ := rest
    · simp [packetWords, h7] at h
    by_cases hshape : hdrShape hd = 0#1
    · rw [packetWords_handle h7 hshape] at h
      cases h
      exact ⟨[hd, l1], tail, rfl, by simp, packetWords_handle h7 hshape l1⟩
    · cases hdrop : tail.drop l1.toNat with
      | nil => simp [packetWords, h7, hshape, hdrop] at h
      | cons l2 back =>
        obtain ⟨generic, hlen, rfl⟩ := eq_append_of_drop_eq_cons hdrop
        have hframe := packetWords_structs h7 hshape hlen l2
        rw [hframe] at h
        cases h
        refine ⟨hd :: l1 :: (generic ++ [l2]), back, by simp, ?_, fun xs => by simpa using hframe xs⟩
        simp only [List.length_cons, List.length_append, hlen, List.length_nil]
        omega
  · rw [packetWords_header h3 h7] at h
    cases h
    exact ⟨[hd], rest, rfl, by simp, packetWords_header h3 h7⟩

/-- A framed stream is framed so whatever is put behind it. -/
theorem packetWords_append {ws : List Word} {n : Nat} (h : packetWords ws = some n) (xs : List Word) :
    packetWords (ws ++ xs) = some n := by
  obtain ⟨front, back, rfl, _, hfront⟩ := packetWords_front h
  rw [List.append_assoc]
  exact hfront _

/-- The first packet of a framed stream is framed so without the rest of the stream. -/
theorem packetWords_take_append {ws : List Word} {n : Nat} (h : packetWords ws = some n) (xs : List Word) :
    packetWords (ws.take n ++ xs) = some n := by
  obtain ⟨front, back, rfl, hle, hfront⟩ := packetWords_front h
  rw [List.take_append, List.take_of_length_le hle, List.append_assoc]
  exact hfront _

/-- `n` words of `ws`, zeros behind its end, are `n` words of `ws` followed by `k` zeros, zeros behind these. -/
theorem take_append_zeros (ws : List Word) (n k : Nat) :
    ws.take n ++ List.replicate (n - ws.length) 0#32 =
      (ws ++ List.replicate k 0#32).take n ++ List.replicate (n - ws.length - k) 0#32 := by
  rw [List.take_append, List.take_replicate, List.append_assoc, List.replicate_append_replicate]
  congr 2
  omega

/-- A table packet that can be framed is exactly one packet. -/
theorem packetWords_tablePacket {nbits w n : Nat} (h : packetWords (tablePacket nbits w) = some n) :
    n = (tablePacket nbits w).length := by
  unfold tablePacket at h ⊢
  simp only at h ⊢
  split at h
  · rename_i hnone
    rw [packetWords_append h] at hnone
    cases hnone
  · rename_i m hm
    rw [take_append_zeros, packetWords_take_append hm] at h
    cases h
    simp
    omega

/-- Settles O9: a table packet that decodes is framed at its whole length, so what stands behind it in the stream is not
read and is left. -/
theorem placedPacketRunsNext : Obligations.PlacedPacketRunsNext := by
  intro s nbits w i h
  unfold decodeTableWord at h
  split at h
  case h_1 j packet rest hdec =>
    cases h
    obtain ⟨n, op, hn, hle, hrow, hpacket, _, hop⟩ := decode_command hdec
    have hlen := packetWords_tablePacket hn
    have hwhole : packet = tablePacket nbits w := by rw [hpacket, hlen, List.take_length]
    have hne : tablePacket nbits w ≠ [] := by
      have hpos := packetWords_pos hn
      exact List.ne_nil_of_length_pos (by omega)
    rw [hop, hwhole]
    exact step_of_command (s := s.withFetchWord nbits w)
      (decode_packet hne (by rw [packetWords_append hn, hlen]) hrow)
  all_goals cases h

/-! ## A capture outside the context store (20_memory R71) -/

/-- With an OWNER that does not exist, a command that would capture it strays. -/
theorem strayOwner_of_missing {s : State} {o : BitVec 8} (ho : s.owner = some o) (hmissing : slotExists s.cfg o = false)
    {c : Option (BitVec 8)} (hc : ∀ x, c = some x → slotExists s.cfg x = true) : strayOwner s c = true := by
  have hne : some o ≠ c := by
    rintro rfl
    simp [hc o rfl] at hmissing
  simp [strayOwner, ho, hne, hmissing]

/-- Settles O20: the slot a command names passed its checks, so it exists and is not the missing OWNER. -/
theorem strayOwnerFaults : Obligations.StrayOwnerFaults := by
  intro s o ho hmissing
  have hstray : ∀ {a : BitVec 4} {c : BitVec 8}, SessionOpen s a c → strayOwner s (some c) = true := fun hopen =>
    strayOwner_of_missing ho hmissing fun x hx => by cases hx; exact hopen.slot
  refine ⟨fun a c hopen => ?_, fun a c d hopen hb hd => ?_, fun a c len payload hopen hb h4 => ?_, fun f k b hopen => ?_⟩
  · simp only [exec, execCload, cloadCheck_pass.2 hopen, hstray hopen, if_true]
  · simp only [exec, execHfinal, hfinalCheck_pass.2 ⟨hopen, hb, hd⟩, hstray hopen, if_true]
  · have hcompletes : completesWord c (updateData s.cfg len payload) s = true := decide_eq_true h4
    simp only [exec, execHupdate, hupdateCheck_pass.2 ⟨hopen, hb⟩, hcompletes, hstray hopen, Bool.and_self, if_true]
  · have hnone : strayOwner s none = true := strayOwner_of_missing ho hmissing (fun _ hx => nomatch hx)
    simp only [exec, execAinit, ainitCheck_pass.2 hopen, hnone, if_true]

/-! ## Whole words to P.DIN (20_memory R74, R76) -/

/-- Words taken apart into bytes and packed again are the same words, under either byte order (R74, R76). -/
theorem packBytes_flatMap_lanes (o : ByteOrder) (ws : List Word) : packBytes o (ws.flatMap (lanes o)) = ws := by
  induction ws with
  | nil => rfl
  | cons w ws ih =>
    calc packBytes o ((w :: ws).flatMap (lanes o))
        = pack4 o (lane o w 0) (lane o w 1) (lane o w 2) (lane o w 3) :: packBytes o (ws.flatMap (lanes o)) := rfl
      _ = w :: ws := by rw [pack4_lanes, ih]

/-- The data of an HUPDATE of whole words are all lanes of its payload (30_encoding R105). -/
theorem updateData_of_whole {cfg : Config} {len : Word} {payload : List Word} (h : len.toNat = 4 * payload.length) :
    updateData cfg len payload = payload.flatMap (lanes cfg.byteOrder) := by
  unfold updateData bytesOf
  rw [h, ← flatMap_lanes_length cfg.byteOrder, List.take_length]

theorem wholeWords_flatMap_lanes (o : ByteOrder) (ws : List Word) : wholeWords o (ws.flatMap (lanes o)) = ws := by
  unfold wholeWords
  rw [flatMap_lanes_length, Nat.mul_div_cancel_left _ (by omega), ← flatMap_lanes_length o, List.take_length,
    packBytes_flatMap_lanes]

theorem pendingBytes_of_empty {s : State} {c : BitVec 8} (h : s.slotGet c .bufLen = 0#32) : pendingBytes s c = [] :=
  List.eq_nil_of_length_eq_zero (by rw [pendingBytes_length (by simp [h]), h]; rfl)

theorem loadOrResume_ok_cfg {a : BitVec 4} {c : BitVec 8} {s s1 : State} (hload : loadOrResume c a s = .ok s1) :
    s1.cfg = s.cfg := by
  have h := loadOrResume_cfg c a s
  rwa [hload] at h

theorem loadOrResume_ok_wf {a : BitVec 4} {c : BitVec 8} {s s1 : State} (hw : Store.wf s.store)
    (hload : loadOrResume c a s = .ok s1) : Store.wf s1.store := by
  have h := loadOrResume_wf (c := c) (a := a) hw
  rwa [hload] at h

/-- Loading a slot and latching its algorithm leave its buffer and counters alone (41_session_lifecycle R155;
42_arbiter_swap R185). -/
theorem activate_loaded_get {a : BitVec 4} {c : BitVec 8} {s s1 : State} (hw : Store.wf s.store)
    (hload : loadOrResume c a s = .ok s1) (shv : Bool) {g : Field} (hg : g.isWord = true) (hne : g ≠ .stat) :
    (activate c shv a s1).slotGet c g = s.slotGet c g := by
  have hget := loadOrResume_slotGet (c := c) (y := c) (a := a) hw (fun _ => rfl) (Field.valid_of_isWord hg s.cfg)
  rw [hload] at hget
  rw [activate_get (loadOrResume_ok_wf hw hload) shv a g hg, if_neg hne]
  exact hget

theorem activate_loaded_pendingBytes {a : BitVec 4} {c : BitVec 8} {s s1 : State} (hw : Store.wf s.store)
    (hload : loadOrResume c a s = .ok s1) (shv : Bool) :
    pendingBytes (activate c shv a s1) c = pendingBytes s c := by
  unfold pendingBytes
  rw [activate_loaded_get hw hload shv (g := .buf) rfl (by decide),
    activate_loaded_get hw hload shv (g := .bufLen) rfl (by decide), activate_cfg, loadOrResume_ok_cfg hload]

/-- On a responsive peripheral an HUPDATE that completes a word loads its session and absorbs all its bytes
(41_session_lifecycle R155, R156; 10_state R54). -/
theorem hupdateRun_of_responsive {a : BitVec 4} {c : BitVec 8} {data : List Byte} {s : State} (hw : Store.wf s.store)
    (hb : (s.slotGet c .bufLen).toNat ≤ 3) (h4 : 4 ≤ (s.slotGet c .bufLen).toNat + data.length)
    (hr : responsive (updatePolls s c data.length) s) :
    ∃ s1 u, loadOrResume c a s = .ok s1 ∧
      Absorbed c (activate c (statShv (s.slotGet c .stat)) a s1) data u ∧ hupdateRun a c data s = returnOk 3#4 c u := by
  obtain ⟨s1, hload, hr1⟩ := loadOrResume_of_responsive c a hr
  have hswap : hupdateSwap a c data s = .ok s1 := by
    have hcompletes : completesWord c data s = true := decide_eq_true h4
    simp only [hupdateSwap, hcompletes, if_true, hload]
  have hwa := (activate_touches c (statShv (s.slotGet c .stat)) a s1).wf (loadOrResume_ok_wf hw hload)
  have hlen := activate_loaded_get hw hload (statShv (s.slotGet c .stat)) (g := .bufLen) rfl (by decide)
  have hra := responsive_congr (s := s1) (t := activate c (statShv (s.slotGet c .stat)) a s1) rfl rfl rfl hr1
  obtain ⟨u, habs, _⟩ := absorbBytes_ok (c := c) (xs := data) (fs := []) hwa (by rwa [hlen])
    (by rwa [hlen, List.append_nil])
  exact ⟨s1, u, hload, absorbBytes_absorbed hwa (by rwa [hlen]) habs, by simp only [hupdateRun, hswap, hupdateBody, habs]⟩

/-- Settles O32: with nothing buffered the words absorbed are those of the data alone, and these are the payload's. -/
theorem wholeWordsPassUnchanged : Obligations.WholeWordsPassUnchanged := by
  intro a c len payload s hs hopen hempty hlen hne hr
  have hdata := updateData_of_whole (cfg := s.cfg) hlen
  have hcount : (updateData s.cfg len payload).length = 4 * payload.length := by rw [hdata, flatMap_lanes_length]
  have hpos := List.length_pos_of_ne_nil hne
  have hb : (s.slotGet c .bufLen).toNat ≤ 3 := by simp [hempty]
  obtain ⟨s1, u, hload, A, hrun⟩ := hupdateRun_of_responsive (a := a) (data := updateData s.cfg len payload)
    hs.store_wf hb (by omega) (by rwa [hcount])
  have hcfg := loadOrResume_ok_cfg hload
  have hbytes : pendingBytes (activate c (statShv (s.slotGet c .stat)) a s1) c ++ updateData s.cfg len payload =
      payload.flatMap (lanes s.cfg.byteOrder) := by
    rw [activate_loaded_pendingBytes hs.store_wf hload, pendingBytes_of_empty hempty, List.nil_append, hdata]
  have hresponses : u.responses = s1.responses := by rw [A.frame, activate_responses]
  have hwrites := A.writes
  have hpr := A.pr
  have hbufLen := A.bufLen
  rw [hbytes, activate_cfg, hcfg, wholeWords_flatMap_lanes] at hwrites hpr
  rw [hbytes, flatMap_lanes_length, Nat.mul_mod_right] at hbufLen
  refine ⟨_, (exec_hupdate (ownerExists_of_sound hs) hopen hb).trans (congrArg _ hrun), ?_, ?_, ?_, ?_⟩
  · rw [returnOk_responses, hresponses, (loadOrResume_silent hload).responses]
  · rw [returnOk_portLog, hwrites, activate_portLog, loadOrResume_writes hs.store_wf hload]
  · rw [returnOk_periph, hpr, activate_periph, loadOrResume_pr hs.store_wf hload]
  · exact BitVec.eq_of_toNat_eq hbufLen

/-! ## Slots a command does not name (20_memory R73, R83) -/

/-- Slot `x` holds in `t` what a capture in `s` leaves there: the live registers, SHV set, and the rest as it was
(42_arbiter_swap R186). -/
def captured (x : BitVec 8) (s t : State) : Prop :=
  t.shadow x = s.periph.pr ∧ t.slotGet x .stat = statSetShv (s.slotGet x .stat) ∧
    t.slotGet x .buf = s.slotGet x .buf ∧ t.slotGet x .bufLen = s.slotGet x .bufLen ∧
    t.slotGet x .loLen = s.slotGet x .loLen

/-- Slot `x` is the same in `t` as in `s`, or it was the owner in `s` and has been captured (R73, R83, R186). -/
def keptOrCaptured (x : BitVec 8) (s t : State) : Prop := sameSlot x s t ∨ (s.owner = some x ∧ captured x s t)

theorem keptOrCaptured_of_same {x : BitVec 8} {s t : State} (hstore : t.store = s.store) : keptOrCaptured x s t :=
  .inl fun _ _ => by rw [hstore]

/-- Only the store and the configuration of the later state count. -/
theorem keptOrCaptured_congr {x : BitVec 8} {s t u : State} (hstore : u.store = t.store) (hcfg : u.cfg = t.cfg)
    (h : keptOrCaptured x s t) : keptOrCaptured x s u := by
  simpa only [keptOrCaptured, sameSlot, captured, hstore, shadow_congr hstore hcfg, slotGet_congr hstore hcfg] using h

/-- A poll beforehand makes no difference (R184). -/
theorem keptOrCaptured_of_onlyPolled {x : BitVec 8} {s u t : State} (hpol : onlyPolled s u) (h : keptOrCaptured x u t) :
    keptOrCaptured x s t := by
  simpa only [keptOrCaptured, sameSlot, captured, onlyPolled_store hpol, onlyPolled_cfg hpol, onlyPolled_owner hpol,
    onlyPolled_periph hpol, onlyPolled_slotGet hpol] using h

/-- A command that ends by a Timeout in its swap phase has touched no slot (60_exceptions R262). -/
theorem keptOrCaptured_of_swapTimeout {x : BitVec 8} {s u : State} (hpol : onlyPolled s u) (o : BitVec 4) (c : BitVec 8) :
    keptOrCaptured x s (raise o c .timeout u) :=
  keptOrCaptured_of_same (by rw [raise_store, onlyPolled_store hpol])

/-- Later writes to another slot make no difference. -/
theorem keptOrCaptured_touches {c x : BitVec 8} {s t u : State} (hcfg : t.cfg = s.cfg) (hw : Store.wf t.store)
    (hx : x ≠ c) (ht : Touches c t u) (h : keptOrCaptured x s t) : keptOrCaptured x s u := by
  obtain hsame | ⟨ho, hcap⟩ := h
  · refine .inl fun k hk => ?_
    have hread := touches_read ht hw hx (k := k) (by rwa [hcfg])
    rw [hcfg] at hread
    rw [hread, hsame k hk]
  · refine .inr ⟨ho, ?_⟩
    unfold captured
    rw [touches_shadow ht hw hx, touches_slotGet ht hw hx (f := .stat) trivial, touches_slotGet ht hw hx (f := .buf) trivial,
      touches_slotGet ht hw hx (f := .bufLen) trivial, touches_slotGet ht hw hx (f := .loLen) trivial]
    exact hcap

/-- Writes to another slot alone keep slot `x` (R73). -/
theorem keptOrCaptured_of_touches {c x : BitVec 8} {s t : State} (hw : Store.wf s.store) (hx : x ≠ c)
    (ht : Touches c s t) : keptOrCaptured x s t :=
  .inl fun _ hk => touches_read ht hw hx hk

/-- Saving the owner captures the owner's slot and keeps every other (R186). -/
theorem evictOwner_keptOrCaptured {s : State} (hs : Sound s) (x : BitVec 8) : keptOrCaptured x s (evictOwner s) := by
  cases ho : s.owner with
  | none => exact keptOrCaptured_of_same (by rw [evictOwner_none ho])
  | some o =>
    by_cases hx : x = o
    · subst hx
      exact .inr ⟨ho, evictOwner_saved hs.store_wf hs.acc_len ho⟩
    · rw [evictOwner_some ho]
      exact keptOrCaptured_of_touches hs.store_wf hx (captureInto_touches o s)

theorem loadOrResume_keptOrCaptured {a : BitVec 4} {c : BitVec 8} {s s1 : State} (hs : Sound s)
    (hload : loadOrResume c a s = .ok s1) (x : BitVec 8) : keptOrCaptured x s s1 := by
  obtain ⟨_, rfl⟩ | ⟨_, u, _, hpol, rfl⟩ := loadOrResume_ok hload
  · exact keptOrCaptured_of_same rfl
  · exact keptOrCaptured_of_onlyPolled hpol (keptOrCaptured_congr (bringIn_store _ c a) (bringIn_cfg _ c a)
      (evictOwner_keptOrCaptured (onlyPolled_sound hpol hs) x))

/-- Whatever the swap phase has done, a data phase of slot `c` keeps the other slots as the swap left them. -/
theorem keptOrCaptured_after_swap {a : BitVec 4} {c x : BitVec 8} {s s1 t : State} (hs : Sound s) (hx : x ≠ c)
    (hswap : swapped a c s s1) (ht : Touches c s1 t) : keptOrCaptured x s t := by
  obtain rfl | hload := hswap
  · exact keptOrCaptured_of_touches hs.store_wf hx ht
  · exact keptOrCaptured_touches (loadOrResume_ok_cfg hload) (loadOrResume_ok_wf hs.store_wf hload) hx ht
      (loadOrResume_keptOrCaptured hs hload x)

theorem hupdateRun_keptOrCaptured {a : BitVec 4} {c x : BitVec 8} {data : List Byte} {s : State} (hs : Sound s)
    (hx : x ≠ c) : keptOrCaptured x s (hupdateRun a c data s) := by
  obtain ⟨u, hpol, heq⟩ | ⟨s1, u, hswap, habs, heq⟩ | ⟨s1, u, hswap, habs, heq⟩ := hupdateRun_cases a c data s <;>
    rw [heq]
  · exact keptOrCaptured_of_swapTimeout hpol _ _
  all_goals
    have hdata := touches_trans (activate_touches c (statShv (s.slotGet c .stat)) a s1) (absorbBytes_touches c data _)
    rw [habs] at hdata
  · exact keptOrCaptured_congr (t := u) rfl rfl (keptOrCaptured_after_swap hs hx hswap hdata)
  · exact keptOrCaptured_after_swap hs hx hswap (touches_trans hdata (dataPhaseTimeout_touches 3#4 c u))

theorem hfinalRun_keptOrCaptured {a : BitVec 4} {c d x : BitVec 8} {s : State} (hs : Sound s) (hx : x ≠ c) :
    keptOrCaptured x s (hfinalRun a c d s) := by
  obtain ⟨u, hpol, heq⟩ | ⟨s1, u, hload, hdrain, heq⟩ | ⟨s1, u, hload, hdrain, heq⟩ := hfinalRun_cases a c d s <;>
    rw [heq]
  · exact keptOrCaptured_of_swapTimeout hpol _ _
  all_goals
    have hdata := hfinalDrain_touches a c s1
    rw [hdrain] at hdata
  · exact keptOrCaptured_after_swap hs hx (.inr hload) (touches_trans hdata (hfinalDeliver_touches a c d u))
  · exact keptOrCaptured_after_swap hs hx (.inr hload) (touches_trans hdata (dataPhaseTimeout_touches 4#4 c u))

theorem cloadRun_keptOrCaptured {a : BitVec 4} {c x : BitVec 8} {s : State} (hs : Sound s) (hx : x ≠ c) :
    keptOrCaptured x s (cloadRun a c s) := by
  obtain ⟨u, hpol, heq⟩ | ⟨s1, hload, heq⟩ := cloadRun_cases a c s <;> rw [heq]
  · exact keptOrCaptured_of_swapTimeout hpol _ _
  · exact keptOrCaptured_congr (t := activate c (statShv (s.slotGet c .stat)) a s1) rfl rfl
      (keptOrCaptured_after_swap hs hx (.inr hload) (activate_touches c _ a s1))

theorem csaveRun_keptOrCaptured {c x : BitVec 8} {s : State} (hs : Sound s) (hx : x ≠ c) :
    keptOrCaptured x s (csaveRun c s) := by
  obtain ⟨_, heq⟩ | ⟨u, hpol, heq⟩ | ⟨u, _, hpol, heq⟩ := csaveRun_cases c s <;> rw [heq]
  · exact keptOrCaptured_of_same rfl
  · exact keptOrCaptured_of_swapTimeout hpol _ _
  · exact keptOrCaptured_congr (t := captureInto c u) rfl rfl (keptOrCaptured_of_touches hs.store_wf hx
      (touches_trans (onlyPolled_touches hpol c) (captureInto_touches c u)))

theorem ainitRun_keptOrCaptured {f : BitVec 4} {k : BitVec 8} {b : Blocks} {s : State} (hs : Sound s) (x : BitVec 8) :
    keptOrCaptured x s (ainitRun f k b s) := by
  obtain ⟨_, heq⟩ | ⟨u, hpol, heq⟩ | ⟨o, u, ho, hpol, heq⟩ := ainitRun_cases f k b s <;> rw [heq]
  · exact keptOrCaptured_of_same rfl
  · exact keptOrCaptured_of_swapTimeout hpol _ _
  · have hevict := evictOwner_some ((onlyPolled_owner hpol).trans ho)
    exact keptOrCaptured_congr (t := captureInto o u) rfl rfl
      (keptOrCaptured_of_onlyPolled hpol (hevict ▸ evictOwner_keptOrCaptured (onlyPolled_sound hpol hs) x))

/-- A command keeps every slot it does not name, but for the owner's, which it may capture (R73, R83). -/
theorem exec_keptOrCaptured {i : Instr} {s t : State} {x : BitVec 8} (hs : Sound s) (h : exec i s = .next t)
    (hx : slotOf i ≠ some x) : keptOrCaptured x s t := by
  have hother : ∀ {c : BitVec 8}, slotOf i = some c → x ≠ c := fun hc hxc => hx (hxc ▸ hc)
  cases i with
  | detect =>
    cases h
    exact keptOrCaptured_of_same rfl
  | hinit c =>
    obtain ⟨_, rfl⟩ | ⟨_, rfl⟩ := exec_hinit_next h
    · exact keptOrCaptured_of_same rfl
    · exact keptOrCaptured_congr (t := initSlot c s) rfl rfl
        (keptOrCaptured_of_touches hs.store_wf (hother rfl) (initSlot_touches c s))
  | hupdate a c len payload =>
    obtain ⟨st, _, rfl⟩ | ⟨_, _, _, rfl⟩ := exec_hupdate_next h
    · exact keptOrCaptured_of_same rfl
    · exact hupdateRun_keptOrCaptured hs (hother rfl)
  | hfinal a c d =>
    obtain ⟨st, _, rfl⟩ | ⟨_, _, _, _, rfl⟩ := exec_hfinal_next h
    · exact keptOrCaptured_of_same rfl
    · exact hfinalRun_keptOrCaptured hs (hother rfl)
  | cload a c =>
    obtain ⟨st, _, rfl⟩ | ⟨_, _, rfl⟩ := exec_cload_next h
    · exact keptOrCaptured_of_same rfl
    · exact cloadRun_keptOrCaptured hs (hother rfl)
  | csave c =>
    obtain ⟨_, rfl⟩ | ⟨_, rfl⟩ := exec_csave_next h
    · exact keptOrCaptured_of_same rfl
    · exact csaveRun_keptOrCaptured hs (hother rfl)
  | ainit f k b =>
    obtain ⟨st, _, rfl⟩ | ⟨_, _, rfl⟩ := exec_ainit_next h
    · exact keptOrCaptured_of_same rfl
    · exact ainitRun_keptOrCaptured hs x

/-- Settles O51: a slot the command does not name is kept, or it was the owner and is captured. -/
theorem commandsLeaveOtherSlotsAlone : Obligations.CommandsLeaveOtherSlotsAlone := by
  intro i s t x hs h hx
  obtain hsame | ⟨ho, hcap⟩ := exec_keptOrCaptured hs h hx
  · exact ⟨fun _ => hsame, fun _ => .inl hsame⟩
  · exact ⟨fun hno => absurd ho hno, fun _ => .inr hcap⟩

end Sys2Proof.Machine

/-! PROOFS. 30_encoding: the decoder and the encoder are inverse to each other (R101, R104 to R107, R125), a header selects
its row by its fields (R115, R125), every packet is answered by one response packet (R111, R113), and the rejections of
R115 to R120. -/

namespace Sys2Proof.Machine

/-! ## The encoder after the decoder and before it (R101, R104 to R107, R125) -/

/-- The packet of a well-formed command is framed at its own length, whatever follows it (R104). -/
theorem packetWords_encode {i : Instr} (hwf : i.wf = true) (rest : List Word) :
    packetWords (encode i ++ rest) = some (encode i).length := by
  cases i with
  | detect => exact (Laws.HeaderRow.detect hwf).1 rest
  | hinit c => exact (Laws.HeaderRow.hinit c hwf).1 rest
  | hupdate a c len payload => exact (Laws.HeaderRow.hupdate a c len payload hwf).1 rest
  | hfinal a c d => exact (Laws.HeaderRow.hfinal a c d hwf).1 rest
  | cload a c => exact (Laws.HeaderRow.cload a c hwf).1 rest
  | csave c => exact (Laws.HeaderRow.csave c hwf).1 rest
  | ainit f k b => exact (Laws.HeaderRow.ainit f k b hwf).1 rest

/-- With SHAPE = 0 the words after L1 are the handle (R107). -/
theorem decodeBlocks_handle {hd : Word} (hshape : hdrShape hd = 0#1) (l1 : Word) (xs : List Word) :
    decodeBlocks (hd :: l1 :: xs) = .handle xs := by
  simp [decodeBlocks, hshape]

/-- With SHAPE = 1 the L1 words after L1 are the generic parameters, and the words after L2 the key parameters (R107). -/
theorem decodeBlocks_structs {hd l1 : Word} {generic : List Word} (hshape : hdrShape hd ≠ 0#1)
    (hlen : generic.length = l1.toNat) (l2 : Word) (key : List Word) :
    decodeBlocks (hd :: l1 :: (generic ++ l2 :: key)) = .structs generic key := by
  have hdrop : (hd :: l1 :: (generic ++ l2 :: key)).drop (3 + l1.toNat) = key := by
    rw [show 3 + l1.toNat = generic.length + 1 + 2 by omega, List.drop_succ_cons, List.drop_succ_cons]
    simp
  simp [decodeBlocks, hshape, hdrop, List.take_left' hlen]

/-- The AINIT packet of well-formed blocks holds these blocks (R107). -/
theorem decodeBlocks_encode {f : BitVec 4} {k : BitVec 8} {b : Blocks} (hwf : b.wf = true) :
    decodeBlocks (encode (.ainit f k b)) = b := by
  cases b with
  | handle hd => exact decodeBlocks_handle (hdrShape_mk ..) _ hd
  | structs g key =>
    have ⟨hg, _⟩ : g.length < 2 ^ 32 ∧ key.length < 2 ^ 32 := by simpa [Blocks.wf] using hwf
    exact decodeBlocks_structs (by simp) (by rw [BitVec.toNat_ofNat, Nat.mod_eq_of_lt hg]) _ key

/-- The fields of a command's packet are the command's (R101, R102, R105 to R107). -/
theorem decodeOp_encode {i : Instr} (hwf : i.wf = true) : decodeOp (rowOf i) (encode i) = i := by
  cases i with
  | ainit f k b =>
    have hblocks := decodeBlocks_encode (f := f) (k := k) (b := b) hwf
    simp only [decodeOp, rowOf, hblocks]
    cases b <;> simp [encode]
  | _ => simp [decodeOp, rowOf, encode]

/-- Settles O1: the packet is framed at its own length, its header selects the command's row, and the fields read back are
the command's. -/
theorem decodeInvertsEncode : Obligations.DecodeInvertsEncode := by
  intro i rest hwf
  rw [decode_packet (encode_ne_nil i) (packetWords_encode hwf rest) (selectRow_encode i), decodeOp_encode hwf]

/-! ### Packets framed at their own length (R104) -/

/-- But for HUPDATE and AINIT a packet is its header. -/
theorem eq_nil_of_packetWords_header {hd : Word} {rest : List Word} (h3 : hdrOpc hd ≠ 3#4) (h7 : hdrOpc hd ≠ 7#4)
    (h : packetWords (hd :: rest) = some (hd :: rest).length) : rest = [] := by
  simpa [packetWords_header h3 h7] using h.symm

theorem eq_cons_of_packetWords_hupdate {hd : Word} {rest : List Word} (h3 : hdrOpc hd = 3#4)
    (h : packetWords (hd :: rest) = some (hd :: rest).length) :
    ∃ len payload, rest = len :: payload ∧ payload.length = payloadWords len := by
  cases rest with
  | nil => simp [packetWords, h3] at h
  | cons len payload =>
    rw [packetWords_hupdate h3, Option.some.injEq] at h
    simp only [List.length_cons] at h
    exact ⟨len, payload, rfl, by omega⟩

theorem eq_cons_of_packetWords_handle {hd : Word} {rest : List Word} (h7 : hdrOpc hd = 7#4) (hshape : hdrShape hd = 0#1)
    (h : packetWords (hd :: rest) = some (hd :: rest).length) :
    ∃ l1 handle, rest = l1 :: handle ∧ handle.length = l1.toNat := by
  cases rest with
  | nil => simp [packetWords, h7] at h
  | cons l1 handle =>
    rw [packetWords_handle h7 hshape, Option.some.injEq] at h
    simp only [List.length_cons] at h
    exact ⟨l1, handle, rfl, by omega⟩

theorem eq_cons_of_packetWords_structs {hd : Word} {rest : List Word} (h7 : hdrOpc hd = 7#4) (hshape : hdrShape hd ≠ 0#1)
    (h : packetWords (hd :: rest) = some (hd :: rest).length) :
    ∃ l1 generic l2 key, rest = l1 :: (generic ++ l2 :: key) ∧ generic.length = l1.toNat ∧ key.length = l2.toNat := by
  cases rest with
  | nil => simp [packetWords, h7] at h
  | cons l1 tail =>
    cases hdrop : tail.drop l1.toNat with
    | nil => simp [packetWords, h7, hshape, hdrop] at h
    | cons l2 key =>
      obtain ⟨generic, hlen, rfl⟩ := eq_append_of_drop_eq_cons hdrop
      rw [packetWords_structs h7 hshape hlen, Option.some.injEq] at h
      simp only [List.length_cons, List.length_append] at h
      exact ⟨l1, generic, l2, key, rfl, hlen, by omega⟩

/-- The fields of a selected header, each a field of the command or fixed by the row, make the header (R101, R125). -/
theorem mkHeader_of_rowFields {op : Op} {h : Word} (hrow : rowFields op h) :
    mkHeader (hdrOpc h) (hdrAlg h) (hdrCtx h) (hdrDsz h) (hdrShape h) = h := by
  have hrsv : hdrRsv h = 0#7 := by cases op <;> simp only [rowFields] at hrow <;> simp only [hrow]
  exact header_ext (by simp) (by simp) (by simp) (by simp) (by simp [hrsv]) (by simp)

/-- The AINIT a packet of R107 decodes to is well formed, and that packet is its packet. -/
theorem encode_decodeOp_ainit {hd : Word} {rest : List Word} (h : packetWords (hd :: rest) = some (hd :: rest).length)
    (hrow : rowFields .ainit hd) :
    (decodeOp .ainit (hd :: rest)).wf = true ∧ encode (decodeOp .ainit (hd :: rest)) = hd :: rest := by
  have hhd := mkHeader_of_rowFields hrow
  obtain ⟨hopc, hdsz, _⟩ := hrow
  rw [hopc, hdsz] at hhd
  by_cases hshape : hdrShape hd = 0#1
  · obtain ⟨l1, handle, rfl, hlen⟩ := eq_cons_of_packetWords_handle hopc hshape h
    rw [hshape] at hhd
    simp [decodeOp, decodeBlocks_handle hshape, Instr.wf, Blocks.wf, encode, hhd, hlen, l1.isLt]
  · obtain ⟨l1, generic, l2, key, rfl, hlen1, hlen2⟩ := eq_cons_of_packetWords_structs hopc hshape h
    rw [(BitVec.eq_zero_or_eq_one _).resolve_left hshape] at hhd
    simp [decodeOp, decodeBlocks_structs hshape hlen1, Instr.wf, Blocks.wf, encode, hhd, hlen1, hlen2, l1.isLt, l2.isLt]

/-- A packet framed at its own length whose header selects a row is the packet of a well-formed command. -/
theorem encode_decodeOp {packet : List Word} {op : Op} (h : packetWords packet = some packet.length)
    (hselect : selectRow (packet.getD 0 0#32) = some op) :
    (decodeOp op packet).wf = true ∧ encode (decodeOp op packet) = packet := by
  obtain _ | ⟨hd, rest⟩ := packet
  · cases h
  have hrow : rowFields op hd := (selectRow_iff hd op).1 hselect
  have hhd := mkHeader_of_rowFields hrow
  cases op with
  | ainit => exact encode_decodeOp_ainit h hrow
  | hupdate =>
    simp only [rowFields] at hrow
    obtain ⟨len, payload, rfl, hlen⟩ := eq_cons_of_packetWords_hupdate hrow.1 h
    simp only [hrow] at hhd
    simp [decodeOp, Instr.wf, encode, hlen, hhd]
  | detect | hinit | hfinal | cload | csave =>
    simp only [rowFields] at hrow
    obtain rfl := eq_nil_of_packetWords_header (by simp [hrow]) (by simp [hrow]) h
    simp only [hrow] at hhd
    simp [decodeOp, Instr.wf, encode, hhd]

/-- The first packet of a stream begins with the stream's header. -/
theorem take_packetWords_head {ws : List Word} {n : Nat} (hn : packetWords ws = some n) :
    (ws.take n).getD 0 0#32 = ws.getD 0 0#32 := by
  simp [packetWords_pos hn]

/-- Settles O2: the packet the decoder takes is framed at its own length, and each of its words is a field of the command
or fixed by the row. -/
theorem encodeInvertsDecode : Obligations.EncodeInvertsDecode := by
  intro ws i packet rest h
  obtain ⟨n, op, hn, hle, hrow, rfl, rfl, rfl⟩ := decode_command h
  have hlen : (ws.take n).length = n := by rw [List.length_take]; omega
  have hframe : packetWords (ws.take n) = some (ws.take n).length := by
    rw [hlen]
    simpa using packetWords_take_append hn []
  obtain ⟨hwf, hencode⟩ := encode_decodeOp hframe (take_packetWords_head hn ▸ hrow)
  exact ⟨hwf, hencode, List.take_append_drop n ws⟩

/-! ## Headers and rows (R115, R125) -/

/-- Settles O3: a header selects a row when its fields are the row's, and so does masking and matching. -/
theorem headerSelectsItsRow : Obligations.HeaderSelectsItsRow := fun h =>
  ⟨(selectRow_iff h .detect).trans (selects_detect h).symm, (selectRow_iff h .hinit).trans (selects_hinit h).symm,
    (selectRow_iff h .hupdate).trans (selects_hupdate h).symm, (selectRow_iff h .hfinal).trans (selects_hfinal h).symm,
    (selectRow_iff h .cload).trans (selects_cload h).symm, (selectRow_iff h .csave).trans (selects_csave h).symm,
    (selectRow_iff h .ainit).trans (selects_ainit h).symm⟩

theorem selectRow_eq_none_iff (h : Word) : selectRow h = none ↔ ∀ op, ¬ rowFields op h := by
  simp only [Option.eq_none_iff_forall_ne_some, ne_eq, selectRow_iff]

theorem forall_op {P : Op → Prop} :
    (∀ op, P op) ↔ P .detect ∧ P .hinit ∧ P .hupdate ∧ P .hfinal ∧ P .cload ∧ P .csave ∧ P .ainit :=
  ⟨fun h => ⟨h _, h _, h _, h _, h _, h _, h _⟩, fun ⟨h1, h2, h3, h4, h5, h6, h7⟩ op => by cases op <;> assumption⟩

/-- An OPC is reserved or one of the seven of the opcode table (R103). -/
theorem opc_cases : ∀ o : BitVec 4,
    (o = 0#4 ∨ 8#4 ≤ o) ∨ o = 1#4 ∨ o = 2#4 ∨ o = 3#4 ∨ o = 4#4 ∨ o = 5#4 ∨ o = 6#4 ∨ o = 7#4 := by
  decide

/-- A reserved OPC has no row (R103). -/
theorem not_rowFields_of_reserved {op : Op} {h : Word} (ho : hdrOpc h = 0#4 ∨ 8#4 ≤ hdrOpc h) : ¬ rowFields op h := by
  intro hrow
  cases op
  all_goals
    simp only [rowFields] at hrow
    rw [hrow.1] at ho
    exact absurd ho (by decide)

/-- Settles O4, OPC by OPC: a reserved OPC has no row, and any other only the row that asks its fields to be 0. -/
theorem illFormedExactlyByFields : Obligations.IllFormedExactlyByFields := by
  intro h
  rw [selectRow_eq_none_iff]
  obtain hreserved | ho | ho | ho | ho | ho | ho | ho := opc_cases (hdrOpc h)
  · exact iff_of_true (fun _ => not_rowFields_of_reserved hreserved) (hreserved.imp_right .inl)
  all_goals simp [forall_op, rowFields, ho, imp_iff_not_or]

/-- Settles O5: each packet is that of the command R126 names, with nothing behind it. -/
theorem examplePacketsDecode : Obligations.ExamplePacketsDecode :=
  ⟨decodeInvertsEncode (.hinit 3#8) [] rfl, decodeInvertsEncode (.hupdate 3#4 1#8 3#32 [0x00636261#32]) [] rfl,
    decodeInvertsEncode (.hfinal 3#4 1#8 32#8) [] rfl, decodeInvertsEncode (.cload 0#4 0#8) [] rfl,
    decodeInvertsEncode (.csave 2#8) [] rfl, decodeInvertsEncode .detect [] rfl,
    decodeInvertsEncode (.ainit 0#4 0#8 (.handle [0xDEADBEEF#32])) [] rfl, rfl, rfl⟩

/-! ## Whole packets (R104, R115, R116) -/

/-- A whole packet at the front of the stream whose header selects no row is ill-formed (R115). -/
theorem decode_of_selectRow_none {ws : List Word} {n : Nat} (hn : packetWords ws = some n) (hle : n ≤ ws.length)
    (hselect : selectRow (ws.getD 0 0#32) = none) :
    decode ws = .illFormed (illFormedWhy (ws.getD 0 0#32)) (ws.take n) (ws.drop n) := by
  simp only [decode, hn, if_neg (Nat.not_lt.2 hle), hselect]

/-- A whole packet at the front of the stream whose header selects a row is a command (R125). -/
theorem decode_of_selectRow_some {ws : List Word} {n : Nat} {op : Op} (hn : packetWords ws = some n) (hle : n ≤ ws.length)
    (hselect : selectRow (ws.getD 0 0#32) = some op) :
    decode ws = .command (decodeOp op (ws.take n)) (ws.take n) (ws.drop n) := by
  simp only [decode, hn, if_neg (Nat.not_lt.2 hle), hselect]

/-- At a whole ill-formed packet the step rejects its header (R116). -/
theorem step_of_illFormed {s : State} {h : Word} {tail : List Word} {n : Nat} (hcmds : s.commands = h :: tail)
    (hselect : selectRow h = none) (hn : packetWords s.commands = some n) (hle : n ≤ s.commands.length) :
    step s = .next (rejectHeader h (accept (s.commands.take n) (s.commands.drop n) s)) := by
  have hhead : s.commands.getD 0 0#32 = h := by rw [hcmds]; rfl
  have hdec := decode_of_selectRow_none hn hle (hhead.symm ▸ hselect)
  simp only [step, hdec, take_packetWords_head hn, hhead]

/-- Settles O7: rejecting a header is a response of status code 5 and nothing else. -/
theorem illFormedPacketIsRejected : Obligations.IllFormedPacketIsRejected :=
  fun _ _ _ _ hcmds hselect hn hle => step_of_illFormed hcmds hselect hn hle

/-! ## The fields of a command's header (R101) -/

/-- The DSZ field of a command, 0 for every command but HFINAL (R101). -/
def dszOf : Instr → BitVec 8
  | .hfinal _ _ d => d
  | .detect | .hinit _ | .hupdate _ _ _ _ | .cload _ _ | .csave _ | .ainit _ _ _ => 0#8

/-- The header of a command's packet carries its OPC, its CTX and its DSZ (R101). -/
theorem header_encode (i : Instr) : hdrOpc ((encode i).getD 0 0#32) = opcOf i ∧
    hdrCtx ((encode i).getD 0 0#32) = ctxOf i ∧ hdrDsz ((encode i).getD 0 0#32) = dszOf i := by
  cases i with
  | ainit f k b => cases b <;> simp [encode, opcOf, ctxOf, dszOf]
  | _ => simp [encode, opcOf, ctxOf, dszOf]

/-! ## The form of a response (R111, R113) -/

/-- What R111 and R113 say of a response to a command whose header has OPC `opc` and DSZ `dsz`. -/
structure ResponseForm (cfg : Config) (opc : BitVec 4) (dsz : BitVec 8) (st : Status) (plen : BitVec 8)
    (payload : List Word) : Prop where
  words : payload.length = (plen.toNat + 3) / 4
  spare : ∀ j b, b < 4 → plen.toNat ≤ 4 * j + b → lane cfg.byteOrder (payload.getD j 0#32) b = 0#8
  of_failed : st ≠ .ok → plen = 0#8
  of_plain : opc ≠ 1#4 → opc ≠ 4#4 → plen = 0#8
  of_detect : opc = 1#4 → st = .ok → plen = 4#8 ∧ payload = [cfg.cap]
  of_hfinal : opc = 4#4 → st = .ok → plen = dsz

/-- A response without payload has that form if its status is not OK or its command answers none (R113). -/
theorem responseForm_empty {cfg : Config} {opc : BitVec 4} {dsz : BitVec 8} {st : Status}
    (h : st = .ok → opc ≠ 1#4 ∧ opc ≠ 4#4) : ResponseForm cfg opc dsz st 0#8 [] where
  words := rfl
  spare := fun _ _ _ _ => lane_zero _ _
  of_failed := fun _ => rfl
  of_plain := fun _ _ => rfl
  of_detect := fun hopc hst => absurd hopc (h hst).1
  of_hfinal := fun hopc hst => absurd hopc (h hst).2

/-- DETECT answers CAP, one whole word (40_capability R141, R143). -/
theorem responseForm_detect (cfg : Config) (dsz : BitVec 8) : ResponseForm cfg 1#4 dsz .ok 4#8 [cfg.cap] where
  words := rfl
  spare := fun j b hb hle => by
    have hj : 1 ≤ j := by
      have : (4#8).toNat = 4 := rfl
      omega
    rw [List.getD_eq_default _ _ hj, lane_zero]
  of_failed := fun hst => absurd rfl hst
  of_plain := fun hopc => absurd rfl hopc
  of_detect := fun _ _ => ⟨rfl, rfl⟩
  of_hfinal := fun hopc => absurd hopc (by decide)

/-- Byte `4 * j + b` of a byte sequence is lane `b` of its word `j`, and the lanes behind the last byte are 0 (20_memory
R74). -/
theorem lane_packBytes (o : ByteOrder) (bs : List Byte) (j : Nat) {b : Nat} (hb : b < 4) :
    lane o ((packBytes o bs).getD j 0#32) b = bs.getD (4 * j + b) 0#8 := by
  induction bs using packBytes.induct generalizing j with
  | case1 => simp [packBytes]
  | case2 | case3 | case4 => cases j <;> interval_cases b <;> simp [packBytes, Nat.mul_add]
  | case5 b0 b1 b2 b3 rest ih =>
    cases j with
    | zero => interval_cases b <;> simp [packBytes]
    | succ j =>
      rw [show 4 * (j + 1) + b = 4 * j + b + 4 by omega]
      simpa [packBytes] using ih j

theorem digestBytes_length (s : State) (d : BitVec 8) : (digestBytes s d).length = d.toNat := by
  refine bytesOf_length _ ?_
  simp only [List.length_map, List.length_range, digestWords]
  omega

/-- HFINAL answers the digest, DSZ bytes (41_session_lifecycle R166; 43_word_submission R219). -/
theorem responseForm_hfinal (s : State) (d : BitVec 8) :
    ResponseForm s.cfg 4#4 d .ok d (packBytes s.cfg.byteOrder (digestBytes s d)) where
  words := by rw [packBytes_length, digestBytes_length]
  spare := fun j b hb hle => by
    rw [lane_packBytes _ _ _ hb, List.getD_eq_default]
    rwa [digestBytes_length]
  of_failed := fun hst => absurd rfl hst
  of_plain := fun _ hopc => absurd rfl hopc
  of_detect := fun hopc => absurd hopc (by decide)
  of_hfinal := fun _ _ => rfl

/-! ## Only the end of a command touches the host streams (20_memory R91; R111) -/

/-- From `s` to `t` no parameter and no word of either host stream is touched. -/
structure StreamsKept (s t : State) : Prop where
  cfg : t.cfg = s.cfg
  commands : t.commands = s.commands
  responses : t.responses = s.responses

theorem streamsKept_refl (s : State) : StreamsKept s s := ⟨rfl, rfl, rfl⟩

theorem streamsKept_trans {s t u : State} (h1 : StreamsKept s t) (h2 : StreamsKept t u) : StreamsKept s u :=
  ⟨h2.cfg.trans h1.cfg, h2.commands.trans h1.commands, h2.responses.trans h1.responses⟩

theorem onlyPolled_streamsKept {s t : State} (h : onlyPolled s t) : StreamsKept s t :=
  ⟨onlyPolled_cfg h, onlyPolled_commands h, onlyPolled_responses h⟩

theorem loadOrResume_streamsKept {a : BitVec 4} {c : BitVec 8} {s t : State} (h : loadOrResume c a s = .ok t) :
    StreamsKept s t := by
  have hframe := loadOrResume_frame c a s
  rw [h, Polled.state_ok] at hframe
  exact ⟨by rw [hframe], by rw [hframe], by rw [hframe]⟩

theorem swapped_streamsKept {a : BitVec 4} {c : BitVec 8} {s s1 : State} (h : swapped a c s s1) : StreamsKept s s1 := by
  obtain rfl | h := h
  · exact streamsKept_refl s1
  · exact loadOrResume_streamsKept h

theorem submitted_streamsKept (c : BitVec 8) (s : State) : StreamsKept s (submitted c s) := ⟨rfl, rfl, rfl⟩

theorem absorbBytes_streamsKept (c : BitVec 8) (xs : List Byte) (s : State) :
    StreamsKept s (absorbBytes c xs s).state :=
  absorbBytes_keeps (P := StreamsKept s) (fun _ _ h => streamsKept_trans h ⟨rfl, rfl, rfl⟩)
    (fun t h => streamsKept_trans h (streamsKept_trans (submitted_streamsKept c t)
      (onlyPolled_streamsKept (pollReady_onlyPolled _ _)))) xs (streamsKept_refl s)

theorem hfinalDrain_streamsKept (a : BitVec 4) (c : BitVec 8) (s : State) : StreamsKept s (hfinalDrain a c s).state :=
  hfinalDrain_keeps (P := StreamsKept s) (fun t h => streamsKept_trans h (submitted_streamsKept c t))
    (fun _ _ h => streamsKept_trans h ⟨rfl, rfl, rfl⟩)
    (fun _ _ hpol h => streamsKept_trans h (onlyPolled_streamsKept hpol)) (streamsKept_refl s)

/-- `t` is what a command with OPC `opc`, CTX `ctx` and DSZ `dsz`, run on `s`, leaves when it ends with one response of the
form of R111 and R113. -/
def Answers (opc : BitVec 4) (ctx dsz : BitVec 8) (s t : State) : Prop :=
  ∃ u st plen payload, StreamsKept s u ∧ ResponseForm s.cfg opc dsz st plen payload ∧
    t = answered (responseHeader opc st ctx plen) payload u

/-- A command ended by an error answers without payload (R113; 60_exceptions R260). -/
theorem answers_raise {opc : BitVec 4} {ctx dsz : BitVec 8} {st : Status} {s u : State} (hst : st ≠ .ok)
    (h : StreamsKept s u) : Answers opc ctx dsz s (raise opc ctx st u) :=
  ⟨u, st, 0#8, [], h, responseForm_empty fun hok => absurd hok hst, raise_eq_answered opc ctx st u⟩

/-- A command that answers no payload ends with its status, whatever it is (R113). -/
theorem answers_plain {opc : BitVec 4} {ctx dsz : BitVec 8} {st : Status} {s u : State}
    (hopc : opc ≠ 1#4 ∧ opc ≠ 4#4) (h : StreamsKept s u) : Answers opc ctx dsz s (raise opc ctx st u) :=
  ⟨u, st, 0#8, [], h, responseForm_empty fun _ => hopc, raise_eq_answered opc ctx st u⟩

theorem answers_returnOk {opc : BitVec 4} {ctx dsz : BitVec 8} {s u : State} (hopc : opc ≠ 1#4 ∧ opc ≠ 4#4)
    (h : StreamsKept s u) : Answers opc ctx dsz s (returnOk opc ctx u) := answers_plain hopc h

theorem answers_dataPhaseTimeout {opc : BitVec 4} {c dsz : BitVec 8} {s u : State} (h : StreamsKept s u) :
    Answers opc c dsz s (dataPhaseTimeout opc c u) := by
  have hlost : StreamsKept u (u.unspecifySlot c).releaseUnit := ⟨by simp, by simp, by simp⟩
  exact answers_raise (by decide) (streamsKept_trans h hlost)

theorem hupdateRun_answers (a : BitVec 4) (c : BitVec 8) (data : List Byte) (s : State) :
    Answers 3#4 c 0#8 s (hupdateRun a c data s) := by
  obtain ⟨u, hpol, heq⟩ | ⟨s1, u, hswap, habs, heq⟩ | ⟨s1, u, hswap, habs, heq⟩ := hupdateRun_cases a c data s <;>
    rw [heq]
  · exact answers_raise (by decide) (onlyPolled_streamsKept hpol)
  all_goals
    have hactivate : StreamsKept s (activate c (statShv (s.slotGet c .stat)) a s1) :=
      streamsKept_trans (swapped_streamsKept hswap) ⟨rfl, rfl, rfl⟩
    have hdata := streamsKept_trans hactivate (absorbBytes_streamsKept c data _)
    rw [habs] at hdata
  · exact answers_returnOk (by decide) hdata
  · exact answers_dataPhaseTimeout hdata

/-- The digest is answered when the unit has made it ready (41_session_lifecycle R166, R170). -/
theorem hfinalDeliver_answers (a : BitVec 4) (c d : BitVec 8) {s u : State} (h : StreamsKept s u) :
    Answers 4#4 c d s (hfinalDeliver a c d u) := by
  have hread : StreamsKept u ((afterDigestRead d u).slotPut c .stat (mkStat .finalized false true a)).releaseUnit :=
    ⟨by simp, by simp, by simp⟩
  exact ⟨_, .ok, d, packBytes u.cfg.byteOrder (digestBytes u d), streamsKept_trans h hread,
    h.cfg ▸ responseForm_hfinal u d, respond_eq_answered _ _ _⟩

theorem hfinalRun_answers (a : BitVec 4) (c d : BitVec 8) (s : State) : Answers 4#4 c d s (hfinalRun a c d s) := by
  obtain ⟨u, hpol, heq⟩ | ⟨s1, u, hload, hdrain, heq⟩ | ⟨s1, u, hload, hdrain, heq⟩ := hfinalRun_cases a c d s <;>
    rw [heq]
  · exact answers_raise (by decide) (onlyPolled_streamsKept hpol)
  all_goals
    have hdata := streamsKept_trans (loadOrResume_streamsKept hload) (hfinalDrain_streamsKept a c s1)
    rw [hdrain] at hdata
  · exact hfinalDeliver_answers a c d hdata
  · exact answers_dataPhaseTimeout hdata

theorem cloadRun_answers (a : BitVec 4) (c : BitVec 8) (s : State) : Answers 5#4 c 0#8 s (cloadRun a c s) := by
  obtain ⟨u, hpol, heq⟩ | ⟨s1, hload, heq⟩ := cloadRun_cases a c s <;> rw [heq]
  · exact answers_raise (by decide) (onlyPolled_streamsKept hpol)
  · exact answers_returnOk (by decide) (streamsKept_trans (loadOrResume_streamsKept hload) ⟨rfl, rfl, rfl⟩)

theorem csaveRun_answers (c : BitVec 8) (s : State) : Answers 6#4 c 0#8 s (csaveRun c s) := by
  obtain ⟨_, heq⟩ | ⟨u, hpol, heq⟩ | ⟨u, _, hpol, heq⟩ := csaveRun_cases c s <;> rw [heq]
  · exact answers_returnOk (by decide) (streamsKept_refl s)
  · exact answers_raise (by decide) (onlyPolled_streamsKept hpol)
  · exact answers_returnOk (by decide) (streamsKept_trans (onlyPolled_streamsKept hpol) ⟨rfl, rfl, rfl⟩)

theorem ainitRun_answers (f : BitVec 4) (k : BitVec 8) (b : Blocks) (s : State) :
    Answers 7#4 k 0#8 s (ainitRun f k b s) := by
  obtain ⟨_, heq⟩ | ⟨u, hpol, heq⟩ | ⟨o, u, _, hpol, heq⟩ := ainitRun_cases f k b s <;> rw [heq]
  · exact answers_returnOk (by decide) ⟨rfl, rfl, rfl⟩
  · exact answers_raise (by decide) (onlyPolled_streamsKept hpol)
  · exact answers_returnOk (by decide) (streamsKept_trans (onlyPolled_streamsKept hpol) ⟨rfl, rfl, rfl⟩)

theorem initSlot_streamsKept (c : BitVec 8) (s : State) : StreamsKept s (initSlot c s) := ⟨by simp, by simp, by simp⟩

/-! ### No check raises OK -/

theorem Check.raiseIf_ne_ok {b : Bool} {st : Status} (h : st ≠ .ok) : Check.raiseIf b st ≠ .raise .ok := by
  cases b <;> simp [Check.raiseIf, h]

theorem Check.andThen_ne_ok {k l : Check} (hk : k ≠ .raise .ok) (hl : l ≠ .raise .ok) : k.andThen l ≠ .raise .ok := by
  cases k with
  | pass => exact hl
  | raise st => exact hk
  | stop r => exact hk

theorem statSoundCheck_ne_ok (s : State) (c : BitVec 8) : statSoundCheck s c ≠ .raise .ok := by
  unfold statSoundCheck
  split <;> simp

theorem bufLenSoundCheck_ne_ok (s : State) (c : BitVec 8) : bufLenSoundCheck s c ≠ .raise .ok := by
  unfold bufLenSoundCheck
  split <;> simp

theorem hfinalCheck_ne_ok (a : BitVec 4) (c d : BitVec 8) (s : State) : hfinalCheck a c d s ≠ .raise .ok :=
  Check.andThen_ne_ok (Check.andThen_ne_ok (Check.raiseIf_ne_ok (by decide)) (Check.raiseIf_ne_ok (by decide)))
    (Check.andThen_ne_ok (Check.raiseIf_ne_ok (by decide)) (Check.andThen_ne_ok (statSoundCheck_ne_ok s c)
      (Check.andThen_ne_ok (bufLenSoundCheck_ne_ok s c)
        (Check.andThen_ne_ok (Check.raiseIf_ne_ok (by decide)) (Check.raiseIf_ne_ok (by decide))))))

/-! ### One response for every command (R111) -/

/-- A command that goes on ends with one response of the form of R111 and R113. -/
theorem exec_answers {i : Instr} {s t : State} (h : exec i s = .next t) : Answers (opcOf i) (ctxOf i) (dszOf i) s t := by
  cases i with
  | detect =>
    cases h
    exact ⟨s, .ok, 4#8, [s.cfg.cap], streamsKept_refl s, responseForm_detect s.cfg 0#8, respond_eq_answered _ _ _⟩
  | hinit c =>
    obtain ⟨_, rfl⟩ | ⟨_, rfl⟩ := exec_hinit_next h
    · exact answers_raise (by decide) (streamsKept_refl s)
    · exact answers_returnOk (opc := 2#4) (by decide) (initSlot_streamsKept c s)
  | hupdate a c len payload =>
    obtain ⟨st, _, rfl⟩ | ⟨_, _, _, rfl⟩ := exec_hupdate_next h
    · exact answers_plain (opc := 3#4) (by decide) (streamsKept_refl s)
    · exact hupdateRun_answers a c _ s
  | hfinal a c d =>
    obtain ⟨st, hcheck, rfl⟩ | ⟨_, _, _, _, rfl⟩ := exec_hfinal_next h
    · exact answers_raise (fun hst => hfinalCheck_ne_ok a c d s (hst ▸ hcheck)) (streamsKept_refl s)
    · exact hfinalRun_answers a c d s
  | cload a c =>
    obtain ⟨st, _, rfl⟩ | ⟨_, _, rfl⟩ := exec_cload_next h
    · exact answers_plain (opc := 5#4) (by decide) (streamsKept_refl s)
    · exact cloadRun_answers a c s
  | csave c =>
    obtain ⟨_, rfl⟩ | ⟨_, rfl⟩ := exec_csave_next h
    · exact answers_raise (by decide) (streamsKept_refl s)
    · exact csaveRun_answers c s
  | ainit f k b =>
    obtain ⟨st, _, rfl⟩ | ⟨_, _, rfl⟩ := exec_ainit_next h
    · exact answers_plain (opc := 7#4) (by decide) (streamsKept_refl s)
    · exact ainitRun_answers f k b s

/-- A step at a whole packet consumes it and ends with one response to its header. -/
theorem step_answers {s t : State} {h : Word} {tail : List Word} {n : Nat} (hcmds : s.commands = h :: tail)
    (hn : packetWords s.commands = some n) (hle : n ≤ s.commands.length) (hstep : step s = .next t) :
    Answers (hdrOpc h) (hdrCtx h) (hdrDsz h) (accept (s.commands.take n) (s.commands.drop n) s) t := by
  have hhead : s.commands.getD 0 0#32 = h := by rw [hcmds]; rfl
  cases hselect : selectRow h with
  | none =>
    rw [step_of_illFormed hcmds hselect hn hle] at hstep
    cases hstep
    exact answers_raise (by decide) (streamsKept_refl _)
  | some op =>
    have hdec := decode_of_selectRow_some hn hle (hhead.symm ▸ hselect)
    obtain ⟨_, hencode, _⟩ := encodeInvertsDecode _ _ _ _ hdec
    obtain ⟨hopc, hctx, hdsz⟩ := header_encode (decodeOp op (s.commands.take n))
    rw [hencode, take_packetWords_head hn, hhead] at hopc hctx hdsz
    rw [step_of_command hdec] at hstep
    rw [hopc, hctx, hdsz]
    exact exec_answers hstep

/-- Settles O11: a command changes the response stream only by the response it ends with, and leaves the rest of the
command stream alone. -/
theorem oneResponsePerCommand : Obligations.OneResponsePerCommand := by
  intro s t h tail n hcmds hn hle hstep
  obtain ⟨u, st, plen, payload, hkept, hform, rfl⟩ := step_answers hcmds hn hle hstep
  have hresponses : u.responses = s.responses := hkept.responses
  exact ⟨st, plen, payload, by rw [answered_responses, hresponses], hkept.commands, hform.words, hform.spare,
    hform.of_failed, hform.of_plain, hform.of_detect, hform.of_hfinal, rfl, rfl⟩

/-! ## Spare lanes (R105) -/

/-- `exec` reads the payload of an HUPDATE through its data bytes only. -/
theorem exec_hupdate_congr {a : BitVec 4} {c : BitVec 8} {len : Word} {p p' : List Word} {s : State}
    (h : updateData s.cfg len p = updateData s.cfg len p') : exec (.hupdate a c len p) s = exec (.hupdate a c len p') s := by
  simp only [exec, execHupdate, h]

/-- The first `r` bytes of a word are its lanes below `r`. -/
theorem take_lanes (o : ByteOrder) (w : Word) (r : Nat) : (lanes o w).take r = (List.range (min r 4)).map (lane o w) := by
  rw [← List.take_range, List.map_take]
  rfl

/-- The bytes of whole words and part of one more (20_memory R74). -/
theorem bytesOf_append_part {o : ByteOrder} {n r : Nat} {full : List Word} (h : n = 4 * full.length + r) (w : Word) :
    bytesOf o n (full ++ [w]) = full.flatMap (lanes o) ++ (lanes o w).take r := by
  unfold bytesOf
  rw [h, ← flatMap_lanes_length o, List.flatMap_append, List.take_length_add_append, List.flatMap_singleton]

/-- Settles O31: both payloads have the same data bytes. -/
theorem spareLanesAreIgnored : Obligations.SpareLanesAreIgnored := by
  intro a c len full w w' s hlen _ hlanes
  apply exec_hupdate_congr
  have hmod : len.toNat % 4 < 4 := Nat.mod_lt _ (by omega)
  unfold updateData
  rw [bytesOf_append_part hlen, bytesOf_append_part hlen, take_lanes, take_lanes, Nat.min_eq_left hmod.le,
    List.map_congr_left fun b hb => hlanes b (List.mem_range.1 hb)]

/-! ## Rejected operands and algorithms (R117 to R120) -/

theorem Check.pass_andThen {k l : Check} (h : k = .pass) : k.andThen l = l := by rw [h]; rfl

theorem Check.raise_andThen {k l : Check} {st : Status} (h : k = .raise st) : k.andThen l = .raise st := by rw [h]; rfl

theorem exec_hupdate_of_raise {s : State} {a : BitVec 4} {c : BitVec 8} {st : Status} (h : hupdateCheck a c s = .raise st)
    (len : Word) (payload : List Word) :
    exec (.hupdate a c len payload) s = .next (answered (responseHeader 3#4 st c 0#8) [] s) := by
  simp only [exec, execHupdate, h, raise_eq_answered]

theorem exec_hfinal_of_raise {s : State} {a : BitVec 4} {c d : BitVec 8} {st : Status}
    (h : hfinalCheck a c d s = .raise st) :
    exec (.hfinal a c d) s = .next (answered (responseHeader 4#4 st c 0#8) [] s) := by
  simp only [exec, execHfinal, h, raise_eq_answered]

theorem exec_cload_of_raise {s : State} {a : BitVec 4} {c : BitVec 8} {st : Status} (h : cloadCheck a c s = .raise st) :
    exec (.cload a c) s = .next (answered (responseHeader 5#4 st c 0#8) [] s) := by
  simp only [exec, execCload, h, raise_eq_answered]

theorem exec_ainit_of_raise {s : State} {f : BitVec 4} {k : BitVec 8} {b : Blocks} {st : Status}
    (h : ainitCheck f k b s = .raise st) :
    exec (.ainit f k b) s = .next (answered (responseHeader 7#4 st k 0#8) [] s) := by
  simp only [exec, execAinit, h, raise_eq_answered]

/-- A slot that does not exist, or an algorithm that is not available, is Rejected (R117, R118). -/
theorem operandCheck_rejected {s : State} {a : BitVec 4} {c : BitVec 8}
    (h : slotExists s.cfg c = false ∨ algOk s.cfg a = false) : operandCheck s a c = .raise .rejected := by
  unfold operandCheck
  cases hslot : slotExists s.cfg c with
  | false => rfl
  | true =>
    obtain hno | halg := h
    · exact absurd (hslot.symm.trans hno) (by decide)
    · rw [halg]; rfl

/-- A session number, a shape or a block length out of range is Rejected, before the family is looked at (R117, R120;
44_cipher_adapter R234). -/
theorem ainitCheck_rejected {s : State} {f : BitVec 4} {k : BitVec 8} {b : Blocks}
    (h : s.cfg.nsess ≤ k.toNat ∨ blocksShape b ≠ s.cfg.cipherShape ∨ blocksEmpty b = true) :
    ainitCheck f k b s = .raise .rejected := by
  unfold ainitCheck
  by_cases hrange : s.cfg.nsess ≤ k.toNat
  · simp [Check.raiseIf, Check.andThen, hrange]
  by_cases hshape : blocksShape b = s.cfg.cipherShape
  · have hempty : blocksEmpty b = true := by simpa [hrange, hshape] using h
    simp [Check.raiseIf, Check.andThen, hrange, hshape, hempty]
  · simp [Check.raiseIf, Check.andThen, hrange, hshape]

/-- Settles O14: the operands are the first checks of every command. -/
theorem badOperandIsRejected : Obligations.BadOperandIsRejected := by
  intro i s h
  cases i with
  | detect => exact h.elim
  | hinit c =>
    have hslot : slotExists s.cfg c = false := h
    simp only [exec, execHinit, hslot]
    rfl
  | hupdate a c len payload =>
    exact exec_hupdate_of_raise (Check.raise_andThen (operandCheck_rejected h)) len payload
  | hfinal a c d => exact exec_hfinal_of_raise (Check.raise_andThen (operandCheck_rejected h))
  | cload a c => exact exec_cload_of_raise (Check.raise_andThen (operandCheck_rejected h))
  | csave c =>
    have hslot : slotExists s.cfg c = false := h
    simp only [exec, execCsave, hslot]
    rfl
  | ainit f k b => exact exec_ainit_of_raise (ainitCheck_rejected h)

/-- Another algorithm than the latched one is Rejected (R119). -/
theorem lifecycleCheck_rejected {s : State} {a : BitVec 4} {c : BitVec 8}
    (hlife : statLife (s.slotGet c .stat) ≠ .finalized) (halgv : statAlgv (s.slotGet c .stat) = true)
    (halg : a ≠ statAlg (s.slotGet c .stat)) : lifecycleCheck s a c = .raise .rejected := by
  simp [lifecycleCheck, Check.raiseIf, Check.andThen, hlife, halgv, halg.symm]

/-- Settles O17: the checks before the one of the latched algorithm pass, and that one raises Rejected. -/
theorem changedAlgorithmIsRejected : Obligations.ChangedAlgorithmIsRejected := by
  intro a c s hslot halgOk hstat hbuf hlife halgv halg
  have hoperand := operandCheck_pass.2 ⟨hslot, halgOk⟩
  have hsound := statSoundCheck_pass.2 hstat
  have hlen := bufLenSoundCheck_pass.2 hbuf
  have hraise := lifecycleCheck_rejected hlife halgv halg
  refine ⟨exec_hupdate_of_raise ?_, fun d hd => exec_hfinal_of_raise ?_, exec_cload_of_raise ?_⟩
  · simp only [hupdateCheck, Check.pass_andThen hoperand, Check.pass_andThen hsound, Check.pass_andThen hlen, hraise]
  · simp only [hfinalCheck, Check.pass_andThen hoperand, Check.pass_andThen (digestSizeCheck_pass.2 hd),
      Check.pass_andThen hsound, Check.pass_andThen hlen, hraise]
  · simp only [cloadCheck, Check.pass_andThen hoperand, Check.pass_andThen hsound, hraise]

end Sys2Proof.Machine

/-! PROOFS. 40_capability: DETECT answers the Capability Descriptor (R141, R143; 10_state R39). -/

namespace Sys2Proof.Machine

/-- The two values of CAP (10_state R39): MAXDIG 32, CTXREGS 54 and EXT 1 in an extended unit, else 20, 50 and 0. -/
theorem cap_eq (c : Config) : c.cap = if c.ext then 0x00203601#32 else 0x00143200#32 := by
  unfold Config.cap Config.maxDigest Config.accWords
  cases c.ext with
  | true => rfl
  | false => rfl

/-- The response header of a DETECT is a fixed word (R143; 30_encoding R111). -/
theorem responseHeader_detect : responseHeader 1#4 .ok 0#8 4#8 = 0x10000400#32 := by decide

/-- DETECT has no check and no refusal: it ends at once with its response, CAP as the one payload word (R141). -/
theorem exec_detect (s : State) :
    exec .detect s = .next (answered (responseHeader 1#4 .ok 0#8 4#8) [s.cfg.cap] s) :=
  congrArg Host.Outcome.next (respond_eq_answered (responseHeader 1#4 .ok 0#8 4#8) [s.cfg.cap] s)

/-- Settles O26: what DETECT answers, with the response header and CAP in numbers. -/
theorem detectAnswersTheDescriptor : Obligations.DetectAnswersTheDescriptor := by
  intro s
  rw [exec_detect, responseHeader_detect, cap_eq]

end Sys2Proof.Machine

/-! PROOFS. 41_session_lifecycle: what HINIT, HUPDATE and HFINAL do (R152 to R170), when they are refused (R154, R165,
R169), that the bytes of a message may be cut anywhere (R159), and the lifecycle of a slot (R151). -/

namespace Sys2Proof.Machine

/-! ## Statuses and checks (R154, R165) -/

/-- The bits [27:24] of a response header are its status code, whatever the other fields (30_encoding R111). -/
theorem responseHeader_status (opc : BitVec 4) (st : Status) (ctx plen : BitVec 8) :
    (responseHeader opc st ctx plen).extractLsb' 24 4 = st.code := by
  unfold responseHeader
  rw [BitVec.extractLsb'_append_eq_of_le (by omega), BitVec.extractLsb'_append_eq_of_le (by omega),
    BitVec.extractLsb'_append_eq_of_le (by omega), BitVec.extractLsb'_append_eq_of_add_le (by omega)]
  exact BitVec.extractLsb'_eq_self

theorem Status.code_inj {st st' : Status} (h : st.code = st'.code) : st = st' := by
  revert h
  cases st <;> cases st' <;> decide

/-- Responses that begin with equal headers have the same status. -/
theorem status_of_responses_eq {r : List Word} {opc opc' : BitVec 4} {st st' : Status} {c c' n n' : BitVec 8}
    {p p' : List Word} (h : r ++ responseHeader opc st c n :: p = r ++ responseHeader opc' st' c' n' :: p') :
    st = st' := by
  have hhead := (List.cons.inj (List.append_cancel_left h)).1
  have hcode := congrArg (fun w => w.extractLsb' 24 4) hhead
  simp only [responseHeader_status] at hcode
  exact Status.code_inj hcode

/-- Checks in order raise a status only if one of them does. -/
theorem Check.andThen_ne_raise {k l : Check} {st : Status} (hk : k ≠ .raise st) (hl : l ≠ .raise st) :
    k.andThen l ≠ .raise st := by
  cases k with
  | pass => exact hl
  | raise st' => exact hk
  | stop r => exact hk

theorem Check.raiseIf_ne_raise {b : Bool} {st st' : Status} (h : st ≠ st') : Check.raiseIf b st ≠ .raise st' := by
  cases b <;> simp [Check.raiseIf, h]

theorem statSoundCheck_ne_raise (s : State) (c : BitVec 8) (st : Status) : statSoundCheck s c ≠ .raise st := by
  unfold statSoundCheck
  split <;> simp

theorem bufLenSoundCheck_ne_raise (s : State) (c : BitVec 8) (st : Status) : bufLenSoundCheck s c ≠ .raise st := by
  unfold bufLenSoundCheck
  split <;> simp

/-- The only statuses the last two checks raise are InvalidState and Rejected (R154). -/
theorem lifecycleCheck_ne_raise {s : State} {a : BitVec 4} {c : BitVec 8} {st : Status} (h1 : .invalidState ≠ st)
    (h2 : .rejected ≠ st) : lifecycleCheck s a c ≠ .raise st :=
  Check.andThen_ne_raise (Check.raiseIf_ne_raise h1) (Check.raiseIf_ne_raise h2)

theorem operandCheck_ne_raise {s : State} {a : BitVec 4} {c : BitVec 8} {st : Status} (h : .rejected ≠ st) :
    operandCheck s a c ≠ .raise st :=
  Check.andThen_ne_raise (Check.raiseIf_ne_raise h) (Check.raiseIf_ne_raise h)

/-- Every status that the checks of HUPDATE raise is InvalidState or Rejected (R154). -/
theorem hupdateCheck_ne_raise {s : State} {a : BitVec 4} {c : BitVec 8} {st : Status} (h1 : .invalidState ≠ st)
    (h2 : .rejected ≠ st) : hupdateCheck a c s ≠ .raise st :=
  Check.andThen_ne_raise (operandCheck_ne_raise h2) (Check.andThen_ne_raise (statSoundCheck_ne_raise s c st)
    (Check.andThen_ne_raise (bufLenSoundCheck_ne_raise s c st) (lifecycleCheck_ne_raise h1 h2)))

theorem cloadCheck_ne_raise {s : State} {a : BitVec 4} {c : BitVec 8} {st : Status} (h1 : .invalidState ≠ st)
    (h2 : .rejected ≠ st) : cloadCheck a c s ≠ .raise st :=
  Check.andThen_ne_raise (operandCheck_ne_raise h2) (Check.andThen_ne_raise (statSoundCheck_ne_raise s c st)
    (lifecycleCheck_ne_raise h1 h2))

/-- A digest size in range is not raised by any check of HFINAL (R165). -/
theorem hfinalCheck_ne_digestSize {s : State} {a : BitVec 4} {c d : BitVec 8} (hd : d.toNat ≤ s.cfg.maxDigest) :
    hfinalCheck a c d s ≠ .raise .unsupportedDigestSize := by
  have hsize : digestSizeCheck s d ≠ .raise .unsupportedDigestSize := by simp [digestSizeCheck_pass.2 hd]
  exact Check.andThen_ne_raise (operandCheck_ne_raise (by decide)) (Check.andThen_ne_raise hsize
    (Check.andThen_ne_raise (statSoundCheck_ne_raise _ _ _) (Check.andThen_ne_raise (bufLenSoundCheck_ne_raise _ _ _)
      (lifecycleCheck_ne_raise (by decide) (by decide)))))

/-- A digest size out of range is raised before the slot is looked at (R165; 60_exceptions R256). -/
theorem hfinalCheck_digestSize {s : State} {a : BitVec 4} {c d : BitVec 8} (hslot : slotExists s.cfg c = true)
    (halg : algOk s.cfg a = true) (hd : s.cfg.maxDigest < d.toNat) :
    hfinalCheck a c d s = .raise .unsupportedDigestSize := by
  have hsize : digestSizeCheck s d = .raise .unsupportedDigestSize := by simp [digestSizeCheck, Check.raiseIf, hd]
  simp only [hfinalCheck, Check.pass_andThen (operandCheck_pass.2 ⟨hslot, halg⟩), Check.raise_andThen hsize]

/-- After its checks HFINAL answers OK or Timeout (R166, R171). -/
theorem hfinalRun_responses (a : BitVec 4) (c d : BitVec 8) (s : State) :
    ∃ st plen payload, (st = .ok ∨ st = .timeout) ∧
      (hfinalRun a c d s).responses = s.responses ++ responseHeader 4#4 st c plen :: payload := by
  obtain ⟨u, hpol, heq⟩ | ⟨s1, u, hload, hdrain, heq⟩ | ⟨s1, u, hload, hdrain, heq⟩ := hfinalRun_cases a c d s <;>
    rw [heq]
  · exact ⟨.timeout, 0#8, [], .inr rfl, by rw [raise_responses, onlyPolled_responses hpol]⟩
  all_goals
    have hsilent := (hfinal_silent hload).responses
    rw [hdrain] at hsilent
    change u.responses = s.responses at hsilent
  · exact ⟨.ok, d, _, .inl rfl, by rw [← hsilent]; rfl⟩
  · exact ⟨.timeout, 0#8, [], .inr rfl, by rw [dataPhaseTimeout_responses, hsilent]⟩

/-- Settles O15: the size is checked first; every other check and every end of HFINAL has another status. -/
theorem oversizedDigestIsRefusedFirst : Obligations.OversizedDigestIsRefusedFirst := by
  intro a c d s hslot halg
  refine ⟨fun hd => exec_hfinal_of_raise (hfinalCheck_digestSize hslot halg hd), fun hd t h hresp => ?_⟩
  obtain ⟨st, hcheck, rfl⟩ | ⟨_, _, _, _, rfl⟩ := exec_hfinal_next h
  · have hst := status_of_responses_eq ((raise_responses s 4#4 c st).symm.trans hresp)
    exact hfinalCheck_ne_digestSize hd (hst ▸ hcheck)
  · obtain ⟨st, plen, payload, hst, hrun⟩ := hfinalRun_responses a c d s
    rw [status_of_responses_eq (hrun.symm.trans hresp)] at hst
    exact absurd hst (by decide)

/-- A Finalized slot is InvalidState whatever algorithm is asked (R154, R169). -/
theorem lifecycleCheck_invalidState {s : State} {a : BitVec 4} {c : BitVec 8}
    (h : statLife (s.slotGet c .stat) = .finalized) : lifecycleCheck s a c = .raise .invalidState := by
  simp [lifecycleCheck, Check.raiseIf, Check.andThen, h]

/-- Settles O16: the checks before the one of the lifecycle pass, and that one raises InvalidState. -/
theorem finalizedSlotIsInvalidState : Obligations.FinalizedSlotIsInvalidState := by
  intro a c s hslot halgOk hstat hbuf hlife
  have hoperand := operandCheck_pass.2 ⟨hslot, halgOk⟩
  have hsound := statSoundCheck_pass.2 hstat
  have hlen := bufLenSoundCheck_pass.2 hbuf
  have hraise := lifecycleCheck_invalidState (a := a) hlife
  refine ⟨exec_hupdate_of_raise ?_, fun d hd => exec_hfinal_of_raise ?_, exec_cload_of_raise ?_⟩
  · rw [hupdateCheck, Check.pass_andThen hoperand, Check.pass_andThen hsound, Check.pass_andThen hlen, hraise]
  · rw [hfinalCheck, Check.pass_andThen hoperand, Check.pass_andThen (digestSizeCheck_pass.2 hd),
      Check.pass_andThen hsound, Check.pass_andThen hlen, hraise]
  · rw [cloadCheck, Check.pass_andThen hoperand, Check.pass_andThen hsound, hraise]

/-! ## Frames -/

/-- What is written in slot `c` only leaves the words outside it (20_memory R73). -/
theorem touches_not_inSlot {c : BitVec 8} {s t : State} (ht : Touches c s t) (hw : Store.wf s.store) (x : Nat)
    (hx : ¬ inSlot s c x) : Store.read t.store x = Store.read s.store x := by
  refine ht.outside hw x ?_
  unfold inSlot at hx
  omega

theorem wordFrame_owner {s t : State} (h : wordFrame s t) : t.owner = s.owner := by rw [h]

/-! ## HINIT (R152, R153) -/

theorem initSlot_of_owner {c : BitVec 8} {s : State} (h : s.owner = some c) :
    initSlot c s = (s.slotFill c (List.replicate s.cfg.slotWords 0#32)).releaseUnit := by
  simp [initSlot, h]

theorem initSlot_of_not_owner {c : BitVec 8} {s : State} (h : s.owner ≠ some c) :
    initSlot c s = s.slotFill c (List.replicate s.cfg.slotWords 0#32) := by
  simp [initSlot, h]

/-- The owner that HINIT of slot `c` leaves (R153). -/
theorem initSlot_owner (c : BitVec 8) (s : State) :
    (initSlot c s).owner = if s.owner = some c then none else s.owner := by
  split
  · rename_i h
    rw [initSlot_of_owner h, releaseUnit_owner]
  · rename_i h
    rw [initSlot_of_not_owner h, slotFill_owner]

theorem initSlot_owner_ne (c : BitVec 8) (s : State) : (initSlot c s).owner ≠ some c := by
  rw [initSlot_owner]
  split
  · simp
  · assumption

/-- Every word of the slot reads 0 after HINIT (R152). -/
theorem read_initSlot {c : BitVec 8} {s : State} (hw : Store.wf s.store) {k : Nat} (hk : k < s.cfg.slotWords) :
    Store.read (initSlot c s).store (slotAddr s.cfg c + k) = 0#32 := by
  have hread := read_slotFill_same hw c (List.replicate s.cfg.slotWords 0#32) k
  rw [List.length_replicate, if_pos hk, slotFill_store] at hread
  rw [initSlot_store, hread]
  simp [List.getD_eq_getElem?_getD, hk]

/-- HINIT of an existing slot (R152). -/
theorem exec_hinit {c : BitVec 8} {s : State} (h : slotExists s.cfg c = true) :
    exec (.hinit c) s = .next (returnOk 2#4 c (initSlot c s)) := by
  simp only [exec, execHinit, h, if_true]

theorem exec_hinit_missing {c : BitVec 8} {s : State} (h : slotExists s.cfg c = false) :
    exec (.hinit c) s = .next (answered (responseHeader 2#4 .rejected c 0#8) [] s) := by
  simp only [exec, execHinit, h]
  rfl

/-- A second HINIT of the slot writes the same zeros, and finds it no longer the owner (R152, R153). -/
theorem initSlot_initSlot {c : BitVec 8} {s t : State} (hw : Store.wf s.store) (hstore : t.store = (initSlot c s).store)
    (hcfg : t.cfg = s.cfg) (howner : t.owner = (initSlot c s).owner) : initSlot c t = t := by
  have hzeros : Store.writeAll t.store (slotAddr t.cfg c) (List.replicate t.cfg.slotWords 0#32) = t.store := by
    rw [hstore, hcfg, initSlot_store, Store.writeAll_twice hw]
  rw [initSlot_of_not_owner (howner ▸ initSlot_owner_ne c s), State.slotFill, hzeros]

/-- Settles O27: `initSlot` zeroes the slot and releases the unit of its owner, and a second time finds nothing to
do. -/
theorem hinitClearsTheSlot : Obligations.HinitClearsTheSlot := by
  intro c s hw
  have hkept := touches_not_inSlot (initSlot_touches c s) hw
  refine ⟨exec_hinit_missing, fun hc => ⟨_, exec_hinit hc, fun k hk => read_initSlot hw hk, hkept, initSlot_owner c s,
    fun ho => ?_, fun ho => ?_, by simp, by simp, by simp, by simp, by simp, by simp, by simp, by simp, ?_⟩⟩
  · simp [initSlot_of_not_owner ho]
  · simp [initSlot_of_owner ho]
  · rw [exec_hinit (by simpa using hc), initSlot_initSlot hw (t := returnOk 2#4 c (initSlot c s)) rfl (by simp) rfl]
    rfl

/-! ## A loaded session (R155, R166; 42_arbiter_swap R185) -/

/-- What the end of LoadOrResume of slot `c` for algorithm `a` leaves in `s1`, said once for HUPDATE and HFINAL. -/
structure Loaded (a : BitVec 4) (c : BitVec 8) (s s1 : State) : Prop where
  cfg : s1.cfg = s.cfg
  wf : Store.wf s1.store
  owner : s1.owner = some c
  prDefined : s1.prDefined = true
  periph : s1.periph = { s.periph with pr := loadedPR s a c }
  word : ∀ f : Field, f.isWord = true → s1.slotGet c f = s.slotGet c f
  shadow : shadowKept c s s1
  saved : ownerSaved c s s1
  others : othersKept c s s1
  writes : portWrites s1.portLog.reverse = portWrites s.portLog.reverse ++ loadWrites s a c
  sessions : s1.sessions = s.sessions
  streams : StreamsKept s s1

theorem loaded_of_ok {a : BitVec 4} {c : BitVec 8} {s s1 : State} (hs : Sound s)
    (hload : loadOrResume c a s = .ok s1) : Loaded a c s s1 where
  cfg := loadOrResume_ok_cfg hload
  wf := loadOrResume_ok_wf hs.store_wf hload
  owner := loadOrResume_owner hload
  prDefined := by
    obtain hdef | ⟨ho, rfl⟩ := loadOrResume_prDefined hload
    · exact hdef
    · exact (hs.owner_sound c ho).2.2
  periph := by
    have hframe := loadOrResume_frame c a s
    rw [hload, Polled.state_ok] at hframe
    rw [hframe, loadOrResume_pr hs.store_wf hload]
  word := fun f hf => by
    have hget := loadOrResume_slotGet (c := c) (y := c) (a := a) hs.store_wf (fun _ => rfl)
      (Field.valid_of_isWord hf s.cfg)
    rwa [hload] at hget
  shadow := fun k hk => by
    have hread := loadOrResume_read (c := c) (y := c) (a := a) hs.store_wf (fun _ => rfl) (k := k)
      (by rw [slotWords_eq]; rw [contextWords_eq] at hk; omega)
    rwa [hload] at hread
  saved := loadOrResume_saved hs.store_wf hs.acc_len hload
  others := loadOrResume_othersKept hs.store_wf hload
  writes := loadOrResume_writes hs.store_wf hload
  sessions := (loadOrResume_silent hload).sessions
  streams := loadOrResume_streamsKept hload

/-- Whatever is written to slot `c` after its load, the previous owner stays saved and the other slots stay (R83). -/
theorem loaded_touches {a : BitVec 4} {c : BitVec 8} {s s1 u : State} (L : Loaded a c s s1) (ht : Touches c s1 u) :
    ownerSaved c s u ∧ othersKept c s u :=
  ⟨ownerSaved_touches L.wf L.saved ht, othersKept_touches L.cfg L.wf L.others ht⟩

/-! ## A run of bytes that completes no word (R156, R158) -/

/-- The state after the bytes `xs` are appended to the buffer of slot `c`, none of them completing a word. -/
def buffered (c : BitVec 8) : List Byte → State → State
  | [], s => s
  | x :: xs, s => buffered c xs (appendByte c x s)

/-- Appending bytes writes the store and nothing else. -/
theorem buffered_frame (c : BitVec 8) (xs : List Byte) (s : State) :
    buffered c xs s = { s with store := (buffered c xs s).store } := by
  induction xs generalizing s with
  | nil => rfl
  | cons x xs ih => exact ih (appendByte c x s)

theorem appendByte_bufLen {c : BitVec 8} {s : State} (hw : Store.wf s.store) (x : Byte)
    (hn : (s.slotGet c .bufLen).toNat ≤ 3) :
    ((appendByte c x s).slotGet c .bufLen).toNat = (s.slotGet c .bufLen).toNat + 1 := by
  obtain ⟨_, hlen, _, _⟩ := appendByte_get (c := c) hw x
  rw [hlen, BitVec.toNat_add, show (1#32).toNat = 1 from rfl]
  omega

/-- Bytes that do not fill the buffer are appended without a poll (R156; 43_word_submission R211). -/
theorem absorbBytes_short {c : BitVec 8} {s : State} (hw : Store.wf s.store) {xs : List Byte}
    (h : (s.slotGet c .bufLen).toNat + xs.length < 4) : absorbBytes c xs s = .ok (buffered c xs s) := by
  induction xs generalizing s with
  | nil => rfl
  | cons x xs ih =>
    rw [List.length_cons] at h
    have hbyte : absorbByte c x s = .ok (appendByte c x s) := by rw [absorbByte_eq hw x (by omega), if_neg (by omega)]
    have hlen := appendByte_bufLen (c := c) hw x (by omega)
    simp only [absorbBytes, hbyte]
    exact ih ((appendByte_touches c x s).wf hw) (by omega)

/-! ## HUPDATE (R155, R156, R158, R160) -/

/-- An HUPDATE whose swap and data phase end well (R155). -/
theorem hupdateRun_of_ok {a : BitVec 4} {c : BitVec 8} {data : List Byte} {s s1 u : State}
    (hswap : hupdateSwap a c data s = .ok s1)
    (habs : absorbBytes c data (activate c (statShv (s.slotGet c .stat)) a s1) = .ok u) :
    hupdateRun a c data s = returnOk 3#4 c u := by
  simp only [hupdateRun, hswap, hupdateBody, habs]

theorem hupdateSwap_short {a : BitVec 4} {c : BitVec 8} {data : List Byte} {s : State}
    (h : (s.slotGet c .bufLen).toNat + data.length < 4) : hupdateSwap a c data s = .ok s := by
  have hno : completesWord c data s = false := by simpa [completesWord] using h
  simp only [hupdateSwap, hno, Bool.false_eq_true, if_false]

theorem hupdateSwap_full {a : BitVec 4} {c : BitVec 8} {data : List Byte} {s : State}
    (h : 4 ≤ (s.slotGet c .bufLen).toNat + data.length) : hupdateSwap a c data s = loadOrResume c a s := by
  have hcompletes : completesWord c data s = true := decide_eq_true h
  simp only [hupdateSwap, hcompletes, if_true]

/-- An HUPDATE that completes no word passes no matter what OWNER is, since it makes no swap (R156). -/
theorem exec_hupdate_short {s : State} {a : BitVec 4} {c : BitVec 8} {len : Word} {payload : List Word}
    (hw : Store.wf s.store) (hopen : SessionOpen s a c)
    (h : (s.slotGet c .bufLen).toNat + (updateData s.cfg len payload).length < 4) :
    exec (.hupdate a c len payload) s = .next (returnOk 3#4 c
      (buffered c (updateData s.cfg len payload) (activate c (statShv (s.slotGet c .stat)) a s))) := by
  have hcheck := hupdateCheck_pass.2 ⟨hopen, by omega⟩
  have hno : completesWord c (updateData s.cfg len payload) s = false := by
    simpa [completesWord] using h
  have hlen : (activate c (statShv (s.slotGet c .stat)) a s).slotGet c .bufLen = s.slotGet c .bufLen :=
    activate_get hw _ a .bufLen rfl
  have habs := absorbBytes_short (c := c) (xs := updateData s.cfg len payload)
    ((activate_touches c (statShv (s.slotGet c .stat)) a s).wf hw) (by rwa [hlen])
  simp only [exec, execHupdate, hcheck, hno, Bool.false_and, Bool.false_eq_true, if_false,
    hupdateRun_of_ok (hupdateSwap_short h) habs]

/-- The lanes of BUF after bytes that complete no word are absorbed: the bytes that were pending, then the new ones,
then the lanes as they were (43_word_submission R211). -/
theorem absorbed_lane_short {c : BitVec 8} {s t : State} {xs : List Byte} (A : Absorbed c s xs t)
    (h : (s.slotGet c .bufLen).toNat + xs.length < 4) {b : Nat} (hb : b < 4) :
    lane s.cfg.byteOrder (t.slotGet c .buf) b =
      if (s.slotGet c .bufLen).toNat ≤ b ∧ b < (s.slotGet c .bufLen).toNat + xs.length then
        xs.getD (b - (s.slotGet c .bufLen).toNat) 0#8
      else lane s.cfg.byteOrder (s.slotGet c .buf) b := by
  have hn : (s.slotGet c .bufLen).toNat ≤ 3 := by omega
  have hpending := pendingBytes_length hn
  have htotal : (pendingBytes s c ++ xs).length = (s.slotGet c .bufLen).toNat + xs.length := by
    rw [List.length_append, hpending]
  by_cases hlow : b < (s.slotGet c .bufLen).toNat + xs.length
  · rw [A.low b (by omega), leftover_short (by omega)]
    by_cases hold : b < (s.slotGet c .bufLen).toNat
    · rw [if_neg (by omega), ← pendingBytes_getD hn hold, List.getD_append _ _ _ _ (by omega)]
    · rw [if_pos (by omega), List.getD_append_right _ _ _ _ (by omega), hpending]
  · rw [if_neg (by omega), A.high_kept (by omega) b (by omega) hb]

/-- Settles O28: the bytes are appended one by one, and none of them is the fourth of a word. -/
theorem hupdateBuffersAShortChunk : Obligations.HupdateBuffersAShortChunk := by
  intro a c len payload s hw hopen h
  have hexec := exec_hupdate_short hw hopen h
  generalize updateData s.cfg len payload = data at h hexec ⊢
  generalize statShv (s.slotGet c .stat) = shv at hexec ⊢
  have htouch := activate_touches c shv a s
  have hlen : (activate c shv a s).slotGet c .bufLen = s.slotGet c .bufLen := activate_get hw shv a .bufLen rfl
  have hbuf : (activate c shv a s).slotGet c .buf = s.slotGet c .buf := activate_get hw shv a .buf rfl
  have hlo : (activate c shv a s).slotGet c .loLen = s.slotGet c .loLen := activate_get hw shv a .loLen rfl
  have h0 : ((activate c shv a s).slotGet c .bufLen).toNat + data.length < 4 := by rwa [hlen]
  have A := absorbBytes_absorbed (htouch.wf hw) (by omega) (absorbBytes_short (htouch.wf hw) h0)
  have hall := touches_trans (touches_trans htouch A.touches) (touches_of_same (t := returnOk 3#4 c _) rfl rfl)
  refine ⟨_, hexec, fun b hb => ?_, ?_, A.loLen.trans (by rw [hlo]), A.stat.trans (activate_stat hw shv a),
    shadowKept_trans (t := activate c shv a s) rfl (activate_shadowKept hw shv a) A.shadow,
    touches_not_inSlot hall hw, ?_⟩
  · have hlane := absorbed_lane_short A h0 hb
    rwa [activate_cfg, hlen, hbuf] at hlane
  · have hbufLen := A.bufLen
    rw [List.length_append, pendingBytes_length (by omega), Nat.mod_eq_of_lt h0, hlen] at hbufLen
    exact hbufLen
  · rw [returnOk_eq_answered, buffered_frame]
    rfl

/-- With at least one word absorbed, P.DIN holds the last one (43_word_submission R213). -/
theorem some_getLast?_getD {l : List Word} (h : 0 < l.length) (w : Word) : some (l.getLast?.getD w) = l.getLast? := by
  rw [List.getLast?_eq_some_getLast (List.ne_nil_of_length_pos h), Option.getD_some]

/-- Settles O29: the swap loads the session, and the data phase absorbs its pending bytes followed by the data. -/
theorem hupdateSubmitsWholeWords : Obligations.HupdateSubmitsWholeWords := by
  intro a c len payload s hs hopen hb h4 hr
  obtain ⟨s1, u, hload, A, hrun⟩ := hupdateRun_of_responsive (a := a) hs.store_wf hb h4 hr
  have L := loaded_of_ok hs hload
  have hexec := (exec_hupdate (ownerExists_of_sound hs) hopen hb).trans (congrArg _ hrun)
  generalize updateData s.cfg len payload = data at A h4 ⊢
  generalize statShv (s.slotGet c .stat) = shv at A ⊢
  have htouch := touches_trans (activate_touches c shv a s1) A.touches
  obtain ⟨hsaved, hothers⟩ := loaded_touches L htouch
  have hpending : pendingBytes (activate c shv a s1) c = pendingBytes s c :=
    activate_loaded_pendingBytes hs.store_wf hload shv
  have hlo : (activate c shv a s1).slotGet c .loLen = s.slotGet c .loLen :=
    activate_loaded_get hs.store_wf hload shv rfl (by decide)
  have hlen := A.bufLen
  have hlow := A.low
  have hhigh := A.high_zero
  have hpr := A.pr
  have hdin := A.din
  have hwrites := A.writes
  have hframe := A.frame
  rw [wordFrame] at hframe
  rw [hpending, activate_cfg, L.cfg] at hlow hhigh hpr hdin hwrites
  rw [hpending] at hlen
  obtain ⟨bs, hbs⟩ : ∃ bs, pendingBytes s c ++ data = bs := ⟨_, rfl⟩
  have hcount : 4 ≤ bs.length := by rw [← hbs, List.length_append, pendingBytes_length hb]; exact h4
  rw [hbs] at hlen hlow hhigh hpr hdin hwrites
  have hcfg : u.cfg = s.cfg := A.touches.cfg.trans L.cfg
  refine ⟨_, hexec, bs, hbs.symm, ?_, ?_, ?_, ?_, ?_, ?_, hlen, hhigh hcount, A.loLen.trans (by rw [hlo]), ?_, ?_,
    hsaved, hothers, ?_, ?_, ?_, hcfg, ?_, ?_⟩
  · rw [returnOk_owner, hframe]; exact L.owner
  · rw [returnOk_prDefined, hframe]; exact L.prDefined
  · rw [returnOk_periph, hpr, activate_periph, L.periph]
  · rw [returnOk_periph, hdin, some_getLast?_getD (by rw [wholeWords_length]; omega)]
  · rw [returnOk_portLog, hwrites, activate_portLog, L.writes]
  · refine pendingBytes_of_lanes (hlen.trans (leftover_length bs).symm) (by rw [leftover_length]; omega) fun b hlt => ?_
    rw [returnOk_cfg, hcfg]
    exact hlow b (by rwa [leftover_length] at hlt)
  · exact A.stat.trans (activate_stat L.wf shv a)
  · exact shadowKept_trans (t := activate c shv a s1) L.cfg
      (shadowKept_trans L.cfg L.shadow (activate_shadowKept L.wf shv a)) A.shadow
  · rw [returnOk_periph, hframe]; simp [L.periph]
  · rw [returnOk_periph, hframe]; simp [L.periph]
  · rw [returnOk_sessions, hframe]; exact L.sessions
  · rw [returnOk_commands, hframe]; exact L.streams.commands
  · rw [returnOk_responses, hframe, activate_responses, L.streams.responses]

/-! ## The flush and the drain of HFINAL (R166; 43_word_submission R215 to R218) -/

/-- The word a flush submits, none when nothing is buffered (43_word_submission R215). -/
def flushedWords (s : State) (c : BitVec 8) : List Word :=
  if s.slotGet c .bufLen = 0#32 then [] else [s.slotGet c .buf]

/-- What a flush that ends OK has done. -/
structure Flushed (c : BitVec 8) (s u : State) : Prop where
  frame : wordFrame s u
  loLen : u.slotGet c .loLen = s.slotGet c .loLen
  shadow : shadowKept c s u
  pr : u.periph.pr = (flushedWords s c).foldl (periphAbsorb s.cfg) s.periph.pr
  writes : portWrites u.portLog.reverse = portWrites s.portLog.reverse ++
    (flushedWords s c).map fun w => (WriteReg.din, w)

theorem flushed_of_ok {c : BitVec 8} {s u : State} (hw : Store.wf s.store) (h : flushPartial c s = .ok u) :
    Flushed c s u := by
  have hframe := flushPartial_frame c s
  rw [h, Polled.state_ok] at hframe
  obtain ⟨hempty, heq⟩ | ⟨hsome, heq⟩ := flushPartial_cases c s <;> rw [h] at heq
  · cases heq
    exact ⟨hframe, rfl, shadowKept_refl c s, by simp [flushedWords, hempty], by simp [flushedWords, hempty]⟩
  · have hpol := pollReady_ok heq.symm
    have hpoll := pollReady_writes .ready (submitted c s)
    rw [← heq, Polled.state_ok] at hpoll
    obtain ⟨_, _, hlo, _⟩ := submitted_get (c := c) hw
    have hword : flushedWords s c = [s.slotGet c .buf] := if_neg hsome
    have hlog : (submitted c s).portLog = .write .din (s.slotGet c .buf) :: s.portLog := rfl
    refine ⟨hframe, (onlyPolled_slotGet hpol c .loLen).trans hlo, ?_, ?_, ?_⟩
    · exact shadowKept_trans (submitted_cfg c s) (submitted_shadowKept hw) (shadowKept_of_same (onlyPolled_store hpol))
    · rw [onlyPolled_periph hpol, hword]
      rfl
    · rw [hpoll, hlog, List.reverse_cons, portWrites_append, hword]
      rfl

/-- The length configuration HFINAL writes (43_word_submission R216). -/
def finalLength (s : State) (a : BitVec 4) (c : BitVec 8) : Word :=
  lencfg s.cfg a ((s.slotGet c .loLen).extractLsb' 0 6)

/-- What a drain that ends OK has done: the flush, then the length configuration, to which the unit answered its results
(43_word_submission R216, R218). -/
structure Drained (a : BitVec 4) (c : BitVec 8) (s t : State) : Prop where
  touches : Touches c s t
  sessions : t.sessions = s.sessions
  streams : StreamsKept s t
  loLen : t.slotGet c .loLen = s.slotGet c .loLen
  shadow : shadowKept c s t
  lencfg : t.periph.lencfg = finalLength s a c
  res : t.periph.res =
    periphFinal s.cfg ((flushedWords s c).foldl (periphAbsorb s.cfg) s.periph.pr) (finalLength s a c)
  writes : portWrites t.portLog.reverse = portWrites s.portLog.reverse ++
    (flushedWords s c).map (fun w => (WriteReg.din, w)) ++ [(WriteReg.lencfg, finalLength s a c)]

theorem drained_of_ok {a : BitVec 4} {c : BitVec 8} {s t : State} (hw : Store.wf s.store)
    (h : hfinalDrain a c s = .ok t) : Drained a c s t := by
  obtain ⟨u, hflush, hpoll⟩ := hfinalDrain_ok h
  have F := flushed_of_ok hw hflush
  have hcfg := wordFrame_cfg F.frame
  have hpol := pollReady_ok hpoll
  have hpolled := pollReady_writes .dready (finalize a (u.slotGet c .loLen) u)
  rw [hpoll, Polled.state_ok] at hpolled
  have htouch := hfinalDrain_touches a c s
  have hsilent := hfinalDrain_silent a c s
  have hstreams := hfinalDrain_streamsKept a c s
  rw [h] at htouch hsilent hstreams
  have hv : lencfg u.cfg a ((u.slotGet c .loLen).extractLsb' 0 6) = finalLength s a c := by
    rw [F.loLen, hcfg]
    rfl
  have hlog : (finalize a (u.slotGet c .loLen) u).portLog = .write .lencfg (finalLength s a c) :: u.portLog := by
    rw [finalize_portLog, hv]
  refine ⟨htouch, hsilent.sessions, hstreams, (onlyPolled_slotGet hpol c .loLen).trans F.loLen, ?_, ?_, ?_, ?_⟩
  · have hstore : t.store = u.store := (onlyPolled_store hpol).trans (finalize_store u a _)
    exact shadowKept_trans hcfg F.shadow (shadowKept_of_same hstore)
  · rw [onlyPolled_periph hpol, finalize_periph, hv]
  · rw [onlyPolled_periph hpol, finalize_periph, hv, F.pr, hcfg]
  · rw [hpolled, hlog, List.reverse_cons, portWrites_append, F.writes]
    rfl

/-- A load leaves the word to be flushed and the length as they were (42_arbiter_swap R185). -/
theorem loaded_flushedWords {a : BitVec 4} {c : BitVec 8} {s s1 : State} (L : Loaded a c s s1) :
    flushedWords s1 c = flushedWords s c := by
  unfold flushedWords
  rw [L.word .bufLen rfl, L.word .buf rfl]

theorem loaded_finalLength {a : BitVec 4} {c : BitVec 8} {s s1 : State} (L : Loaded a c s s1) :
    finalLength s1 a c = finalLength s a c := by
  unfold finalLength
  rw [L.word .loLen rfl, L.cfg]

/-- On a responsive peripheral a drain ends OK, with a poll for the partial word if there is one and that of P.DREADY
(41_session_lifecycle R166; 10_state R54). -/
theorem hfinalDrain_of_responsive (a : BitVec 4) {c : BitVec 8} {s : State}
    (h : responsive ((if s.slotGet c .bufLen = 0#32 then [] else [.ready]) ++ [.dready]) s) :
    ∃ t, hfinalDrain a c s = .ok t := by
  have hflush : ∃ u, flushPartial c s = .ok u ∧ responsive [.dready] u := by
    obtain ⟨hempty, heq⟩ | ⟨hsome, heq⟩ := flushPartial_cases c s
    · rw [if_pos hempty] at h
      exact ⟨s, heq, h⟩
    · rw [if_neg hsome] at h
      obtain ⟨u, hu, _, hr⟩ := responsive_poll
        (responsive_congr (t := submitted c s) (submitted_cfg c s) (submitted_flagSamples c s) (submitted_draws c s) h)
      exact ⟨u, heq.trans hu, hr⟩
  obtain ⟨u, hu, hr⟩ := hflush
  have hrf : responsive [.dready] (finalize a (u.slotGet c .loLen) u) := responsive_congr (s := u) rfl rfl rfl hr
  obtain ⟨t, ht, _, _⟩ := responsive_poll hrf
  exact ⟨t, by simp only [hfinalDrain, hu, ht]⟩

/-! ## The digest (43_word_submission R219) -/

/-- The bytes of a sequence of words lie in its first words. -/
theorem bytesOf_take (o : ByteOrder) {d n : Nat} (ws : List Word) (hd : d ≤ 4 * n) (hn : n ≤ ws.length) :
    bytesOf o d (ws.take n) = bytesOf o d ws := by
  unfold bytesOf
  conv_rhs => rw [← List.take_append_drop n ws, List.flatMap_append]
  rw [List.take_append_of_le_length]
  rw [flatMap_lanes_length, List.length_take]
  omega

theorem map_getD_range {l : List Word} {n : Nat} (h : n ≤ l.length) :
    (List.range n).map (fun j => l.getD j 0#32) = l.take n := by
  apply List.ext_getElem
  · simp [h]
  · intro k h1 h2
    have hk : k < l.length := by simp at h2; omega
    simp [List.getElem?_eq_getElem hk]

/-- The digest is the first bytes of the result registers (R219). -/
theorem digestBytes_eq {s : State} {d : BitVec 8} (hlen : s.periph.res.length = s.cfg.resultWords)
    (hd : d.toNat ≤ s.cfg.maxDigest) : digestBytes s d = bytesOf s.cfg.byteOrder d.toNat s.periph.res := by
  have hwords := resultWords_eq s.cfg
  have hn : digestWords d ≤ s.periph.res.length := by unfold digestWords; omega
  unfold digestBytes
  rw [map_getD_range hn, bytesOf_take _ _ (by unfold digestWords; omega) hn]

theorem portWrites_resultReads (s : State) (n : Nat) : portWrites (resultReads s n) = [] := by
  unfold resultReads
  induction List.range n with
  | nil => rfl
  | cons j js ih => exact ih

/-- The response to HFINAL carries the digest (41_session_lifecycle R166). -/
theorem hfinalDeliver_responses (a : BitVec 4) (c d : BitVec 8) (s : State) : (hfinalDeliver a c d s).responses =
    s.responses ++ responseHeader 4#4 .ok c d :: packBytes s.cfg.byteOrder (digestBytes s d) := rfl

/-- Delivering the digest writes nothing on the port. -/
theorem hfinalDeliver_writes (a : BitVec 4) (c d : BitVec 8) (s : State) :
    portWrites (hfinalDeliver a c d s).portLog.reverse = portWrites s.portLog.reverse := by
  have hlog : (hfinalDeliver a c d s).portLog = (resultReads s (digestWords d)).reverse ++ s.portLog := rfl
  rw [hlog, List.reverse_append, List.reverse_reverse, portWrites_append, portWrites_resultReads, List.append_nil]

/-- What delivering the digest does to the fields of its slot (41_session_lifecycle R170). -/
theorem hfinalDeliver_get {a : BitVec 4} {c d : BitVec 8} {s : State} (hw : Store.wf s.store) (g : Field)
    (hg : g.isWord = true) :
    (hfinalDeliver a c d s).slotGet c g = if g = .stat then mkStat .finalized false true a else s.slotGet c g :=
  slotPut_get (s := afterDigestRead d s) hw c (f := .stat) rfl _ g hg

theorem hfinalDeliver_shadowKept {a : BitVec 4} {c d : BitVec 8} {s : State} (hw : Store.wf s.store) :
    shadowKept c s (hfinalDeliver a c d s) :=
  shadowKept_slotPut (s := afterDigestRead d s) hw c (f := .stat) rfl _

/-! ## HFINAL (R166, R167, R170) -/

/-- An HFINAL whose swap and data phase end well (R166). -/
theorem hfinalRun_of_ok {a : BitVec 4} {c d : BitVec 8} {s s1 u : State} (hload : loadOrResume c a s = .ok s1)
    (hdrain : hfinalDrain a c s1 = .ok u) : hfinalRun a c d s = hfinalDeliver a c d u := by
  simp only [hfinalRun, hload, hdrain]

/-- On a responsive peripheral both do (10_state R54). -/
theorem hfinal_of_responsive {a : BitVec 4} {c : BitVec 8} {s : State} (hs : Sound s)
    (hr : responsive (finalPolls s c) s) :
    ∃ s1 u, loadOrResume c a s = .ok s1 ∧ hfinalDrain a c s1 = .ok u := by
  rw [finalPolls, List.append_assoc] at hr
  obtain ⟨s1, hload, hr1⟩ := loadOrResume_of_responsive c a hr
  rw [← (loaded_of_ok hs hload).word .bufLen rfl] at hr1
  obtain ⟨u, hu⟩ := hfinalDrain_of_responsive a hr1
  exact ⟨s1, u, hload, hu⟩

/-- Settles O33: the load, the drain and the delivery, each said by its own lemma. -/
theorem hfinalDeliversTheDigest : Obligations.HfinalDeliversTheDigest := by
  intro a c d s hs hopen hslot hd hr
  obtain ⟨s1, u, hload, hdrain⟩ := hfinal_of_responsive (a := a) hs hr
  have hexec := (exec_hfinal (ownerExists_of_sound hs) hopen hslot.bufLen_le hd).trans
    (congrArg _ (hfinalRun_of_ok (d := d) hload hdrain))
  have L := loaded_of_ok hs hload
  have D := drained_of_ok L.wf hdrain
  have hcfg : u.cfg = s.cfg := D.touches.cfg.trans L.cfg
  obtain ⟨hlen0, hbuf0⟩ := hfinalDrain_empty L.wf (swapped_slotSound hs (.inr hload) hslot) hdrain
  have hlencfg := D.lencfg
  have hres := D.res
  have hwrites := D.writes
  rw [loaded_finalLength L] at hlencfg
  rw [loaded_flushedWords L, loaded_finalLength L, L.periph, L.cfg] at hres
  rw [loaded_flushedWords L, loaded_finalLength L, L.writes] at hwrites
  have hdigest : digestBytes u d = bytesOf s.cfg.byteOrder d.toNat u.periph.res := by
    rw [digestBytes_eq (by rw [hres, periphFinal_length, hcfg]) (by rwa [hcfg]), hcfg]
  obtain ⟨hsaved, hothers⟩ := loaded_touches L (touches_trans D.touches (hfinalDeliver_touches a c d u))
  have hwu := D.touches.wf L.wf
  have hget := hfinalDeliver_get (a := a) (c := c) (d := d) hwu
  refine ⟨_, hexec, flushedWords s c, _, finalLength s a c, rfl, rfl, rfl, ?_, ?_, hlencfg, hres, rfl, rfl,
    hget .stat rfl, (hget .buf rfl).trans hbuf0, (hget .bufLen rfl).trans hlen0, ?_, ?_, hsaved, hothers, ?_, hcfg, ?_⟩
  · rw [hfinalDeliver_responses, D.streams.responses, L.streams.responses, hcfg, hdigest, hres]
  · rw [hfinalDeliver_writes, hwrites]
  · rw [hget .loLen rfl, if_neg (by decide), D.loLen, L.word .loLen rfl]
  · exact shadowKept_trans hcfg (shadowKept_trans L.cfg L.shadow D.shadow) (hfinalDeliver_shadowKept hwu)
  · exact D.sessions.trans L.sessions
  · exact D.streams.commands.trans L.streams.commands

/-- A Fresh slot holds no shadow, no byte and no length, and is not loaded (10_state R57). -/
theorem fresh_slot {c : BitVec 8} {s : State} (hs : Sound s) (hslot : SlotSound s c)
    (hfresh : statLife (s.slotGet c .stat) = .fresh) :
    s.owner ≠ some c ∧ (∀ f : Field, f.valid s.cfg → s.slotGet c f = 0#32) := by
  refine ⟨fun ho => ?_, fun f hf => hslot.fresh_zero hfresh _ (offset_lt hf)⟩
  obtain ⟨_, hact, _⟩ := hs.owner_sound c ho
  rw [hfresh] at hact
  cases hact

/-- Settles O34: of a Fresh slot the load is a start, nothing is flushed, and the length is that of no byte. -/
theorem hfinalOfFreshIsTheEmptyMessage : Obligations.HfinalOfFreshIsTheEmptyMessage := by
  intro a c d s hs hopen hslot hfresh hd hr
  obtain ⟨hno, hzero⟩ := fresh_slot hs hslot hfresh
  have hshv : statShv (s.slotGet c .stat) = false := by rw [hzero .stat trivial]; decide
  obtain ⟨t, hexec, flushed, pr, v, hflushed, hpr, hv, hresp, hwrites, _⟩ :=
    hfinalDeliversTheDigest a c d s hs hopen hslot hd hr
  have hload : loadWrites s a c = [(.start, a.zeroExtend 32)] := by simp [loadWrites, hno, hshv]
  have hloaded : loadedPR s a c = periphStart s.cfg a := by simp [loadedPR, hno, hshv]
  rw [hzero .bufLen trivial, if_pos rfl] at hflushed
  rw [hzero .loLen trivial, BitVec.extractLsb'_zero] at hv
  subst hflushed
  rw [hloaded] at hpr
  rw [hload, hv] at hwrites
  rw [hpr, hv] at hresp
  exact ⟨t, hexec, by simpa using hwrites, hresp⟩

/-! ## Commands that end OK -/

/-- The response stream of `t` is that of `s` and then a response with status OK to a command with OPC `opc`. -/
def AnsweredOk (opc : BitVec 4) (c : BitVec 8) (s t : State) : Prop :=
  ∃ plen payload, t.responses = s.responses ++ responseHeader opc .ok c plen :: payload

/-- A command that ends by `raise` has that status. -/
theorem answeredOk_raise {opc : BitVec 4} {c : BitVec 8} {st : Status} {s u : State} (hu : u.responses = s.responses)
    (h : AnsweredOk opc c s (raise opc c st u)) : st = .ok := by
  obtain ⟨plen, payload, h⟩ := h
  rw [raise_responses, hu] at h
  exact status_of_responses_eq h

/-- A data-phase Timeout is no OK. -/
theorem not_answeredOk_dataPhaseTimeout {opc : BitVec 4} {c : BitVec 8} {s u : State} (hu : u.responses = s.responses) :
    ¬ AnsweredOk opc c s (dataPhaseTimeout opc c u) := fun h =>
  absurd (answeredOk_raise (u := (u.unspecifySlot c).releaseUnit) hu h) (by decide)

theorem not_answeredOk_timeout {opc : BitVec 4} {c : BitVec 8} {s u : State} (hpol : onlyPolled s u) :
    ¬ AnsweredOk opc c s (raise opc c .timeout u) := fun h =>
  absurd (answeredOk_raise (onlyPolled_responses hpol) h) (by decide)

theorem hupdateSwap_swapped {a : BitVec 4} {c : BitVec 8} {data : List Byte} {s s1 : State}
    (h : hupdateSwap a c data s = .ok s1) : swapped a c s s1 := by
  obtain ⟨u, _, heq⟩ | ⟨s1', hswap, heq⟩ := hupdateSwap_cases a c data s <;> rw [h] at heq <;> cases heq
  exact hswap

/-- The swap and the data phase of an HUPDATE answer nothing (R111). -/
theorem hupdate_responses {a : BitVec 4} {c : BitVec 8} {shv : Bool} {data : List Byte} {s s1 u : State}
    (hswap : swapped a c s s1) (h : (absorbBytes c data (activate c shv a s1)).state = u) : u.responses = s.responses :=
  h ▸ (hupdate_silent hswap).responses

/-- Once the bytes are absorbed STAT is what latching the algorithm made it (R155). -/
theorem absorbed_stat {a : BitVec 4} {c : BitVec 8} {shv : Bool} {data : List Byte} {s1 u : State}
    (hw : Store.wf s1.store) (h : absorbBytes c data (activate c shv a s1) = .ok u) :
    u.slotGet c .stat = mkStat .active shv true a := by
  have hstat := absorbBytes_stat (c := c) data ((activate_touches c shv a s1).wf hw)
  rwa [h, activate_stat hw] at hstat

/-- How an HINIT ends OK (R152). -/
theorem hinit_of_answeredOk {c : BitVec 8} {s t : State} (h : exec (.hinit c) s = .next t)
    (hok : AnsweredOk 2#4 c s t) : t = returnOk 2#4 c (initSlot c s) := by
  obtain ⟨_, rfl⟩ | ⟨_, rfl⟩ := exec_hinit_next h
  · exact absurd (answeredOk_raise rfl hok) (by decide)
  · rfl

/-- How an HUPDATE ends OK: its swap and its data phase do (R155). -/
theorem hupdate_of_answeredOk {a : BitVec 4} {c : BitVec 8} {len : Word} {payload : List Word} {s t : State}
    (h : exec (.hupdate a c len payload) s = .next t) (hok : AnsweredOk 3#4 c s t) :
    SessionOpen s a c ∧ (s.slotGet c .bufLen).toNat ≤ 3 ∧
      ∃ s1 u, hupdateSwap a c (updateData s.cfg len payload) s = .ok s1 ∧
        absorbBytes c (updateData s.cfg len payload) (activate c (statShv (s.slotGet c .stat)) a s1) = .ok u ∧
        t = returnOk 3#4 c u := by
  obtain ⟨st, hcheck, rfl⟩ | ⟨hopen, hb, _, rfl⟩ := exec_hupdate_next h
  · exact absurd (answeredOk_raise rfl hok ▸ hcheck) (hupdateCheck_ne_raise (by decide) (by decide))
  refine ⟨hopen, hb, ?_⟩
  generalize updateData s.cfg len payload = data at hok ⊢
  obtain ⟨u, hpol, hswap⟩ | ⟨s1, hs1, hswap⟩ := hupdateSwap_cases a c data s
  · rw [hupdateRun, hswap] at hok
    exact absurd hok (not_answeredOk_timeout hpol)
  · cases habs : absorbBytes c data (activate c (statShv (s.slotGet c .stat)) a s1) with
    | ok u => exact ⟨s1, u, hswap, habs, hupdateRun_of_ok hswap habs⟩
    | timeout u =>
      simp only [hupdateRun, hswap, hupdateBody, habs] at hok
      exact absurd hok (not_answeredOk_dataPhaseTimeout (hupdate_responses hs1 (congrArg Polled.state habs)))

/-- How an HFINAL ends OK (R166). -/
theorem hfinal_of_answeredOk {a : BitVec 4} {c d : BitVec 8} {s t : State} (h : exec (.hfinal a c d) s = .next t)
    (hok : AnsweredOk 4#4 c s t) :
    SessionOpen s a c ∧ ∃ s1 u, loadOrResume c a s = .ok s1 ∧ hfinalDrain a c s1 = .ok u ∧
      t = hfinalDeliver a c d u := by
  obtain ⟨st, hcheck, rfl⟩ | ⟨hopen, _, _, _, rfl⟩ := exec_hfinal_next h
  · exact absurd (answeredOk_raise rfl hok ▸ hcheck) (hfinalCheck_ne_ok a c d s)
  refine ⟨hopen, ?_⟩
  obtain ⟨u, hpol, heq⟩ | ⟨s1, u, hload, hdrain, heq⟩ | ⟨s1, u, hload, hdrain, heq⟩ := hfinalRun_cases a c d s <;>
    rw [heq] at hok
  · exact absurd hok (not_answeredOk_timeout hpol)
  · exact ⟨s1, u, hload, hdrain, heq⟩
  · have hsilent := (hfinal_silent hload).responses
    rw [hdrain] at hsilent
    exact absurd hok (not_answeredOk_dataPhaseTimeout hsilent)

/-- How a CLOAD ends OK (R189). -/
theorem cload_of_answeredOk {a : BitVec 4} {c : BitVec 8} {s t : State} (h : exec (.cload a c) s = .next t)
    (hok : AnsweredOk 5#4 c s t) :
    SessionOpen s a c ∧ ∃ s1, loadOrResume c a s = .ok s1 ∧
      t = returnOk 5#4 c (activate c (statShv (s.slotGet c .stat)) a s1) := by
  obtain ⟨st, hcheck, rfl⟩ | ⟨hopen, _, rfl⟩ := exec_cload_next h
  · exact absurd (answeredOk_raise rfl hok ▸ hcheck) (cloadCheck_ne_raise (by decide) (by decide))
  refine ⟨hopen, ?_⟩
  obtain ⟨u, hpol, heq⟩ | ⟨s1, hload, heq⟩ := cloadRun_cases a c s <;> rw [heq] at hok
  · exact absurd hok (not_answeredOk_timeout hpol)
  · exact ⟨s1, hload, heq⟩

/-- How a CSAVE ends OK: with nothing done, or with the owner captured (R191). -/
theorem csave_of_answeredOk {c : BitVec 8} {s t : State} (h : exec (.csave c) s = .next t)
    (hok : AnsweredOk 6#4 c s t) :
    t = returnOk 6#4 c s ∨ ∃ u, onlyPolled s u ∧ t = returnOk 6#4 c (captureInto c u) := by
  obtain ⟨_, rfl⟩ | ⟨_, rfl⟩ := exec_csave_next h
  · exact absurd (answeredOk_raise rfl hok) (by decide)
  obtain ⟨_, heq⟩ | ⟨u, hpol, heq⟩ | ⟨u, _, hpol, heq⟩ := csaveRun_cases c s <;> rw [heq] at hok ⊢
  · exact .inl rfl
  · exact absurd hok (not_answeredOk_timeout hpol)
  · exact .inr ⟨u, hpol, rfl⟩

/-- Settles O52: each command that ends OK writes the LIFE it is said to, or leaves STAT but for SHV. -/
theorem lifecycleTransitions : Obligations.LifecycleTransitions := by
  intro i s t c plen payload hs _ h hresp
  have hok : AnsweredOk (opcOf i) c s t := ⟨plen, payload, hresp⟩
  have hw := hs.store_wf
  refine ⟨?_, ?_, ?_, ?_, ?_⟩
  · rintro rfl
    rw [hinit_of_answeredOk h hok]
    exact (initSlot_slotSound hw).2
  · rintro ⟨a, len, p, rfl⟩
    obtain ⟨hopen, _, s1, u, hswap, habs, rfl⟩ := hupdate_of_answeredOk h hok
    refine ⟨hopen.not_finalized, ?_⟩
    have hw1 := (swapped_soundBut hs hopen.slot (hupdateSwap_swapped hswap)).store_wf
    exact (congrArg statLife (absorbed_stat hw1 habs)).trans (statLife_mkStat _ _ _ _)
  · rintro ⟨a, rfl⟩
    obtain ⟨hopen, s1, hload, rfl⟩ := cload_of_answeredOk h hok
    refine ⟨hopen.not_finalized, ?_⟩
    exact (congrArg statLife (activate_stat (loadOrResume_ok_wf hw hload) _ a)).trans (statLife_mkStat _ _ _ _)
  · rintro ⟨a, d, rfl⟩
    obtain ⟨hopen, s1, u, hload, hdrain, rfl⟩ := hfinal_of_answeredOk h hok
    refine ⟨hopen.not_finalized, ?_⟩
    have hwu := (hfinalDrain_touches a c s1).wf (loadOrResume_ok_wf hw hload)
    rw [hdrain, Polled.state_ok] at hwu
    rw [hfinalDeliver_get hwu .stat rfl, if_pos rfl, statLife_mkStat]
  · rintro rfl
    obtain rfl | ⟨u, hpol, rfl⟩ := csave_of_answeredOk h hok
    · rfl
    · have hstat := slotGet_captureInto_stat (s := u) (by rwa [onlyPolled_store hpol]) c
      rw [onlyPolled_slotGet hpol] at hstat
      exact (congrArg statLife hstat).trans (statLife_setShv _)

/-! ## Writes that commute with polling (42_arbiter_swap R184) -/

/-- The same end of a poll or of a longer step, the state it left changed by `g`. -/
def Polled.map (g : State → State) : Polled → Polled
  | .ok s => .ok (g s)
  | .timeout s => .timeout (g s)

@[simp] theorem Polled.map_ok (g : State → State) (s : State) : (Polled.ok s).map g = .ok (g s) := rfl

@[simp] theorem Polled.map_timeout (g : State → State) (s : State) : (Polled.timeout s).map g = .timeout (g s) := rfl

theorem Polled.map_map (g h : State → State) (p : Polled) : (p.map g).map h = p.map fun s => h (g s) := by
  cases p <;> rfl

theorem Polled.map_congr {g h : State → State} {p : Polled} (e : g p.state = h p.state) : p.map g = p.map h := by
  cases p with
  | ok s => exact congrArg Polled.ok e
  | timeout s => exact congrArg Polled.timeout e

/-- A step that ends OK after `g` ended OK without it. -/
theorem Polled.of_map_ok {g : State → State} {p : Polled} {t : State} (h : p.map g = .ok t) :
    ∃ s, p = .ok s ∧ t = g s := by
  cases p with
  | ok s =>
    cases h
    exact ⟨s, rfl, rfl⟩
  | timeout s => cases h

/-- `g` reads and writes nothing that a poll touches, and changes no configuration. -/
structure PollBlind (g : State → State) : Prop where
  cfg : ∀ s, (g s).cfg = s.cfg
  value : ∀ s, flagsValue (g s) = flagsValue s
  pcnt : ∀ s, (g s).pcnt = s.pcnt
  clear : ∀ s n, { g s with pcnt := n } = g { s with pcnt := n }
  read : ∀ s n, { afterFlagsRead (g s) with pcnt := n } = g { afterFlagsRead s with pcnt := n }

theorem pollLoop_map {g : State → State} (hg : PollBlind g) (f : Flag) (k : Nat) (s : State) :
    pollLoop f k (g s) = (pollLoop f k s).map g := by
  induction k generalizing s with
  | zero => rfl
  | succ k ih =>
    simp only [pollLoop, hg.value, hg.pcnt, hg.read]
    split
    · rfl
    · exact ih _

theorem pollReady_map {g : State → State} (hg : PollBlind g) (f : Flag) (s : State) :
    pollReady f (g s) = (pollReady f s).map g :=
  calc pollReady f (g s)
      = pollLoop f s.cfg.budget (g { s with pcnt := 0#32 }) :=
        congrArg₂ (pollLoop f) (congrArg Config.budget (hg.cfg s)) (hg.clear s 0#32)
    _ = (pollReady f s).map g := pollLoop_map hg f _ _

theorem answered_pollBlind (h : Word) (p : List Word) : PollBlind (answered h p) where
  cfg := fun _ => rfl
  value := fun _ => rfl
  pcnt := fun _ => rfl
  clear := fun _ _ => rfl
  read := fun s n => by
    unfold afterFlagsRead answered
    cases s.flagSamples <;> rfl

theorem slotPut_pollBlind (c : BitVec 8) (f : Field) (v : Word) : PollBlind fun s => s.slotPut c f v where
  cfg := fun _ => rfl
  value := fun _ => rfl
  pcnt := fun _ => rfl
  clear := fun _ _ => rfl
  read := fun s n => by
    unfold afterFlagsRead State.slotPut
    cases s.flagSamples <;> rfl

/-! ## Writes to slot fields commute (20_memory R71, R72) -/

theorem slotPut_comm {s : State} (hw : Store.wf s.store) {x y : BitVec 8} {f g : Field} (hf : f.valid s.cfg)
    (hg : g.valid s.cfg) (hne : x ≠ y ∨ f ≠ g) (v w : Word) :
    (s.slotPut x f v).slotPut y g w = (s.slotPut y g w).slotPut x f v := by
  have haddr : fieldAddr s.cfg x f ≠ fieldAddr s.cfg y g := fun heq => by
    obtain ⟨hxy, hfg⟩ := fieldAddr_inj hf hg heq
    exact hne.elim (fun h => h hxy) (fun h => h hfg)
  simp only [State.slotPut, Store.write_comm hw haddr]

theorem slotPut_slotPut {s : State} (hw : Store.wf s.store) (c : BitVec 8) (f : Field) (v w : Word) :
    (s.slotPut c f v).slotPut c f w = s.slotPut c f w := by
  simp only [State.slotPut, Store.write_write hw]

/-- A write outside a run of words commutes with writing the run. -/
theorem Store.writeAll_write_comm {m : Store} (hm : Store.wf m) {x a : Nat} {ws : List Word}
    (hx : x < a ∨ a + ws.length ≤ x) (v : Word) :
    Store.writeAll (Store.write m x v) a ws = Store.write (Store.writeAll m a ws) x v := by
  induction ws generalizing m a with
  | nil => rfl
  | cons w ws ih =>
    rw [List.length_cons] at hx
    simp only [Store.writeAll]
    rw [Store.write_comm hm (by omega)]
    exact ih (Store.write_wf hm a w) (by omega)

theorem slotFill_slotPut_comm {s : State} (hw : Store.wf s.store) {o c : BitVec 8} (hne : c ≠ o) {f : Field}
    (hf : f.valid s.cfg) (v : Word) {ws : List Word} (hlen : ws.length ≤ s.cfg.slotWords) :
    (s.slotPut c f v).slotFill o ws = (s.slotFill o ws).slotPut c f v := by
  have haddr : fieldAddr s.cfg c f < slotAddr s.cfg o ∨ slotAddr s.cfg o + ws.length ≤ fieldAddr s.cfg c f := by
    by_contra hcon
    have := slot_disjoint (c := s.cfg) hne (offset_lt hf) (k := fieldAddr s.cfg c f - slotAddr s.cfg o) (by omega)
    unfold fieldAddr at *
    omega
  simp only [State.slotPut, State.slotFill, Store.writeAll_write_comm hw haddr]

/-! ## Writes to the slot to be loaded commute with the load (42_arbiter_swap R185, R186) -/

/-- A capture of another slot does not see a write to slot `c`. -/
theorem captureInto_slotPut {s : State} (hw : Store.wf s.store) {o c : BitVec 8} (hne : c ≠ o) {f : Field}
    (hf : f.valid s.cfg) (v : Word) : captureInto o (s.slotPut c f v) = (captureInto o s).slotPut c f v := by
  obtain ⟨r, hr⟩ : ∃ r, stageRegisters s = r := ⟨_, rfl⟩
  have hwr : Store.wf r.store := hr ▸ hw
  have hfr : f.valid r.cfg := hr ▸ hf
  have hstage : stageRegisters (s.slotPut c f v) = r.slotPut c f v := hr ▸ rfl
  have hlen : (r.stg.words r.cfg).length ≤ r.cfg.slotWords := by
    rw [words_length, contextWords_eq, slotWords_eq]
    omega
  have hwfill := slotFill_wf hwr o (r.stg.words r.cfg)
  unfold captureInto commitCapture
  rw [hstage, hr]
  simp only [slotPut_stg, slotPut_cfg]
  rw [slotFill_slotPut_comm hwr hne hfr v hlen,
    slotGet_slotPut hwfill (y := o) (g := .stat) hfr trivial, if_neg (fun h => hne h.1.symm),
    slotPut_comm hwfill (f := f) (g := .stat) hfr trivial (.inl hne)]

theorem evictOwner_slotPut {s : State} (hw : Store.wf s.store) {c : BitVec 8} (ho : s.owner ≠ some c) {f : Field}
    (hf : f.valid s.cfg) (v : Word) : evictOwner (s.slotPut c f v) = (evictOwner s).slotPut c f v := by
  cases howner : s.owner with
  | none => rw [evictOwner_none howner, evictOwner_none (s := s.slotPut c f v) howner]
  | some o =>
    have hne : c ≠ o := by
      rintro rfl
      exact ho howner
    rw [evictOwner_some howner, evictOwner_some (s := s.slotPut c f v) howner, captureInto_slotPut hw hne hf]

/-- Bringing a slot in reads its SHV and its shadow, and no other field of it. -/
theorem bringIn_slotPut {s : State} (hw : Store.wf s.store) {c : BitVec 8} {f : Field} (hf : f.isWord = true) {v : Word}
    (hshv : f = .stat → statShv v = statShv (s.slotGet c .stat)) (a : BitVec 4) :
    bringIn c a (s.slotPut c f v) = (bringIn c a s).slotPut c f v := by
  have hstat : statShv ((s.slotPut c f v).slotGet c .stat) = statShv (s.slotGet c .stat) := by
    rw [slotPut_get hw c hf v .stat rfl]
    split
    · rename_i hfs
      exact hshv hfs.symm
    · rfl
  have hshadow : (s.slotPut c f v).shadow c = s.shadow c := shadow_eq_of_read rfl (shadowKept_slotPut hw c hf v)
  unfold bringIn
  rw [hstat]
  cases statShv (s.slotGet c .stat) with
  | false => rfl
  | true =>
    simp only [if_true, restoreFrom, restoreWrites_eq, hshadow]
    rfl

/-- LoadOrResume commutes with what its poll and its swap commute with. -/
theorem loadOrResume_map {g : State → State} (hg : PollBlind g) {c : BitVec 8} {a : BitVec 4} {s : State}
    (howner : (g s).owner = s.owner)
    (hswap : ∀ u, onlyPolled s u → s.owner ≠ some c → bringIn c a (evictOwner (g u)) = g (bringIn c a (evictOwner u))) :
    loadOrResume c a (g s) = (loadOrResume c a s).map g := by
  unfold loadOrResume
  rw [howner]
  by_cases ho : s.owner = some c
  · simp only [ho, if_true, Polled.map_ok]
  · rw [if_neg ho, if_neg ho, pollReady_map hg]
    cases hpoll : pollReady .ready s with
    | ok u => exact congrArg Polled.ok (hswap u (pollReady_ok hpoll) ho)
    | timeout u => rfl

theorem loadOrResume_answered (c : BitVec 8) (a : BitVec 4) (s : State) (h : Word) (p : List Word) :
    loadOrResume c a (answered h p s) = (loadOrResume c a s).map (answered h p) := by
  refine loadOrResume_map (answered_pollBlind h p) rfl fun u _ _ => ?_
  have hevict : evictOwner (answered h p u) = answered h p (evictOwner u) := by
    unfold evictOwner
    rw [answered_owner]
    cases u.owner <;> rfl
  rw [hevict]
  generalize evictOwner u = w
  unfold bringIn
  rw [slotGet_congr (answered_store w h p) (answered_cfg w h p)]
  cases statShv (w.slotGet c .stat) <;> rfl

/-- A write to a field of the slot that is loaded, its SHV and its shadow left alone, may as well be made after the load
(41_session_lifecycle R156). -/
theorem loadOrResume_slotPut {c : BitVec 8} {a : BitVec 4} {s : State} (hw : Store.wf s.store) {f : Field}
    (hf : f.isWord = true) {v : Word} (hshv : f = .stat → statShv v = statShv (s.slotGet c .stat)) :
    loadOrResume c a (s.slotPut c f v) = (loadOrResume c a s).map fun t => t.slotPut c f v := by
  refine loadOrResume_map (slotPut_pollBlind c f v) rfl fun u hpol ho => ?_
  have hwu : Store.wf u.store := by rwa [onlyPolled_store hpol]
  have hou : u.owner ≠ some c := by rwa [onlyPolled_owner hpol]
  have hstat : (evictOwner u).slotGet c .stat = s.slotGet c .stat := by
    rw [← onlyPolled_slotGet hpol]
    cases howner : u.owner with
    | none => rw [evictOwner_none howner]
    | some o =>
      rw [evictOwner_some howner]
      refine touches_slotGet (captureInto_touches o u) hwu ?_ (f := .stat) trivial
      rintro rfl
      exact hou howner
  rw [evictOwner_slotPut hwu hou (Field.valid_of_isWord hf _)]
  exact bringIn_slotPut (evictOwner_wf hwu) hf (by rwa [hstat]) a

/-- The three words of the buffer of slot `c` written at once (43_word_submission R210). -/
def putBuffer (c : BitVec 8) (buf bufLen loLen : Word) (s : State) : State :=
  ((s.slotPut c .buf buf).slotPut c .bufLen bufLen).slotPut c .loLen loLen

/-- Appending a byte as a write of the three words of the buffer (43_word_submission R211). -/
theorem appendByte_eq {c : BitVec 8} {s : State} (hw : Store.wf s.store) (x : Byte) :
    appendByte c x s = putBuffer c (setLane s.cfg.byteOrder (s.slotGet c .buf) (s.slotGet c .bufLen).toNat x)
      (s.slotGet c .bufLen + 1#32) (s.slotGet c .loLen + 1#32) s := by
  have hbuf := slotPut_get hw c (f := .buf) rfl
    (setLane s.cfg.byteOrder (s.slotGet c .buf) (s.slotGet c .bufLen).toNat x)
  unfold appendByte putBuffer
  simp only
  rw [slotPut_get (slotPut_wf hw _ _ _) c (f := .bufLen) rfl _ .loLen rfl, hbuf .bufLen rfl, hbuf .loLen rfl]
  rfl

theorem loadOrResume_appendByte {c : BitVec 8} {a : BitVec 4} {s : State} (hw : Store.wf s.store) (x : Byte) :
    loadOrResume c a (appendByte c x s) = (loadOrResume c a s).map (appendByte c x) := by
  have hget : ∀ f : Field, f.isWord = true → (loadOrResume c a s).state.slotGet c f = s.slotGet c f := fun f hf =>
    loadOrResume_slotGet hw (fun _ => rfl) (Field.valid_of_isWord hf s.cfg)
  have hsame : (fun t => putBuffer c (setLane s.cfg.byteOrder (s.slotGet c .buf) (s.slotGet c .bufLen).toNat x)
      (s.slotGet c .bufLen + 1#32) (s.slotGet c .loLen + 1#32) t) (loadOrResume c a s).state =
      appendByte c x (loadOrResume c a s).state := by
    rw [appendByte_eq (loadOrResume_wf hw), hget .buf rfl, hget .bufLen rfl, hget .loLen rfl, loadOrResume_cfg]
  rw [appendByte_eq hw, ← Polled.map_congr hsame]
  unfold putBuffer
  rw [loadOrResume_slotPut (f := .loLen) (slotPut_wf (slotPut_wf hw _ _ _) _ _ _) rfl (fun h => nomatch h),
    loadOrResume_slotPut (f := .bufLen) (slotPut_wf hw _ _ _) rfl (fun h => nomatch h),
    loadOrResume_slotPut (f := .buf) hw rfl (fun h => nomatch h), Polled.map_map, Polled.map_map]

theorem loadOrResume_buffered {c : BitVec 8} {a : BitVec 4} {s : State} (hw : Store.wf s.store) (xs : List Byte) :
    loadOrResume c a (buffered c xs s) = (loadOrResume c a s).map (buffered c xs) := by
  induction xs generalizing s with
  | nil => cases h : loadOrResume c a s <;> simp only [buffered, h] <;> rfl
  | cons x xs ih =>
    calc loadOrResume c a (buffered c xs (appendByte c x s))
        = (loadOrResume c a (appendByte c x s)).map (buffered c xs) := ih ((appendByte_touches c x s).wf hw)
      _ = (loadOrResume c a s).map (buffered c (x :: xs)) := by rw [loadOrResume_appendByte hw, Polled.map_map]; rfl

/-- Latching the algorithm does not change what a load reads of STAT (R155, R156). -/
theorem loadOrResume_activate {c : BitVec 8} {a : BitVec 4} {s : State} (hw : Store.wf s.store) :
    loadOrResume c a (activate c (statShv (s.slotGet c .stat)) a s) =
      (loadOrResume c a s).map (activate c (statShv (s.slotGet c .stat)) a) :=
  loadOrResume_slotPut hw rfl fun _ => statShv_mkStat _ _ _ _

/-! ## Writes that commute with absorbing bytes (R155; 43_word_submission R211 to R213) -/

/-- `g` reads and writes nothing that absorbing bytes into slot `c` touches. -/
structure AbsorbBlind (c : BitVec 8) (g : State → State) : Prop where
  poll : PollBlind g
  append : ∀ s x, Store.wf s.store → appendByte c x (g s) = g (appendByte c x s)
  submit : ∀ s, Store.wf s.store → submitted c (g s) = g (submitted c s)
  bufLen : ∀ s, Store.wf s.store → (g s).slotGet c .bufLen = s.slotGet c .bufLen

theorem absorbByte_map {c : BitVec 8} {g : State → State} (hg : AbsorbBlind c g) {s : State} (hw : Store.wf s.store)
    (x : Byte) : absorbByte c x (g s) = (absorbByte c x s).map g := by
  have hwa := (appendByte_touches c x s).wf hw
  simp only [absorbByte, hg.append s x hw, hg.bufLen _ hwa]
  split
  · rw [submitBuffer_eq, submitBuffer_eq, hg.submit _ hwa, pollReady_map hg.poll]
  · rfl

theorem absorbByte_wf {c : BitVec 8} {s : State} (hw : Store.wf s.store) (x : Byte) :
    Store.wf (absorbByte c x s).state.store := by
  have hwa := (appendByte_touches c x s).wf hw
  unfold absorbByte
  simp only
  split
  · exact (submitBuffer_touches c _).wf hwa
  · exact hwa

theorem absorbBytes_map {c : BitVec 8} {g : State → State} (hg : AbsorbBlind c g) {s : State} (hw : Store.wf s.store)
    (xs : List Byte) : absorbBytes c xs (g s) = (absorbBytes c xs s).map g := by
  induction xs generalizing s with
  | nil => rfl
  | cons x xs ih =>
    have hwx := absorbByte_wf (c := c) hw x
    simp only [absorbBytes, absorbByte_map hg hw]
    cases hbyte : absorbByte c x s with
    | ok u =>
      rw [hbyte] at hwx
      exact ih hwx
    | timeout u => rfl

theorem answered_absorbBlind (c : BitVec 8) (h : Word) (p : List Word) : AbsorbBlind c (answered h p) where
  poll := answered_pollBlind h p
  append := fun _ _ _ => rfl
  submit := fun _ _ => rfl
  bufLen := fun _ _ => rfl

theorem activate_absorbBlind (c : BitVec 8) (shv : Bool) (a : BitVec 4) : AbsorbBlind c (activate c shv a) where
  poll := slotPut_pollBlind c .stat _
  append := fun s x hw => by
    have hwa : Store.wf (activate c shv a s).store := slotPut_wf hw c .stat _
    rw [appendByte_eq hw, appendByte_eq hwa, activate_get hw shv a .buf rfl, activate_get hw shv a .bufLen rfl,
      activate_get hw shv a .loLen rfl]
    unfold activate putBuffer
    rw [slotPut_comm hw (f := .stat) (g := .buf) trivial trivial (.inr (by decide)),
      slotPut_comm (slotPut_wf hw _ _ _) (f := .stat) (g := .bufLen) trivial trivial (.inr (by decide)),
      slotPut_comm (slotPut_wf (slotPut_wf hw _ _ _) _ _ _) (f := .stat) (g := .loLen) trivial trivial
        (.inr (by decide))]
    rfl
  submit := fun s hw => by
    unfold submitted
    rw [activate_get hw shv a .buf rfl]
    unfold activate
    rw [slotPut_comm hw (f := .stat) (g := .buf) trivial trivial (.inr (by decide)),
      slotPut_comm (slotPut_wf hw _ _ _) (f := .stat) (g := .bufLen) trivial trivial (.inr (by decide))]
    rfl
  bufLen := fun s hw => activate_get hw shv a .bufLen rfl

/-- After the bytes are absorbed the algorithm is still latched, so that latching it again changes nothing (R155). -/
theorem activate_absorbed {c : BitVec 8} {shv : Bool} {a : BitVec 4} {s v : State} (hw : Store.wf s.store)
    {xs : List Byte} (h : absorbBytes c xs (activate c shv a s) = .ok v) : activate c shv a v = v := by
  have hagain := absorbBytes_map (activate_absorbBlind c shv a) ((activate_touches c shv a s).wf hw) xs
  rw [show activate c shv a (activate c shv a s) = activate c shv a s from slotPut_slotPut hw c .stat _ _, h] at hagain
  exact (Polled.ok.inj hagain).symm

/-- Absorbing two runs of bytes one after the other is absorbing them as one (R155). -/
theorem absorbBytes_append {c : BitVec 8} {s v : State} {xs : List Byte} (ys : List Byte)
    (h : absorbBytes c xs s = .ok v) : absorbBytes c (xs ++ ys) s = absorbBytes c ys v := by
  induction xs generalizing s with
  | nil =>
    cases h
    rfl
  | cons x xs ih =>
    simp only [List.cons_append, absorbBytes] at h ⊢
    split at h
    · rename_i u hu
      exact ih h
    · cases h

/-! ## Chunking (R159) -/

/-- An HUPDATE of the owner makes no swap (R156; 42_arbiter_swap R185). -/
theorem hupdateSwap_of_owner {a : BitVec 4} {c : BitVec 8} {data : List Byte} {s : State} (h : s.owner = some c) :
    hupdateSwap a c data s = .ok s := by
  simp only [hupdateSwap, loadOrResume, h, if_true, ite_self]

/-- If the first chunk completes a word, its HUPDATE makes the swap, and the second finds the slot the owner. -/
theorem hupdateSwap_append_full {a : BitVec 4} {c : BitVec 8} {shv : Bool} {d1 d2 : List Byte} {s s1 v : State}
    (hw : Store.wf s.store) (hb : (s.slotGet c .bufLen).toNat ≤ 3)
    (hfull : 4 ≤ (s.slotGet c .bufLen).toNat + d1.length) (hswap : hupdateSwap a c d1 s = .ok s1)
    (habs : absorbBytes c d1 (activate c shv a s1) = .ok v) :
    hupdateSwap a c (d1 ++ d2) s = .ok s1 ∧ hupdateSwap a c d2 (returnOk 3#4 c v) = .ok (returnOk 3#4 c v) := by
  rw [hupdateSwap_full hfull] at hswap
  have hlen : (activate c shv a s1).slotGet c .bufLen = s.slotGet c .bufLen :=
    activate_loaded_get hw hswap shv rfl (by decide)
  have A := absorbBytes_absorbed ((activate_touches c shv a s1).wf (loadOrResume_ok_wf hw hswap)) (by rwa [hlen]) habs
  refine ⟨(hupdateSwap_full (by rw [List.length_append]; omega)).trans hswap, hupdateSwap_of_owner ?_⟩
  rw [returnOk_owner, wordFrame_owner A.frame, activate_owner, loadOrResume_owner hswap]

/-- If the first chunk completes no word and the second does, the swap may as well be made before the bytes of the first
are buffered (R156). -/
theorem loadOrResume_after_short {a : BitVec 4} {c : BitVec 8} {d1 : List Byte} {s s2 : State} (hw : Store.wf s.store)
    (hshort : (s.slotGet c .bufLen).toNat + d1.length < 4)
    (hload : loadOrResume c a
      (returnOk 3#4 c (buffered c d1 (activate c (statShv (s.slotGet c .stat)) a s))) = .ok s2) :
    ∃ s1 v, loadOrResume c a s = .ok s1 ∧
      absorbBytes c d1 (activate c (statShv (s.slotGet c .stat)) a s1) = .ok v ∧ s2 = returnOk 3#4 c v := by
  rw [returnOk_eq_answered, loadOrResume_answered, loadOrResume_buffered ((activate_touches _ _ _ _).wf hw),
    loadOrResume_activate hw, Polled.map_map, Polled.map_map] at hload
  obtain ⟨s1, hs1, rfl⟩ := Polled.of_map_ok hload
  have hlen := activate_loaded_get hw hs1 (statShv (s.slotGet c .stat)) (g := .bufLen) rfl (by decide)
  exact ⟨s1, _, hs1,
    absorbBytes_short ((activate_touches c _ a s1).wf (loadOrResume_ok_wf hw hs1)) (by rwa [hlen]), rfl⟩

/-- The swap of an HUPDATE of both chunks leaves what the swaps of the two HUPDATEs leave, the first chunk absorbed. -/
theorem hupdateSwap_append {a : BitVec 4} {c : BitVec 8} {d1 d2 : List Byte} {s s1 v s2 : State}
    (hw : Store.wf s.store) (hb : (s.slotGet c .bufLen).toNat ≤ 3)
    (hswap1 : hupdateSwap a c d1 s = .ok s1)
    (habs1 : absorbBytes c d1 (activate c (statShv (s.slotGet c .stat)) a s1) = .ok v)
    (hswap2 : hupdateSwap a c d2 (returnOk 3#4 c v) = .ok s2) :
    ∃ s1' v', hupdateSwap a c (d1 ++ d2) s = .ok s1' ∧
      absorbBytes c d1 (activate c (statShv (s.slotGet c .stat)) a s1') = .ok v' ∧ s2 = returnOk 3#4 c v' := by
  by_cases hfull : 4 ≤ (s.slotGet c .bufLen).toNat + d1.length
  · obtain ⟨hboth, hresume⟩ := hupdateSwap_append_full (d2 := d2) hw hb hfull hswap1 habs1
    rw [hresume] at hswap2
    cases hswap2
    exact ⟨s1, v, hboth, habs1, rfl⟩
  have hshort : (s.slotGet c .bufLen).toNat + d1.length < 4 := by omega
  rw [hupdateSwap_short hshort] at hswap1
  cases hswap1
  have hwa := (activate_touches c (statShv (s.slotGet c .stat)) a s).wf hw
  have hlen : (activate c (statShv (s.slotGet c .stat)) a s).slotGet c .bufLen = s.slotGet c .bufLen :=
    activate_get hw _ a .bufLen rfl
  have A := absorbBytes_absorbed hwa (by rwa [hlen]) habs1
  have hvlen : ((returnOk 3#4 c v).slotGet c .bufLen).toNat = (s.slotGet c .bufLen).toNat + d1.length := by
    have hmod := A.bufLen
    rw [List.length_append, pendingBytes_length (by rwa [hlen]), hlen, Nat.mod_eq_of_lt hshort] at hmod
    exact hmod
  have hcount : ((returnOk 3#4 c v).slotGet c .bufLen).toNat + d2.length =
      (s.slotGet c .bufLen).toNat + (d1 ++ d2).length := by
    rw [hvlen, List.length_append, Nat.add_assoc]
  by_cases hboth : (s.slotGet c .bufLen).toNat + (d1 ++ d2).length < 4
  · rw [hupdateSwap_short (hcount ▸ hboth)] at hswap2
    cases hswap2
    exact ⟨s, v, hupdateSwap_short hboth, habs1, rfl⟩
  · have hfull2 := Nat.le_of_not_lt hboth
    rw [absorbBytes_short hwa (by rwa [hlen])] at habs1
    cases habs1
    rw [hupdateSwap_full (hcount ▸ hfull2)] at hswap2
    obtain ⟨s1', v', hload, habs, rfl⟩ := loadOrResume_after_short hw hshort hswap2
    exact ⟨s1', v', (hupdateSwap_full hfull2).trans hload, habs, rfl⟩

/-- The data phase of the second chunk, run where that of the first ended, is the rest of the data phase of both: the
response between them and the second latch of the algorithm make no difference (R155, R159). -/
theorem absorbBytes_second {a : BitVec 4} {c : BitVec 8} {shv : Bool} {d1 d2 : List Byte} {s1 v w : State}
    (hw : Store.wf s1.store) (habs1 : absorbBytes c d1 (activate c shv a s1) = .ok v)
    (habs2 : absorbBytes c d2 (activate c shv a (returnOk 3#4 c v)) = .ok w) :
    ∃ w', absorbBytes c (d1 ++ d2) (activate c shv a s1) = .ok w' ∧ w = returnOk 3#4 c w' := by
  have hwv := (absorbBytes_touches c d1 _).wf ((activate_touches c shv a s1).wf hw)
  rw [habs1, Polled.state_ok] at hwv
  have hlatched : activate c shv a (returnOk 3#4 c v) = returnOk 3#4 c v :=
    congrArg (returnOk 3#4 c) (activate_absorbed hw habs1)
  rw [hlatched, returnOk_eq_answered, absorbBytes_map (answered_absorbBlind c _ _) hwv] at habs2
  obtain ⟨w', hw', rfl⟩ := Polled.of_map_ok habs2
  exact ⟨w', (absorbBytes_append d2 habs1).trans hw', rfl⟩

/-- Settles O30: the swaps come to one, the second latch to nothing, and the bytes are absorbed in the same order. -/
theorem chunkingIndependence : Obligations.ChunkingIndependence := by
  intro a c len₁ len₂ len p₁ p₂ p s t u hs hdata h1 hresp1 h2 hresp2
  obtain ⟨hopen, hb, s1, v, hswap1, habs1, rfl⟩ := hupdate_of_answeredOk h1 ⟨_, _, hresp1⟩
  obtain ⟨_, _, s2, w, hswap2, habs2, rfl⟩ := hupdate_of_answeredOk h2 ⟨_, _, hresp2⟩
  have hcfg : (returnOk 3#4 c v).cfg = s.cfg := exec_cfg h1
  have hw : ∀ {x data}, hupdateSwap a c data s = .ok x → Store.wf x.store := fun hx =>
    (swapped_soundBut hs hopen.slot (hupdateSwap_swapped hx)).store_wf
  have hshv : statShv ((returnOk 3#4 c v).slotGet c .stat) = statShv (s.slotGet c .stat) :=
    (congrArg statShv (absorbed_stat (hw hswap1) habs1)).trans (statShv_mkStat _ _ _ _)
  rw [hcfg] at hswap2 habs2
  rw [hshv] at habs2
  obtain ⟨s1', v', hswap, habs, rfl⟩ := hupdateSwap_append hs.store_wf hb hswap1 habs1 hswap2
  obtain ⟨w', hall, rfl⟩ := absorbBytes_second (hw hswap) habs habs2
  have hresponses : v.responses = w'.responses :=
    (hupdate_responses (hupdateSwap_swapped hswap1) (congrArg Polled.state habs1)).trans
      (hupdate_responses (hupdateSwap_swapped hswap) (congrArg Polled.state hall)).symm
  rw [exec_hupdate (ownerExists_of_sound hs) hopen hb, hdata, hupdateRun_of_ok hswap hall, returnOk_responses,
    hresponses]
  rfl

end Sys2Proof.Machine

/-! PROOFS. 42_arbiter_swap: the bounded poll (R183, R184), the capture and the swap (R185, R186, R195), CLOAD and
CSAVE (R188 to R192), and that a session swapped out comes back as it was (R193). -/

namespace Sys2Proof.Machine

/-! ## The poll (R184) -/

/-- `s` after reads of P.FLAGS that gave the samples `zs`, with the samples `later` still to come. -/
def sampled (zs later : List Word) (s : State) : State :=
  { s with
    pcnt := s.pcnt + BitVec.ofNat 32 zs.length
    flagSamples := later
    portLog := (zs.map (PortAccess.read .flags)).reverse ++ s.portLog }

theorem sampled_nil {s : State} {later : List Word} (h : s.flagSamples = later) : sampled [] later s = s := by
  subst h
  simp [sampled]

/-- Reads one after the other are reads of the joined samples. -/
theorem sampled_sampled (xs ys mid later : List Word) (s : State) :
    sampled ys later (sampled xs mid s) = sampled (xs ++ ys) later s := by
  simp [sampled, BitVec.ofNat_add, BitVec.add_assoc]

/-- One round of the loop takes the next sample and ends if its flag is set (R184). -/
theorem pollLoop_cons {f : Flag} {s : State} {v : Word} {vs : List Word} (h : s.flagSamples = v :: vs) (k : Nat) :
    pollLoop f (k + 1) s = if f.isSet v then .ok (sampled [v] vs s) else pollLoop f k (sampled [v] vs s) := by
  simp only [pollLoop, flagsValue, afterFlagsRead, h]
  rfl

/-- Samples without the flag each cost one round of the loop. -/
theorem pollLoop_clear {f : Flag} {clear later : List Word} (hclear : ∀ z ∈ clear, f.isSet z = false) (k : Nat)
    {s : State} (h : s.flagSamples = clear ++ later) :
    pollLoop f (clear.length + k) s = pollLoop f k (sampled clear later s) := by
  induction clear generalizing s with
  | nil =>
    have hnil : sampled [] later s = s := sampled_nil h
    rw [hnil, List.length_nil, Nat.zero_add]
  | cons z zs ih =>
    have hz : f.isSet z = false := hclear z (by simp)
    calc pollLoop f ((z :: zs).length + k) s
        = pollLoop f (zs.length + k + 1) s := by rw [List.length_cons, Nat.add_right_comm]
      _ = pollLoop f (zs.length + k) (sampled [z] (zs ++ later) s) := by
        rw [pollLoop_cons h, hz]
        rfl
      _ = pollLoop f k (sampled (z :: zs) later s) := by
        rw [ih (fun y hy => hclear y (by simp [hy])) rfl, sampled_sampled]
        rfl

/-- A poll whose first samples are clear goes on behind them with what is left of the budget. -/
theorem pollReady_clear {f : Flag} {clear later : List Word} (hclear : ∀ z ∈ clear, f.isSet z = false) {k : Nat}
    {s : State} (h : s.flagSamples = clear ++ later) (hk : s.cfg.budget = clear.length + k) :
    pollReady f s = pollLoop f k (sampled clear later { s with pcnt := 0#32 }) := by
  rw [pollReady, hk]
  exact pollLoop_clear (s := { s with pcnt := 0#32 }) hclear k h

/-- Settles O21: the clear samples cost a round each, and then the flag is seen or the budget is spent. -/
theorem pollSamplesAtMostTheBudget : Obligations.PollSamplesAtMostTheBudget := by
  intro f s clear later hclear
  refine ⟨fun v hs hv hlt => ?_, fun hs hlen => ?_⟩
  · obtain ⟨k, hk⟩ : ∃ k, s.cfg.budget = clear.length + (k + 1) := ⟨s.cfg.budget - clear.length - 1, by omega⟩
    rw [pollReady_clear hclear hs hk, pollLoop_cons rfl, if_pos hv, sampled_sampled]
    simp [sampled]
  · rw [pollReady_clear (k := 0) hclear hs hlen.symm]
    simp [pollLoop, sampled, hlen, Config.budget]

/-! ## How often a command polls (R183) -/

theorem flagReads_append (l m : List PortAccess) : flagReads (l ++ m) = flagReads l + flagReads m := by
  induction l with
  | nil => simp [flagReads]
  | cons x l ih =>
    cases x with
    | read r v => cases r <;> simp [flagReads, ih, Nat.add_right_comm]
    | write r v => exact ih

theorem flagReads_of_flags {l : List PortAccess} (h : ∀ x ∈ l, ∃ v, x = .read .flags v) : flagReads l = l.length := by
  induction l with
  | nil => rfl
  | cons x l ih =>
    obtain ⟨v, rfl⟩ := h x (by simp)
    rw [flagReads, ih fun y hy => h y (by simp [hy]), List.length_cons]

/-- Accesses of other registers are no reads of P.FLAGS. -/
theorem flagReads_of_others {l : List PortAccess} (h : ∀ v, PortAccess.read .flags v ∉ l) : flagReads l = 0 := by
  induction l with
  | nil => rfl
  | cons x l ih =>
    have hl := ih fun v hv => h v (by simp [hv])
    cases x with
    | write r v => exact hl
    | read r v =>
      cases r with
      | flags => exact absurd (by simp) (h v)
      | ctx r => exact hl
      | res j => exact hl

/-- From `s` to `t` the port log grows by no more reads of P.FLAGS than `n` polls make (R183, R184). -/
structure PollsAtMost (n : Nat) (s t : State) : Prop where
  cfg : t.cfg = s.cfg
  log : ∃ log, t.portLog = log ++ s.portLog ∧ flagReads log ≤ n * s.cfg.budget

theorem pollsAtMost_of_others {s t : State} {log : List PortAccess} (hcfg : t.cfg = s.cfg)
    (hlog : t.portLog = log ++ s.portLog) (h : ∀ v, PortAccess.read .flags v ∉ log) : PollsAtMost 0 s t :=
  ⟨hcfg, log, hlog, by rw [flagReads_of_others h]; omega⟩

theorem pollsAtMost_of_same {s t : State} (hcfg : t.cfg = s.cfg) (hlog : t.portLog = s.portLog) : PollsAtMost 0 s t :=
  pollsAtMost_of_others (log := []) hcfg hlog (by simp)

theorem pollsAtMost_mono {m n : Nat} {s t : State} (h : PollsAtMost m s t) (hmn : m ≤ n) : PollsAtMost n s t := by
  obtain ⟨log, hlog, hle⟩ := h.log
  exact ⟨h.cfg, log, hlog, hle.trans (Nat.mul_le_mul_right _ hmn)⟩

theorem pollsAtMost_trans {m n : Nat} {s t u : State} (h1 : PollsAtMost m s t) (h2 : PollsAtMost n t u) :
    PollsAtMost (m + n) s u := by
  obtain ⟨l1, hl1, hle1⟩ := h1.log
  obtain ⟨l2, hl2, hle2⟩ := h2.log
  refine ⟨h2.cfg.trans h1.cfg, l2 ++ l1, by rw [hl2, hl1, List.append_assoc], ?_⟩
  rw [h1.cfg] at hle2
  rw [flagReads_append, Nat.add_mul]
  omega

/-- What only answers, or only writes the store, does not poll. -/
theorem pollsAtMost_then_same {n : Nat} {s t u : State} (h : PollsAtMost n s t) (hcfg : u.cfg = t.cfg)
    (hlog : u.portLog = t.portLog) : PollsAtMost n s u :=
  pollsAtMost_trans h (pollsAtMost_of_same hcfg hlog)

theorem pollReady_pollsAtMost (f : Flag) (s : State) : PollsAtMost 1 s (pollReady f s).state := by
  obtain ⟨flags, hlog, hflags, hle, _⟩ := pollReady_log f s
  exact ⟨onlyPolled_cfg (pollReady_onlyPolled f s), flags, hlog, by rw [flagReads_of_flags hflags]; omega⟩

theorem flags_not_mem_contextReads (rs : List CtxReg) (vs : List Word) (v : Word) :
    PortAccess.read .flags v ∉ List.zipWith (fun r w => PortAccess.read (.ctx r) w) rs vs := by
  simp [← List.map_uncurry_zip_eq_zipWith]

theorem flags_not_mem_contextWrites (rs : List CtxReg) (vs : List Word) (v : Word) :
    PortAccess.read .flags v ∉ List.zipWith (fun r w => PortAccess.write (.ctx r) w) rs vs := by
  simp [← List.map_uncurry_zip_eq_zipWith]

theorem captureInto_pollsAtMost (t : BitVec 8) (s : State) : PollsAtMost 0 s (captureInto t s) :=
  pollsAtMost_of_others (captureInto_cfg s t) (captureInto_portLog s t) fun v => by
    simpa [captureReads] using flags_not_mem_contextReads _ _ v

theorem evictOwner_pollsAtMost (s : State) : PollsAtMost 0 s (evictOwner s) := by
  cases ho : s.owner with
  | none => rw [evictOwner_none ho]; exact pollsAtMost_of_same rfl rfl
  | some o => rw [evictOwner_some ho]; exact captureInto_pollsAtMost o s

theorem bringIn_pollsAtMost (c : BitVec 8) (a : BitVec 4) (s : State) : PollsAtMost 0 s (bringIn c a s) := by
  refine pollsAtMost_of_others (bringIn_cfg s c a) (bringIn_log c a s) fun v => ?_
  split
  · simpa using flags_not_mem_contextWrites _ _ v
  · simp

/-- LoadOrResume makes the idle check at most (R185). -/
theorem loadOrResume_pollsAtMost (c : BitVec 8) (a : BitVec 4) (s : State) :
    PollsAtMost 1 s (loadOrResume c a s).state := by
  have hpoll := pollReady_pollsAtMost .ready s
  obtain ⟨_, heq⟩ | ⟨_, u, hp, _, heq⟩ | ⟨_, u, hp, _, heq⟩ := loadOrResume_cases c a s <;> rw [heq]
  · exact pollsAtMost_mono (pollsAtMost_of_same rfl rfl) (by omega)
  all_goals rw [hp, Polled.state] at hpoll
  · exact hpoll
  · exact pollsAtMost_trans hpoll (pollsAtMost_trans (evictOwner_pollsAtMost u) (bringIn_pollsAtMost c a _))

theorem submitted_pollsAtMost (c : BitVec 8) (s : State) : PollsAtMost 0 s (submitted c s) :=
  pollsAtMost_of_others (log := [.write .din (s.slotGet c .buf)]) (submitted_cfg c s) rfl (by simp)

theorem submitBuffer_pollsAtMost (c : BitVec 8) (s : State) : PollsAtMost 1 s (submitBuffer c s).state := by
  have h := pollsAtMost_trans (submitted_pollsAtMost c s) (pollReady_pollsAtMost .ready (submitted c s))
  rwa [Nat.zero_add] at h

/-- Absorbing bytes makes one poll for each word completed (41_session_lifecycle R155). -/
theorem absorbBytes_pollsAtMost {c : BitVec 8} {s : State} (xs : List Byte) (hw : Store.wf s.store)
    (hn : (s.slotGet c .bufLen).toNat ≤ 3) :
    PollsAtMost (((s.slotGet c .bufLen).toNat + xs.length) / 4) s (absorbBytes c xs s).state := by
  induction xs generalizing s with
  | nil => exact pollsAtMost_mono (pollsAtMost_of_same rfl rfl) (Nat.zero_le _)
  | cons x xs ih =>
    have happend : PollsAtMost 0 s (appendByte c x s) := pollsAtMost_of_same rfl rfl
    have hwa := (appendByte_touches c x s).wf hw
    have hlen := appendByte_bufLen (c := c) hw x hn
    simp only [absorbBytes, absorbByte_eq hw x hn, List.length_cons]
    by_cases h3 : (s.slotGet c .bufLen).toNat = 3
    · have hsubmit := pollsAtMost_trans happend (submitBuffer_pollsAtMost c (appendByte c x s))
      have hwv := (submitBuffer_touches c (appendByte c x s)).wf hwa
      rw [if_pos h3]
      rw [submitBuffer_eq] at hsubmit hwv
      cases hpoll : pollReady .ready (submitted c (appendByte c x s)) with
      | timeout v =>
        rw [hpoll] at hsubmit
        exact pollsAtMost_mono hsubmit (by omega)
      | ok v =>
        rw [hpoll, Polled.state] at hsubmit hwv
        obtain ⟨_, hempty, _, _⟩ := submitted_get (c := c) hwa
        have hv : (v.slotGet c .bufLen).toNat = 0 := by
          rw [onlyPolled_slotGet (pollReady_ok hpoll), hempty]
          rfl
        exact pollsAtMost_mono (pollsAtMost_trans hsubmit (ih hwv (by omega))) (by omega)
    · rw [if_neg h3]
      exact pollsAtMost_mono (pollsAtMost_trans happend (ih hwa (by omega))) (by omega)

theorem swapped_wf {a : BitVec 4} {c : BitVec 8} {s s1 : State} (hw : Store.wf s.store) (h : swapped a c s s1) :
    Store.wf s1.store := by
  obtain rfl | hload := h
  · exact hw
  · exact loadOrResume_ok_wf hw hload

/-- The swap leaves the fields of the slot it brings in (R185). -/
theorem swapped_slotGet {a : BitVec 4} {c : BitVec 8} {s s1 : State} (hw : Store.wf s.store) (h : swapped a c s s1)
    {f : Field} (hf : f.valid s.cfg) : s1.slotGet c f = s.slotGet c f := by
  obtain rfl | hload := h
  · rfl
  · have hget := loadOrResume_slotGet (c := c) (y := c) (a := a) hw (fun _ => rfl) hf
    rwa [hload] at hget

theorem hupdateSwap_pollsAtMost (a : BitVec 4) (c : BitVec 8) (data : List Byte) (s : State) :
    PollsAtMost 1 s (hupdateSwap a c data s).state := by
  unfold hupdateSwap
  split
  · exact loadOrResume_pollsAtMost c a s
  · exact pollsAtMost_mono (pollsAtMost_of_same rfl rfl) (by omega)

theorem hupdateRun_pollsAtMost {a : BitVec 4} {c : BitVec 8} {s : State} (data : List Byte) (hw : Store.wf s.store)
    (hb : (s.slotGet c .bufLen).toNat ≤ 3) :
    PollsAtMost (1 + ((s.slotGet c .bufLen).toNat + data.length) / 4) s (hupdateRun a c data s) := by
  have hswap := hupdateSwap_pollsAtMost a c data s
  unfold hupdateRun
  cases hs1 : hupdateSwap a c data s with
  | timeout u =>
    rw [hs1] at hswap
    exact pollsAtMost_mono (pollsAtMost_then_same (t := u) hswap rfl rfl) (by omega)
  | ok s1 =>
    rw [hs1, Polled.state] at hswap
    have hw1 := swapped_wf hw (hupdateSwap_swapped hs1)
    have hlen : (activate c (statShv (s.slotGet c .stat)) a s1).slotGet c .bufLen = s.slotGet c .bufLen :=
      (activate_get hw1 _ a .bufLen rfl).trans (swapped_slotGet hw (hupdateSwap_swapped hs1) (f := .bufLen) trivial)
    have hdata := absorbBytes_pollsAtMost (c := c) data
      ((activate_touches c (statShv (s.slotGet c .stat)) a s1).wf hw1) (hlen.symm ▸ hb)
    rw [hlen] at hdata
    have hall := pollsAtMost_trans
      (pollsAtMost_then_same hswap (activate_cfg s1 c _ a) (activate_portLog s1 c _ a)) hdata
    simp only [hupdateBody]
    split
    all_goals
      rename_i u hu
      rw [hu, Polled.state] at hall
    · exact pollsAtMost_then_same hall rfl rfl
    · exact pollsAtMost_then_same hall (dataPhaseTimeout_cfg u 3#4 c) (dataPhaseTimeout_portLog u 3#4 c)

/-- A drain polls for the partial word, if there is one, and for the digest (41_session_lifecycle R166). -/
theorem hfinalDrain_pollsAtMost (a : BitVec 4) (c : BitVec 8) (s : State) :
    PollsAtMost 2 s (hfinalDrain a c s).state := by
  have hflush : PollsAtMost 1 s (flushPartial c s).state := by
    obtain ⟨_, heq⟩ | ⟨_, heq⟩ := flushPartial_cases c s <;> rw [heq]
    · exact pollsAtMost_mono (pollsAtMost_of_same rfl rfl) (by omega)
    · exact submitBuffer_pollsAtMost c s
  unfold hfinalDrain
  split
  · rename_i u hu
    rw [hu] at hflush
    exact pollsAtMost_mono hflush (by omega)
  · rename_i u hu
    rw [hu, Polled.state] at hflush
    have hlength : PollsAtMost 0 u (finalize a (u.slotGet c .loLen) u) :=
      pollsAtMost_of_others (log := [.write .lencfg _]) rfl rfl (by simp)
    exact pollsAtMost_trans (pollsAtMost_trans hflush hlength) (pollReady_pollsAtMost .dready _)

theorem hfinalDeliver_pollsAtMost (a : BitVec 4) (c d : BitVec 8) (s : State) :
    PollsAtMost 0 s (hfinalDeliver a c d s) :=
  pollsAtMost_of_others (log := (resultReads s (digestWords d)).reverse) rfl rfl (by simp [resultReads])

theorem hfinalRun_pollsAtMost (a : BitVec 4) (c d : BitVec 8) (s : State) : PollsAtMost 3 s (hfinalRun a c d s) := by
  have hload := loadOrResume_pollsAtMost c a s
  unfold hfinalRun
  cases hs1 : loadOrResume c a s with
  | timeout u =>
    rw [hs1] at hload
    exact pollsAtMost_mono (pollsAtMost_then_same (t := u) hload rfl rfl) (by omega)
  | ok s1 =>
    rw [hs1, Polled.state] at hload
    have hdrain := pollsAtMost_trans hload (hfinalDrain_pollsAtMost a c s1)
    simp only
    split
    all_goals
      rename_i u hu
      rw [hu, Polled.state] at hdrain
    · exact pollsAtMost_then_same hdrain (dataPhaseTimeout_cfg u 4#4 c) (dataPhaseTimeout_portLog u 4#4 c)
    · exact pollsAtMost_trans hdrain (hfinalDeliver_pollsAtMost a c d u)

theorem cloadRun_pollsAtMost (a : BitVec 4) (c : BitVec 8) (s : State) : PollsAtMost 1 s (cloadRun a c s) := by
  have hload := loadOrResume_pollsAtMost c a s
  unfold cloadRun
  split
  all_goals
    rename_i u hu
    rw [hu] at hload
    exact pollsAtMost_then_same (t := u) hload rfl rfl

theorem csaveRun_pollsAtMost (c : BitVec 8) (s : State) : PollsAtMost 1 s (csaveRun c s) := by
  have hpoll := pollReady_pollsAtMost .ready s
  unfold csaveRun
  split
  · split
    all_goals
      rename_i u hu
      rw [hu, Polled.state] at hpoll
    · exact pollsAtMost_then_same hpoll rfl rfl
    · exact pollsAtMost_then_same (pollsAtMost_trans hpoll (captureInto_pollsAtMost c u)) rfl rfl
  · exact pollsAtMost_mono (pollsAtMost_of_same rfl rfl) (by omega)

theorem ainitRun_pollsAtMost (f : BitVec 4) (k : BitVec 8) (b : Blocks) (s : State) :
    PollsAtMost 1 s (ainitRun f k b s) := by
  have hpoll := pollReady_pollsAtMost .ready s
  unfold ainitRun
  obtain ⟨_, heq⟩ | ⟨o, u, _, hp, _, heq⟩ | ⟨o, u, _, hp, _, heq⟩ := evictForCipher_cases s <;> rw [heq]
  · exact pollsAtMost_mono (pollsAtMost_of_same rfl rfl) (by omega)
  all_goals rw [hp, Polled.state] at hpoll
  · exact pollsAtMost_then_same hpoll rfl rfl
  · exact pollsAtMost_then_same (pollsAtMost_trans hpoll (captureInto_pollsAtMost o u)) rfl rfl

/-- A command makes at most the polls of R183. -/
theorem exec_pollsAtMost {i : Instr} {s t : State} (hw : Store.wf s.store) (h : exec i s = .next t) :
    PollsAtMost (pollBound s i) s t := by
  have hraise : ∀ (o : BitVec 4) (c : BitVec 8) (st : Status), PollsAtMost (pollBound s i) s (raise o c st s) :=
    fun _ _ _ => pollsAtMost_mono (pollsAtMost_of_same rfl rfl) (Nat.zero_le _)
  cases i with
  | detect =>
    cases h
    exact pollsAtMost_of_same rfl rfl
  | hinit c =>
    obtain ⟨_, rfl⟩ | ⟨_, rfl⟩ := exec_hinit_next h
    · exact hraise _ _ _
    · exact pollsAtMost_of_same (initSlot_cfg s c) (initSlot_portLog s c)
  | hupdate a c len payload =>
    obtain ⟨st, _, rfl⟩ | ⟨_, hb, _, rfl⟩ := exec_hupdate_next h
    · exact hraise _ _ _
    · exact hupdateRun_pollsAtMost _ hw hb
  | hfinal a c d =>
    obtain ⟨st, _, rfl⟩ | ⟨_, _, _, _, rfl⟩ := exec_hfinal_next h
    · exact hraise _ _ _
    · exact hfinalRun_pollsAtMost a c d s
  | cload a c =>
    obtain ⟨st, _, rfl⟩ | ⟨_, _, rfl⟩ := exec_cload_next h
    · exact hraise _ _ _
    · exact cloadRun_pollsAtMost a c s
  | csave c =>
    obtain ⟨_, rfl⟩ | ⟨_, rfl⟩ := exec_csave_next h
    · exact hraise _ _ _
    · exact csaveRun_pollsAtMost c s
  | ainit f k b =>
    obtain ⟨st, _, rfl⟩ | ⟨_, _, rfl⟩ := exec_ainit_next h
    · exact hraise _ _ _
    · exact ainitRun_pollsAtMost f k b s

/-- Settles O22: the polls of each command are counted by `pollBound`, and a poll reads at most T samples. -/
theorem pollingIsBounded : Obligations.PollingIsBounded := fun _ _ _ hw h => (exec_pollsAtMost hw h).log

/-! ## The capture (R186) -/

/-- SHV is bit 2 of STAT, and a capture sets no other (R186; 10_state R48). -/
theorem getLsbD_setShv (st : Word) {b : Nat} (hb : b ≠ 2) : (statSetShv st).getLsbD b = st.getLsbD b := by
  have hbit : (4#32).getLsbD b = false := by
    rw [show 4#32 = BitVec.twoPow 32 2 from rfl, BitVec.getLsbD_twoPow]
    simp [hb.symm]
  rw [statSetShv, BitVec.getLsbD_or, hbit, Bool.or_false]

theorem captureInto_stg_eq {s : State} (ha : s.periph.pr.acc.length = s.cfg.accWords) (t : BitVec 8) :
    (captureInto t s).stg = s.periph.pr := by
  rw [captureInto_stg, ofWords_words ha]

/-- A capture after a poll saves what was live before it (R184, R186). -/
theorem captured_captureInto {c : BitVec 8} {s u : State} (hw : Store.wf s.store)
    (ha : s.periph.pr.acc.length = s.cfg.accWords) (hpol : onlyPolled s u) : captured c s (captureInto c u) := by
  have hwu : Store.wf u.store := by rwa [onlyPolled_store hpol]
  have hau : u.periph.pr.acc.length = u.cfg.accWords := by rwa [onlyPolled_periph hpol, onlyPolled_cfg hpol]
  have hget := onlyPolled_slotGet hpol c
  refine ⟨(captureInto_shadow hwu hau c).trans (congrArg Periph.pr (onlyPolled_periph hpol)), ?_, ?_, ?_, ?_⟩
  · rw [slotGet_captureInto_stat hwu, hget]
  · rw [slotGet_captureInto_word hwu c (.inl rfl), hget]
  · rw [slotGet_captureInto_word hwu c (.inr (.inl rfl)), hget]
  · rw [slotGet_captureInto_word hwu c (.inr (.inr rfl)), hget]

/-- Settles O37: the words of the slot after a capture are those of `read_captureInto_same`, and the rest is not
written. -/
theorem captureSavesTheLiveRegisters : Obligations.CaptureSavesTheLiveRegisters := by
  intro t s hw ha
  have hstat := slotGet_captureInto_stat hw t
  refine ⟨captureInto_shadow hw ha t, captureInto_stg_eq ha t, fun f hf => slotGet_captureInto_word hw t hf, ?_,
    fun b hb => ?_, fun x hx => captureInto_outside hw hx, rfl⟩
  · rw [hstat, statShv_setShv]
  · rw [hstat, getLsbD_setShv _ hb]

/-! ## LoadOrResume (R185) -/

theorem loadOrResume_of_owner {c : BitVec 8} {s : State} (ho : s.owner = some c) (a : BitVec 4) :
    loadOrResume c a s = .ok s := by
  rw [loadOrResume, if_pos ho]

theorem loadOrResume_of_timeout {c : BitVec 8} {s s' : State} (ho : s.owner ≠ some c)
    (hp : pollReady .ready s = .timeout s') (a : BitVec 4) : loadOrResume c a s = .timeout s' := by
  simp only [loadOrResume, if_neg ho, hp]

theorem loadOrResume_of_poll {c : BitVec 8} {s s' : State} (ho : s.owner ≠ some c)
    (hp : pollReady .ready s = .ok s') (a : BitVec 4) : loadOrResume c a s = .ok (bringIn c a (evictOwner s')) := by
  simp only [loadOrResume, if_neg ho, hp]

/-- What a load brings into the unit when the slot is not the owner (R185). -/
theorem loadedPR_of_not_owner {c : BitVec 8} {s : State} (ho : s.owner ≠ some c) (a : BitVec 4) :
    loadedPR s a c = if statShv (s.slotGet c .stat) then s.shadow c else periphStart s.cfg a :=
  if_neg ho

/-- After an OK the registers of the unit other than PR are as they were (R185). -/
theorem loadOrResume_periph {c : BitVec 8} {a : BitVec 4} {s t : State} (hw : Store.wf s.store)
    (hload : loadOrResume c a s = .ok t) : t.periph = { s.periph with pr := loadedPR s a c } := by
  have hframe := loadOrResume_frame c a s
  rw [hload, Polled.state_ok] at hframe
  rw [hframe, loadOrResume_pr hw hload]

/-- LoadOrResume writes no word of the slot it brings in (R185). -/
theorem loadOrResume_sameSlot {c : BitVec 8} {a : BitVec 4} {s t : State} (hw : Store.wf s.store)
    (hload : loadOrResume c a s = .ok t) : sameSlot c s t := fun k hk => by
  have hread := loadOrResume_read (c := c) (y := c) (a := a) hw (fun _ => rfl) hk
  rwa [hload] at hread

/-- Settles O38: the three ends of LoadOrResume, and what the last leaves of the store and the unit. -/
theorem loadOrResumeBringsTheSlotIn : Obligations.LoadOrResumeBringsTheSlotIn := by
  intro a c s s' hw ha
  refine ⟨fun ho => loadOrResume_of_owner ho a,
    fun ho hp => ⟨loadOrResume_of_timeout ho hp a, pollReady_timeout hp⟩, fun ho hp => ?_⟩
  have hload := loadOrResume_of_poll ho hp a
  refine ⟨_, hload, rfl, bringIn_prDefined _ c a, ?_, loadOrResume_sameSlot hw hload, loadOrResume_saved hw ha hload,
    loadOrResume_othersKept hw hload, pollReady_ok hp, ?_⟩
  · rw [loadOrResume_periph hw hload, loadedPR_of_not_owner ho]
  · unfold bringIn evictOwner
    split <;> split <;> rfl

/-! ## The traffic of a swap (R195; 20_memory R81) -/

theorem contextRegs_length (c : Config) : (contextRegs c).length = c.contextWords := by
  simp [contextRegs, contextWords_eq]

theorem slotGet_of_sameSlot {c : BitVec 8} {s t : State} (hcfg : t.cfg = s.cfg) (h : sameSlot c s t) {f : Field}
    (hf : f.valid s.cfg) : t.slotGet c f = s.slotGet c f := by
  unfold State.slotGet
  rw [hcfg]
  exact h _ (offset_lt hf)

theorem shadow_of_sameSlot {c : BitVec 8} {s t : State} (hcfg : t.cfg = s.cfg) (h : sameSlot c s t) :
    t.shadow c = s.shadow c :=
  shadow_eq_of_read hcfg fun k hk => h k (by rw [slotWords_eq]; rw [contextWords_eq] at hk; omega)

/-- The log of a swap: the reads of the flags, of the capture, and the writes of the load. -/
theorem loadOrResume_log {c : BitVec 8} {a : BitVec 4} {s t : State} (hw : Store.wf s.store) (ho : s.owner ≠ some c)
    (hload : loadOrResume c a s = .ok t) :
    ∃ u, pollReady .ready s = .ok u ∧ t.portLog =
      (if statShv (s.slotGet c .stat) then
        List.zipWith (fun r v => PortAccess.write (.ctx r) v) (contextRegs s.cfg) ((s.shadow c).words s.cfg)
      else [PortAccess.write .start (a.zeroExtend 32)]).reverse ++
      ((if s.owner = none then []
      else List.zipWith (fun r v => PortAccess.read (.ctx r) v) (contextRegs s.cfg)
        (s.periph.pr.words s.cfg)).reverse ++ u.portLog) := by
  obtain ⟨hown, _⟩ | ⟨_, u, hp, hpol, rfl⟩ := loadOrResume_ok hload
  · exact absurd hown ho
  have hsame := loadOrResume_sameSlot hw hload
  have hcfg : (evictOwner u).cfg = s.cfg := (evictOwner_cfg u).trans (onlyPolled_cfg hpol)
  have hkept : sameSlot c s (evictOwner u) := by rwa [sameSlot, bringIn_store] at hsame
  refine ⟨u, hp, ?_⟩
  rw [bringIn_log, evictOwner_log, slotGet_of_sameSlot hcfg hkept (f := .stat) trivial, shadow_of_sameSlot hcfg hkept,
    hcfg, onlyPolled_owner hpol, onlyPolled_cfg hpol, onlyPolled_periph hpol]

/-- Settles O41: a swap that ends OK polls once, saves the owner if there is one, and loads or starts. -/
theorem swapTraffic : Obligations.SwapTraffic := by
  intro a c s hw
  refine ⟨fun ho => loadOrResume_of_owner ho a, fun t ho hload => ?_⟩
  obtain ⟨u, hp, hlog⟩ := loadOrResume_log hw ho hload
  obtain ⟨flags, hflags, hmem, hle, hpos⟩ := pollReady_log .ready s
  rw [hp] at hflags hpos
  refine ⟨flags, _, _, ?_, hmem, hpos rfl, hle, rfl, rfl, fun hown => ?_, fun hshv => ?_⟩
  · rw [hlog, ← Polled.state_ok u, hflags]
    simp only [List.append_assoc]
  · rw [if_neg hown, List.length_zipWith, contextRegs_length, words_length, Nat.min_self, contextWords_eq]
  · rw [if_pos hshv, List.length_zipWith, contextRegs_length, words_length, Nat.min_self, contextWords_eq]

/-! ## CLOAD (R188 to R190) -/

theorem ownerExists_of_owner {s : State} {c : BitVec 8} (ho : s.owner = some c) (hc : slotExists s.cfg c = true) :
    ownerExists s := fun o hso => by
  rw [ho, Option.some.injEq] at hso
  exact hso ▸ hc

/-- A CLOAD whose swap ends OK latches the algorithm and answers (R189). -/
theorem cloadRun_of_ok {a : BitVec 4} {c : BitVec 8} {s s1 : State} (hload : loadOrResume c a s = .ok s1) :
    cloadRun a c s = returnOk 5#4 c (activate c (statShv (s.slotGet c .stat)) a s1) := by
  simp only [cloadRun, hload]

/-- Settles O39: the resume does nothing, and `activate` writes STAT. -/
theorem cloadOfTheOwnerOnlyResumes : Obligations.CloadOfTheOwnerOnlyResumes := by
  intro a c s hw hopen ho
  refine ⟨_, (exec_cload (ownerExists_of_owner ho hopen.slot) hopen).trans
    (congrArg _ (cloadRun_of_ok (loadOrResume_of_owner ho a))), activate_stat hw _ a, fun x hx => ?_, rfl⟩
  exact Store.read_write_other hw hx _

theorem evictOwner_stg {s : State} (ha : s.periph.pr.acc.length = s.cfg.accWords) :
    (evictOwner s).stg = if s.owner = none then s.stg else s.periph.pr := by
  cases ho : s.owner with
  | none => rw [evictOwner_none ho, if_pos rfl]
  | some o => rw [evictOwner_some ho, captureInto_stg_eq ha, if_neg (by simp)]

/-- Settles O40: the swap brings the slot in, and `activate` then writes its STAT alone. -/
theorem cloadSwapsTheSessionIn : Obligations.CloadSwapsTheSessionIn := by
  intro a c s s' hs hopen ho hp
  have hload := loadOrResume_of_poll ho hp a
  have hpol := pollReady_ok hp
  have L := loaded_of_ok hs hload
  have hexec := (exec_cload (ownerExists_of_sound hs) hopen).trans (congrArg _ (cloadRun_of_ok hload))
  have hstg : (bringIn c a (evictOwner s')).stg = if s.owner = none then s.stg else s.periph.pr := by
    rw [bringIn_stg, evictOwner_stg (by rw [onlyPolled_periph hpol, onlyPolled_cfg hpol]; exact hs.acc_len),
      onlyPolled_owner hpol, onlyPolled_stg hpol, onlyPolled_periph hpol]
  have hcount : (bringIn c a (evictOwner s')).pcnt = s'.pcnt ∧
      (bringIn c a (evictOwner s')).flagSamples = s'.flagSamples ∧
      (bringIn c a (evictOwner s')).draws = s'.draws := by simp
  have hsame := loadOrResume_sameSlot hs.store_wf hload
  generalize bringIn c a (evictOwner s') = s1 at L hexec hstg hcount hsame
  obtain ⟨hpcnt, hsamples, hdraws⟩ := hcount
  obtain ⟨hsaved, hothers⟩ := loaded_touches L (activate_touches c (statShv (s.slotGet c .stat)) a s1)
  refine ⟨_, hexec, L.owner, L.prDefined, ?_, activate_stat L.wf _ a, fun x hx hne => ?_, hsaved, hothers, hstg,
    L.writes, hpcnt, hsamples, hdraws, L.sessions, L.cfg, L.streams.commands, ?_⟩
  · rw [returnOk_periph, activate_periph, L.periph, loadedPR_of_not_owner ho]
  · obtain ⟨hlow, hhigh⟩ := hx
    have hread := hsame (x - slotAddr s.cfg c) (by omega)
    rw [Nat.add_sub_cancel' hlow] at hread
    exact (Store.read_write_other L.wf (by rwa [L.cfg]) _).trans hread
  · rw [returnOk_responses, activate_responses, L.streams.responses]

/-! ## CSAVE (R191, R192) -/

theorem exec_csave_missing {s : State} {c : BitVec 8} (h : slotExists s.cfg c = false) :
    exec (.csave c) s = .next (answered (responseHeader 6#4 .rejected c 0#8) [] s) := by
  simp only [exec, execCsave, h]
  rfl

theorem csaveRun_of_not_owner {c : BitVec 8} {s : State} (ho : s.owner ≠ some c) :
    csaveRun c s = returnOk 6#4 c s := by
  rw [csaveRun, if_neg ho]

theorem csaveRun_of_timeout {c : BitVec 8} {s s' : State} (ho : s.owner = some c)
    (hp : pollReady .ready s = .timeout s') : csaveRun c s = raise 6#4 c .timeout s' := by
  simp only [csaveRun, if_pos ho, hp]

theorem csaveRun_of_poll {c : BitVec 8} {s s' : State} (ho : s.owner = some c)
    (hp : pollReady .ready s = .ok s') : csaveRun c s = returnOk 6#4 c (captureInto c s') := by
  simp only [csaveRun, if_pos ho, hp]

/-- A capture writes nothing on the port (R186; 20_memory R81). -/
theorem captureInto_writes (c : BitVec 8) (s : State) :
    portWrites (captureInto c s).portLog.reverse = portWrites s.portLog.reverse := by
  rw [captureInto_portLog, List.reverse_append, List.reverse_reverse, portWrites_append, captureReads,
    portWrites_zipWith_reads, List.append_nil]

/-- Settles O42: the four ends of CSAVE, the last of them the capture of the owner. -/
theorem csaveCapturesTheOwner : Obligations.CsaveCapturesTheOwner := by
  intro c s hw ha
  refine ⟨exec_csave_missing, fun hc ho => ?_, fun s' hc ho hp => ⟨pollReady_timeout hp, ?_⟩, fun s' hc ho hp => ?_⟩
  · rw [exec_csave hc, csaveRun_of_not_owner ho, returnOk_eq_answered]
  · rw [exec_csave hc, csaveRun_of_timeout ho hp, raise_eq_answered]
  have hpol := pollReady_ok hp
  have hwu : Store.wf s'.store := by rwa [onlyPolled_store hpol]
  have hwrites := pollReady_writes .ready s
  rw [hp, Polled.state_ok] at hwrites
  obtain ⟨hshadow, hstat, hbuf, hlen, hlo⟩ := captured_captureInto (c := c) hw ha hpol
  refine ⟨_, (exec_csave hc).trans (congrArg _ (csaveRun_of_poll ho hp)), hshadow, hstat, hbuf, hlen, hlo,
    fun x hx => ?_, ?_, (captureInto_writes c s').trans hwrites, hpol, ?_⟩
  · rw [returnOk_store, captureInto_outside hwu (by rwa [inSlot, onlyPolled_cfg hpol]), onlyPolled_store hpol]
  · rw [returnOk_stg, captureInto_stg_eq (by rwa [onlyPolled_periph hpol, onlyPolled_cfg hpol]),
      onlyPolled_periph hpol]
  · rw [← onlyPolled_responses hpol]
    rfl

/-! ## Swap transparency (R193) -/

/-- The command leaves OWNER and the live registers. -/
def unitKept (s t : State) : Prop := t.owner = s.owner ∧ t.periph.pr = s.periph.pr

/-- After the command slot `x` is not in the unit, and if it was, it has been captured. -/
def swappedOut (x : BitVec 8) (s t : State) : Prop := t.owner ≠ some x ∧ (s.owner = some x → captured x s t)

/-- A command that polls, and then writes neither OWNER nor the peripheral, leaves the unit (R184). -/
theorem unitKept_of_onlyPolled {s u t : State} (hpol : onlyPolled s u) (howner : t.owner = u.owner)
    (hperiph : t.periph = u.periph) : unitKept s t :=
  ⟨howner.trans (onlyPolled_owner hpol), congrArg Periph.pr (hperiph.trans (onlyPolled_periph hpol))⟩

/-- A load of slot `c` and what its command then does to slot `c` and to the unit swap any other slot out (R185). -/
theorem swappedOut_of_load {a : BitVec 4} {c x : BitVec 8} {s s1 t : State} (hs : Sound s) (hx : x ≠ c)
    (hload : loadOrResume c a s = .ok s1) (ht : Touches c s1 t) (ho : t.owner ≠ some x) : swappedOut x s t := by
  obtain ⟨hsaved, _⟩ := loaded_touches (loaded_of_ok hs hload) ht
  exact ⟨ho, fun howner => hsaved x howner hx⟩

/-- The data phase leaves OWNER, however it ends. -/
theorem absorbBytes_owner (c : BitVec 8) (xs : List Byte) (s : State) :
    (absorbBytes c xs s).state.owner = s.owner :=
  absorbBytes_keeps (P := fun t => t.owner = s.owner) (fun _ _ h => h)
    (fun _ h => (onlyPolled_owner (pollReady_onlyPolled _ _)).trans h) xs rfl

/-- An HUPDATE that completes no word stays away from the unit (41_session_lifecycle R156). -/
theorem hupdate_short_unitKept {a : BitVec 4} {c : BitVec 8} {len : Word} {payload : List Word} {s t : State}
    (hw : Store.wf s.store) (hopen : SessionOpen s a c)
    (hshort : (s.slotGet c .bufLen).toNat + (updateData s.cfg len payload).length < 4)
    (h : exec (.hupdate a c len payload) s = .next t) : unitKept s t := by
  rw [exec_hupdate_short hw hopen hshort, buffered_frame] at h
  cases h
  exact ⟨rfl, rfl⟩

theorem hupdateRun_unitKept_or_swappedOut {a : BitVec 4} {c x : BitVec 8} {data : List Byte} {s : State}
    (hs : Sound s) (hx : x ≠ c) (hfull : 4 ≤ (s.slotGet c .bufLen).toNat + data.length) :
    unitKept s (hupdateRun a c data s) ∨ swappedOut x s (hupdateRun a c data s) := by
  cases hload : loadOrResume c a s with
  | timeout u =>
    simp only [hupdateRun, hupdateSwap_full hfull, hload]
    obtain ⟨_, _, hpol⟩ := loadOrResume_timeout hload
    exact .inl (unitKept_of_onlyPolled hpol rfl rfl)
  | ok s1 =>
    have howner := absorbBytes_owner c data (activate c (statShv (s.slotGet c .stat)) a s1)
    rw [activate_owner, loadOrResume_owner hload] at howner
    have htouch := touches_trans (activate_touches c (statShv (s.slotGet c .stat)) a s1)
      (absorbBytes_touches c data _)
    simp only [hupdateRun, hupdateSwap_full hfull, hload, hupdateBody]
    right
    split
    all_goals
      rename_i u hu
      rw [hu] at howner htouch
    · refine swappedOut_of_load hs hx hload (touches_trans htouch (touches_of_same rfl rfl)) ?_
      rw [returnOk_owner, ← Polled.state_ok u, howner, Ne, Option.some.injEq]
      exact hx.symm
    · exact swappedOut_of_load hs hx hload (touches_trans htouch (dataPhaseTimeout_touches 3#4 c u)) (by simp)

theorem hfinalRun_unitKept_or_swappedOut {a : BitVec 4} {c d x : BitVec 8} {s : State} (hs : Sound s) (hx : x ≠ c) :
    unitKept s (hfinalRun a c d s) ∨ swappedOut x s (hfinalRun a c d s) := by
  obtain ⟨u, hpol, heq⟩ | ⟨s1, u, hload, hdrain, heq⟩ | ⟨s1, u, hload, hdrain, heq⟩ := hfinalRun_cases a c d s <;>
    rw [heq]
  · exact .inl (unitKept_of_onlyPolled hpol rfl rfl)
  all_goals
    have htouch := hfinalDrain_touches a c s1
    rw [hdrain] at htouch
    right
  · exact swappedOut_of_load hs hx hload (touches_trans htouch (hfinalDeliver_touches a c d u)) nofun
  · exact swappedOut_of_load hs hx hload (touches_trans htouch (dataPhaseTimeout_touches 4#4 c u)) nofun

theorem cloadRun_unitKept_or_swappedOut {a : BitVec 4} {c x : BitVec 8} {s : State} (hs : Sound s) (hx : x ≠ c) :
    unitKept s (cloadRun a c s) ∨ swappedOut x s (cloadRun a c s) := by
  obtain ⟨u, hpol, heq⟩ | ⟨s1, hload, heq⟩ := cloadRun_cases a c s <;> rw [heq]
  · exact .inl (unitKept_of_onlyPolled hpol rfl rfl)
  · refine .inr (swappedOut_of_load hs hx hload
      (touches_trans (activate_touches c _ a s1) (touches_of_same rfl rfl)) ?_)
    rw [returnOk_owner, activate_owner, loadOrResume_owner hload, Ne, Option.some.injEq]
    exact hx.symm

/-- CSAVE leaves the unit as it is, whatever slot it names (R192). -/
theorem csaveRun_unitKept (c : BitVec 8) (s : State) : unitKept s (csaveRun c s) := by
  obtain ⟨_, heq⟩ | ⟨u, hpol, heq⟩ | ⟨u, _, hpol, heq⟩ := csaveRun_cases c s <;> rw [heq]
  · exact ⟨rfl, rfl⟩
  · exact unitKept_of_onlyPolled hpol rfl rfl
  · exact unitKept_of_onlyPolled hpol rfl rfl

theorem ainitRun_unitKept_or_swappedOut {f : BitVec 4} {k : BitVec 8} {b : Blocks} {s : State} (hs : Sound s)
    (x : BitVec 8) : unitKept s (ainitRun f k b s) ∨ swappedOut x s (ainitRun f k b s) := by
  obtain ⟨ho, heq⟩ | ⟨u, hpol, heq⟩ | ⟨o, u, ho, hpol, heq⟩ := ainitRun_cases f k b s <;> rw [heq]
  · refine .inr ⟨?_, fun howner => ?_⟩
    · rw [returnOk_owner, bindRecord, unspecifyPR_owner, ho]
      exact nofun
    · rw [ho] at howner
      cases howner
  · exact .inl (unitKept_of_onlyPolled hpol rfl rfl)
  · refine .inr ⟨nofun, fun howner => ?_⟩
    rw [ho, Option.some.injEq] at howner
    subst howner
    exact captured_captureInto hs.store_wf hs.acc_len hpol

/-- A command that does not name slot `x`, or only saves it, leaves the unit alone or swaps the slot out. -/
theorem exec_unitKept_or_swappedOut {i : Instr} {s t : State} {x : BitVec 8} (hs : Sound s) (h : exec i s = .next t)
    (hx : slotOf i ≠ some x ∨ i = .csave x) : unitKept s t ∨ swappedOut x s t := by
  have hother : ∀ {c : BitVec 8}, slotOf i = some c → i ≠ .csave x → x ≠ c := fun hc hne hxc =>
    hx.elim (fun hn => hn (hxc ▸ hc)) hne
  cases i with
  | detect =>
    cases h
    exact .inl ⟨rfl, rfl⟩
  | hinit c =>
    obtain ⟨_, rfl⟩ | ⟨_, rfl⟩ := exec_hinit_next h
    · exact .inl ⟨rfl, rfl⟩
    have hxc := hother (c := c) rfl nofun
    by_cases ho : s.owner = some c
    · rw [initSlot_of_owner ho]
      refine .inr ⟨nofun, fun howner => ?_⟩
      rw [ho, Option.some.injEq] at howner
      exact absurd howner.symm hxc
    · rw [initSlot_of_not_owner ho]
      exact .inl ⟨rfl, rfl⟩
  | hupdate a c len payload =>
    obtain ⟨st, _, rfl⟩ | ⟨hopen, _, _, hrun⟩ := exec_hupdate_next h
    · exact .inl ⟨rfl, rfl⟩
    by_cases hshort : (s.slotGet c .bufLen).toNat + (updateData s.cfg len payload).length < 4
    · exact .inl (hupdate_short_unitKept hs.store_wf hopen hshort h)
    · rw [hrun]
      exact hupdateRun_unitKept_or_swappedOut hs (hother rfl nofun) (by omega)
  | hfinal a c d =>
    obtain ⟨st, _, rfl⟩ | ⟨_, _, _, _, rfl⟩ := exec_hfinal_next h
    · exact .inl ⟨rfl, rfl⟩
    · exact hfinalRun_unitKept_or_swappedOut hs (hother rfl nofun)
  | cload a c =>
    obtain ⟨st, _, rfl⟩ | ⟨_, _, rfl⟩ := exec_cload_next h
    · exact .inl ⟨rfl, rfl⟩
    · exact cloadRun_unitKept_or_swappedOut hs (hother rfl nofun)
  | csave c =>
    obtain ⟨_, rfl⟩ | ⟨_, rfl⟩ := exec_csave_next h
    · exact .inl ⟨rfl, rfl⟩
    · exact .inl (csaveRun_unitKept c s)
  | ainit f k b =>
    obtain ⟨st, _, rfl⟩ | ⟨_, _, rfl⟩ := exec_ainit_next h
    · exact .inl ⟨rfl, rfl⟩
    · exact ainitRun_unitKept_or_swappedOut hs x

/-- A CSAVE keeps the slot it names, or captures it as the owner (R191). -/
theorem exec_csave_keptOrCaptured {c : BitVec 8} {s t : State} (hs : Sound s) (h : exec (.csave c) s = .next t) :
    keptOrCaptured c s t := by
  obtain ⟨_, rfl⟩ | ⟨_, rfl⟩ := exec_csave_next h
  · exact keptOrCaptured_of_same rfl
  obtain ⟨_, heq⟩ | ⟨u, hpol, heq⟩ | ⟨u, ho, hpol, heq⟩ := csaveRun_cases c s <;> rw [heq]
  · exact keptOrCaptured_of_same rfl
  · exact keptOrCaptured_of_swapTimeout hpol _ _
  · exact .inr ⟨ho, captured_captureInto hs.store_wf hs.acc_len hpol⟩

/-- A slot that is kept or captured has its buffer and counters, and its STAT but for SHV. -/
theorem keptOrCaptured_fields {c : BitVec 8} {s t : State} (hcfg : t.cfg = s.cfg) (h : keptOrCaptured c s t) :
    (∀ f, f = .buf ∨ f = .bufLen ∨ f = .loLen → t.slotGet c f = s.slotGet c f) ∧
    (∀ b, b ≠ 2 → (t.slotGet c .stat).getLsbD b = (s.slotGet c .stat).getLsbD b) := by
  obtain hsame | ⟨_, _, hstat, hbuf, hlen, hlo⟩ := h
  · refine ⟨?_, fun b _ => by rw [slotGet_of_sameSlot hcfg hsame (f := .stat) trivial]⟩
    rintro f (rfl | rfl | rfl) <;> exact slotGet_of_sameSlot hcfg hsame trivial
  · refine ⟨?_, fun b hb => by rw [hstat, getLsbD_setShv _ hb]⟩
    rintro f (rfl | rfl | rfl) <;> assumption

/-- `t` holds the session of slot `c` that `s` has loaded: live in the unit, or in the slot's shadow; and the fields of
the slot with it. This is the invariant of R193. -/
structure SessionHeld (c : BitVec 8) (s t : State) : Prop where
  sound : Sound t
  live : t.owner = some c → t.periph.pr = s.periph.pr
  saved : t.owner ≠ some c → statShv (t.slotGet c .stat) = true ∧ t.shadow c = s.periph.pr
  word : ∀ f, f = .buf ∨ f = .bufLen ∨ f = .loLen → t.slotGet c f = s.slotGet c f
  stat : ∀ b, b ≠ 2 → (t.slotGet c .stat).getLsbD b = (s.slotGet c .stat).getLsbD b

theorem sessionHeld_refl {c : BitVec 8} {s : State} (hs : Sound s) (ho : s.owner = some c) : SessionHeld c s s :=
  ⟨hs, fun _ => rfl, fun hne => absurd ho hne, fun _ _ => rfl, fun _ _ => rfl⟩

/-- A load of a held session brings its live state into the unit, whatever algorithm it is asked for (R185). -/
theorem sessionHeld_loadedPR {c : BitVec 8} {s t : State} (H : SessionHeld c s t) (a : BitVec 4) :
    loadedPR t a c = s.periph.pr := by
  by_cases ho : t.owner = some c
  · rw [loadedPR, if_pos ho, H.live ho]
  · obtain ⟨hshv, hshadow⟩ := H.saved ho
    rw [loadedPR_of_not_owner ho, if_pos hshv, hshadow]

/-- A command that names another slot, or saves this one, keeps the session held (R193). -/
theorem sessionHeld_exec {i : Instr} {c : BitVec 8} {s t u : State} (H : SessionHeld c s t)
    (hi : slotOf i ≠ some c ∨ i = .csave c) (h : exec i t = .next u) : SessionHeld c s u := by
  have hcfg := exec_cfg h
  have hslot : keptOrCaptured c t u := by
    obtain hne | rfl := hi
    · exact exec_keptOrCaptured H.sound h hne
    · exact exec_csave_keptOrCaptured H.sound h
  have hunit := exec_unitKept_or_swappedOut H.sound h hi
  obtain ⟨hword, hstat⟩ := keptOrCaptured_fields hcfg hslot
  refine ⟨(exec_inv H.sound h).sound, fun ho => ?live, fun ho => ?saved, fun f hf => (hword f hf).trans (H.word f hf),
    fun b hb => (hstat b hb).trans (H.stat b hb)⟩
  case live =>
    obtain ⟨howner, hpr⟩ | ⟨hout, _⟩ := hunit
    · exact hpr.trans (H.live (howner ▸ ho))
    · exact absurd ho hout
  case saved =>
    by_cases hown : t.owner = some c
    · obtain ⟨howner, _⟩ | ⟨_, hcap⟩ := hunit
      · exact absurd (howner.trans hown) ho
      · obtain ⟨hshadow, hset, _⟩ := hcap hown
        exact ⟨by rw [hset, statShv_setShv], hshadow.trans (H.live hown)⟩
    · obtain ⟨hshv, hshadow⟩ := H.saved hown
      obtain hsame | ⟨howner, _⟩ := hslot
      · exact ⟨by rwa [slotGet_of_sameSlot hcfg hsame (f := .stat) trivial],
          (shadow_of_sameSlot hcfg hsame).trans hshadow⟩
      · exact absurd howner hown

theorem execAll_cons {i : Instr} {is : List Instr} {s u : State} (h : execAll (i :: is) s = .next u) :
    ∃ t, exec i s = .next t ∧ execAll is t = .next u := by
  unfold execAll at h
  split at h
  · exact ⟨_, ‹_›, h⟩
  · cases h
  · cases h

theorem sessionHeld_execAll {c : BitVec 8} {s : State} {is : List Instr}
    (his : ∀ i ∈ is, slotOf i ≠ some c ∨ i = .csave c) {t u : State} (H : SessionHeld c s t)
    (h : execAll is t = .next u) : SessionHeld c s u := by
  induction is generalizing t with
  | nil =>
    cases h
    exact H
  | cons i is ih =>
    obtain ⟨t', hi, hrest⟩ := execAll_cons h
    exact ih (fun j hj => his j (by simp [hj])) (sessionHeld_exec H (his i (by simp)) hi) hrest

/-- A CLOAD after which the slot is the owner leaves in the unit what a load of the slot brings in (R189). -/
theorem cload_pr {a : BitVec 4} {c : BitVec 8} {s t : State} (hw : Store.wf s.store)
    (h : exec (.cload a c) s = .next t) (ho : t.owner = some c) : t.periph.pr = loadedPR s a c := by
  obtain ⟨st, _, rfl⟩ | ⟨_, _, rfl⟩ := exec_cload_next h
  · exact (if_pos ho).symm
  cases hload : loadOrResume c a s with
  | ok s1 =>
    rw [cloadRun_of_ok hload, returnOk_periph, activate_periph, loadOrResume_pr hw hload]
  | timeout u =>
    obtain ⟨hne, _, hpol⟩ := loadOrResume_timeout hload
    simp only [cloadRun, hload] at ho
    exact absurd ((onlyPolled_owner hpol).symm.trans ho) hne

/-- Settles O43, by the invariant `SessionHeld`: each command between keeps the session, in the unit or in its
shadow. -/
theorem swapTransparency : Obligations.SwapTransparency := by
  intro c between s s₁ hs ho hbetween hrun
  have H := sessionHeld_execAll hbetween (sessionHeld_refl hs ho) hrun
  exact ⟨sessionHeld_loadedPR H, H.word, H.stat,
    fun a s₂ hload howner => (cload_pr H.sound.store_wf hload howner).trans (sessionHeld_loadedPR H a)⟩

end Sys2Proof.Machine

/-! PROOFS. 43_word_submission: the default length configuration (R217) and the bytes ReadDigest takes from the result
registers (R219). -/

namespace Sys2Proof.Machine

/-! ## The default length configuration (R217) -/

/-- Under the standard rule the value written is eight times the six bits, at most 504, so no bit leaves the word. -/
theorem lencfg_toNat_of_standard {c : Config} (h : c.lengthRule = .standard) (a : BitVec 4) (l6 : BitVec 6) :
    (lencfg c a l6).toNat = 8 * l6.toNat := by
  have hl6 : l6.toNat < 64 := l6.isLt
  have hrule : lencfg c a l6 = l6.zeroExtend 32 <<< 3 := by simp only [lencfg, h]
  rw [hrule, BitVec.toNat_shiftLeft, BitVec.toNat_setWidth, Nat.shiftLeft_eq]
  omega

/-- Settles O36: the length modulo 64, times 8, is the length in bits modulo 512. -/
theorem defaultLengthIsBitsModulo512 : Obligations.DefaultLengthIsBitsModulo512 := by
  intro c a len h
  have hlow : (len.extractLsb' 0 6).toNat = len.toNat % 64 := by simp [BitVec.extractLsb'_toNat]
  rw [lencfg_toNat_of_standard h, hlow]
  omega

/-! ## The lanes of the digest (R219) -/

/-- Byte `k` of whole words, by packing them back into the words they came from (20_memory R74). -/
theorem flatMap_lanes_getD (o : ByteOrder) (ws : List Word) (k : Nat) :
    (ws.flatMap (lanes o)).getD k 0#8 = lane o (ws.getD (k / 4) 0#32) (k % 4) := by
  have hpack := lane_packBytes o (ws.flatMap (lanes o)) (k / 4) (Nat.mod_lt k (by omega : 0 < 4))
  rw [packBytes_flatMap_lanes, Nat.div_add_mod] at hpack
  exact hpack.symm

theorem bytesOf_getD (o : ByteOrder) (n : Nat) (ws : List Word) (k : Nat) :
    (bytesOf o n ws).getD k 0#8 = if k < n then lane o (ws.getD (k / 4) 0#32) (k % 4) else 0#8 := by
  rw [← flatMap_lanes_getD]
  simp only [bytesOf, List.getD_eq_getElem?_getD, List.getElem?_take]
  split <;> rfl

/-- Settles O35: the digest is the first bytes of the result registers, and packing puts each back into its lane. -/
theorem readDigestTakesLanesInOrder : Obligations.ReadDigestTakesLanesInOrder := by
  intro s d hlen hd
  have hbyte (k : Nat) : (digestBytes s d).getD k 0#8 =
      if k < d.toNat then lane s.cfg.byteOrder (s.periph.res.getD (k / 4) 0#32) (k % 4) else 0#8 := by
    rw [digestBytes_eq hlen hd, bytesOf_getD]
  refine ⟨digestBytes_length s d, fun k hk => ?byte, fun j b hb => ?lane, afterDigestRead_portLog s d⟩
  case byte => rw [hbyte, if_pos hk]
  case lane =>
    have hdiv : (4 * j + b) / 4 = j := by omega
    have hmod : (4 * j + b) % 4 = b := by omega
    rw [lane_packBytes _ _ _ hb, hbyte, hdiv, hmod]

end Sys2Proof.Machine

/-! PROOFS. 44_cipher_adapter: which AINIT is refused for its family (R232), what it binds when nothing is loaded (R233,
R235), and how it evicts a loaded session (R236). -/

namespace Sys2Proof.Machine

/-! ## The family check (R232, R234) -/

/-- Another family than the supported one of a restricted unit is the last thing the checks raise (R232, R234). -/
theorem ainitCheck_unsupportedFamily {s : State} {f : BitVec 4} {k : BitVec 8} {b : Blocks} (hk : k.toNat < s.cfg.nsess)
    (hshape : blocksShape b = s.cfg.cipherShape) (hb : blocksEmpty b = false) (hsingle : s.cfg.singleCipher = true)
    (hf : f ≠ s.cfg.supportedFam) : ainitCheck f k b s = .raise .unsupportedCipherFamily := by
  have hrange : Check.raiseIf (decide (s.cfg.nsess ≤ k.toNat)) .rejected = .pass :=
    Check.raiseIf_pass.2 (decide_eq_false (Nat.not_le.2 hk))
  have hsame : Check.raiseIf (decide (blocksShape b ≠ s.cfg.cipherShape)) .rejected = .pass :=
    Check.raiseIf_pass.2 (decide_eq_false (not_not_intro hshape))
  have hfull : Check.raiseIf (blocksEmpty b) .rejected = .pass := Check.raiseIf_pass.2 hb
  rw [ainitCheck, Check.pass_andThen hrange, Check.pass_andThen hsame, Check.pass_andThen hfull, hsingle,
    decide_eq_true hf]
  rfl

/-- After its checks AINIT answers OK or Timeout (R233). -/
theorem ainitRun_responses (f : BitVec 4) (k : BitVec 8) (b : Blocks) (s : State) :
    ∃ st, (st = .ok ∨ st = .timeout) ∧
      (ainitRun f k b s).responses = s.responses ++ [responseHeader 7#4 st k 0#8] := by
  obtain ⟨_, heq⟩ | ⟨u, hpol, heq⟩ | ⟨o, u, _, hpol, heq⟩ := ainitRun_cases f k b s <;> rw [heq]
  · exact ⟨.ok, .inl rfl, rfl⟩
  · exact ⟨.timeout, .inr rfl, by rw [raise_responses, onlyPolled_responses hpol]⟩
  · exact ⟨.ok, .inl rfl, by rw [← onlyPolled_responses hpol]; rfl⟩

/-- Settles O18: on a restricted unit the family is the one check that fails; on an unrestricted one all pass, and the run
answers another status. -/
theorem unsupportedFamilyIsRefused : Obligations.UnsupportedFamilyIsRefused := by
  intro f k b s hk hshape hb
  refine ⟨fun hsingle hf => exec_ainit_of_raise (ainitCheck_unsupportedFamily hk hshape hb hsingle hf),
    fun hsingle t h hresp => ?_⟩
  have hopen : CipherOpen s f k b := ⟨hk, hshape, hb, fun h => absurd (hsingle.symm.trans h) (by decide)⟩
  obtain ⟨st, hcheck, _⟩ | ⟨_, _, rfl⟩ := exec_ainit_next h
  · rw [ainitCheck_pass.2 hopen] at hcheck
    cases hcheck
  · obtain ⟨st, hst, hrun⟩ := ainitRun_responses f k b s
    rw [status_of_responses_eq (hrun.symm.trans hresp)] at hst
    exact absurd hst (by decide)

/-! ## The session record (R233, R235) -/

/-- Binding replaces the record whole (R233; 10_state R56). -/
theorem bindRecord_sessions_same {f : BitVec 4} {k : BitVec 8} {b : Blocks} {s : State}
    (hk : k.toNat < s.sessions.length) :
    (bindRecord f k b s).sessions[k.toNat]? = some ⟨true, f, blocksBlob b⟩ :=
  List.getElem?_set_self hk

/-- Binding leaves every other record. -/
theorem bindRecord_sessions_other (f : BitVec 4) {k : BitVec 8} (b : Blocks) (s : State) {j : Nat} (hj : j ≠ k.toNat) :
    (bindRecord f k b s).sessions[j]? = s.sessions[j]? :=
  List.getElem?_set_ne hj.symm

/-! ## AINIT with nothing loaded (R233, R235) -/

theorem ainitRun_of_no_owner {f : BitVec 4} {k : BitVec 8} {b : Blocks} {s : State} (ho : s.owner = none) :
    ainitRun f k b s = returnOk 7#4 k (bindRecord f k b s.unspecifyPR) := by
  simp only [ainitRun, evictForCipher, ho]
  rfl

theorem ownerExists_of_no_owner {s : State} (ho : s.owner = none) : ownerExists s :=
  fun _ h => nomatch ho.symm.trans h

/-- Settles O44: with no OWNER the eviction only leaves PR unspecified, and what follows writes the record and the
response. -/
theorem ainitBindsTheRecord : Obligations.AinitBindsTheRecord := by
  intro f k b s hopen ho hlen
  have hexec := (exec_ainit (ownerExists_of_no_owner ho) hopen).trans (congrArg _ (ainitRun_of_no_owner ho))
  refine ⟨_, hexec, ?bound, fun j hj => ?kept, rfl, rfl, rfl⟩
  case bound =>
    rw [returnOk_sessions]
    exact bindRecord_sessions_same (by rw [unspecifyPR_sessions, hlen]; exact hopen.record)
  case kept => rw [returnOk_sessions, bindRecord_sessions_other f b _ hj, unspecifyPR_sessions]

/-! ## AINIT with a loaded session (R233, R236) -/

theorem ainitRun_of_poll {f : BitVec 4} {k : BitVec 8} {b : Blocks} {s s' : State} {o : BitVec 8}
    (ho : s.owner = some o) (hp : pollReady .ready s = .ok s') :
    ainitRun f k b s = returnOk 7#4 k (bindRecord f k b (captureInto o s').releaseUnit) := by
  simp only [ainitRun, evictForCipher, ho, hp]
  rfl

/-- Settles O45: the poll and the capture are those of CSAVE; giving the unit over and binding the record write neither
the store nor the port. -/
theorem ainitEvictsTheLoadedSession : Obligations.AinitEvictsTheLoadedSession := by
  intro f k b s s' o hs hopen ho hp
  have hexec := (exec_ainit (ownerExists_of_sound hs) hopen).trans (congrArg _ (ainitRun_of_poll ho hp))
  have hpol := pollReady_ok hp
  have hsessions : (captureInto o s').releaseUnit.sessions = s.sessions := by
    rw [releaseUnit_sessions, captureInto_sessions, onlyPolled_sessions hpol]
  have hcfg : s'.cfg = s.cfg := onlyPolled_cfg hpol
  have hcommands : s'.commands = s.commands := onlyPolled_commands hpol
  have hperiph : s'.periph = s.periph := onlyPolled_periph hpol
  have hwu : Store.wf s'.store := by rw [onlyPolled_store hpol]; exact hs.store_wf
  have hpoll := pollReady_writes .ready s
  rw [hp, Polled.state_ok] at hpoll
  obtain ⟨hshadow, hstat, hbuf, hbufLen, hloLen⟩ := captured_captureInto (c := o) hs.store_wf hs.acc_len hpol
  refine ⟨_, hexec, ?bound, fun j hj => ?kept, rfl, rfl, hshadow, hstat, hbuf, hbufLen, hloLen, fun x hx => ?outside,
    ?periph, hcfg, hcommands, (captureInto_writes o s').trans hpoll, ?response⟩
  case bound =>
    rw [returnOk_sessions]
    exact bindRecord_sessions_same (by rw [hsessions, hs.sessions_len]; exact hopen.record)
  case kept => rw [returnOk_sessions, bindRecord_sessions_other f b _ hj, hsessions]
  case outside =>
    have hout : ¬ inSlot s' o x := by rwa [inSlot, hcfg]
    exact (captureInto_outside hwu hout).trans (congrArg (Store.read · x) (onlyPolled_store hpol))
  case periph =>
    rw [← hperiph]
    rfl
  case response =>
    rw [← onlyPolled_responses hpol]
    rfl

end Sys2Proof.Machine

/-! PROOFS. 60_exceptions: waiting for a whole packet (R274), the Timeout of an idle check (R262), and the Timeout of a
data phase, which costs its own slot and no other (R261, R263). -/

namespace Sys2Proof.Machine

/-! ## Waiting for a whole packet (R274) -/

/-- A stream that holds no whole packet decodes to nothing yet (30_encoding R104). -/
theorem decode_of_no_whole_packet {ws : List Word}
    (h : packetWords ws = none ∨ ∃ n, packetWords ws = some n ∧ ws.length < n) : decode ws = .incomplete := by
  obtain hnone | ⟨n, hn, hshort⟩ := h
  · simp only [decode, hnone]
  · simp only [decode, hn, if_pos hshort]

/-- Settles O8: neither a stream that does not say its packet's length nor one that ends before it decodes. -/
theorem stepWaitsForAWholePacket : Obligations.StepWaitsForAWholePacket := by
  intro s h
  simp only [step, decode_of_no_whole_packet h]

/-! ## A Timeout of the idle check (R262) -/

theorem hupdateRun_of_timeout {a : BitVec 4} {c : BitVec 8} {data : List Byte} {s s' : State}
    (hfull : 4 ≤ (s.slotGet c .bufLen).toNat + data.length) (hload : loadOrResume c a s = .timeout s') :
    hupdateRun a c data s = raise 3#4 c .timeout s' := by
  simp only [hupdateRun, hupdateSwap_full hfull, hload]

theorem hfinalRun_of_timeout {a : BitVec 4} {c : BitVec 8} (d : BitVec 8) {s s' : State}
    (hload : loadOrResume c a s = .timeout s') : hfinalRun a c d s = raise 4#4 c .timeout s' := by
  simp only [hfinalRun, hload]

theorem cloadRun_of_timeout {a : BitVec 4} {c : BitVec 8} {s s' : State}
    (hload : loadOrResume c a s = .timeout s') : cloadRun a c s = raise 5#4 c .timeout s' := by
  simp only [cloadRun, hload]

theorem evictForCipher_of_timeout {s s' : State} (ho : s.owner ≠ none) (hp : pollReady .ready s = .timeout s') :
    evictForCipher s = .timeout s' := by
  obtain ⟨o, howner⟩ := Option.ne_none_iff_exists'.1 ho
  simp only [evictForCipher, howner, hp]

theorem ainitRun_of_timeout {f : BitVec 4} {k : BitVec 8} {b : Blocks} {s s' : State}
    (hevict : evictForCipher s = .timeout s') : ainitRun f k b s = raise 7#4 k .timeout s' := by
  simp only [ainitRun, hevict]

/-- Every command with an idle check ends by Timeout when that check fails (R261, R262). -/
theorem exec_of_idleTimeout {i : Instr} {s s' : State} (ho : ownerExists s) (hidle : idleChecks s i)
    (hp : pollReady .ready s = .timeout s') : exec i s = .next (raise (opcOf i) (ctxOf i) .timeout s') := by
  cases i with
  | detect => exact hidle.elim
  | hinit c => exact hidle.elim
  | hupdate a c len payload =>
    obtain ⟨hopen, hlen, hother, hfull⟩ := hidle
    exact (exec_hupdate ho hopen hlen).trans
      (congrArg _ (hupdateRun_of_timeout hfull (loadOrResume_of_timeout hother hp a)))
  | hfinal a c d =>
    obtain ⟨hopen, hlen, hother, hd⟩ := hidle
    exact (exec_hfinal ho hopen hlen hd).trans
      (congrArg _ (hfinalRun_of_timeout d (loadOrResume_of_timeout hother hp a)))
  | cload a c =>
    obtain ⟨hopen, hother⟩ := hidle
    exact (exec_cload ho hopen).trans (congrArg _ (cloadRun_of_timeout (loadOrResume_of_timeout hother hp a)))
  | csave c =>
    obtain ⟨hc, howner⟩ := hidle
    exact (exec_csave hc).trans (congrArg _ (csaveRun_of_timeout howner hp))
  | ainit f k b =>
    obtain ⟨hopen, howner⟩ := hidle
    exact (exec_ainit ho hopen).trans (congrArg _ (ainitRun_of_timeout (evictForCipher_of_timeout howner hp)))

/-- Settles O23: the command ends at the failed poll, and a poll writes nothing that a slot, OWNER, PR or a session record
is read from. -/
theorem swapPhaseTimeoutChangesNothing : Obligations.SwapPhaseTimeoutChangesNothing := fun _ _ _ ho hidle hp =>
  ⟨exec_of_idleTimeout ho hidle hp, pollReady_timeout hp⟩

/-! ## The aftermath of a data-phase Timeout (R263) -/

theorem freeWords_getD (s : State) {n k : Nat} (hk : k < n) :
    (s.freeWords n).getD k 0#32 = Config.freeWord (s.draws + k) := by
  simp [State.freeWords, hk]

/-- Word `k` of the lost slot is the `k`-th free value drawn. -/
theorem read_dataPhaseTimeout_same {s : State} (hw : Store.wf s.store) (opc : BitVec 4) (c : BitVec 8) {k : Nat}
    (hk : k < s.cfg.slotWords) :
    Store.read (dataPhaseTimeout opc c s).store (slotAddr s.cfg c + k) = Config.freeWord (s.draws + k) := by
  rw [dataPhaseTimeout_store, unspecifySlot_store, ← slotFill_store, read_slotFill_same hw, freeWords_length, if_pos hk,
    freeWords_getD s hk]

/-- Word `k` of PR is the `k`-th free value drawn after those of the slot. -/
theorem words_dataPhaseTimeout (s : State) (opc : BitVec 4) (c : BitVec 8) {k : Nat} (hk : k < s.cfg.contextWords) :
    ((dataPhaseTimeout opc c s).periph.pr.words s.cfg).getD k 0#32 =
      Config.freeWord (s.draws + s.cfg.slotWords + k) := by
  have hpr : (dataPhaseTimeout opc c s).periph.pr = PR.ofWords ((s.unspecifySlot c).freeWords s.cfg.contextWords) := rfl
  rw [hpr, words_ofWords (freeWords_length _ _), freeWords_getD _ hk, unspecifySlot_draws]

/-- Settles O24: the slot and PR are free values, and what else the aftermath writes is OWNER and the response. -/
theorem dataPhaseTimeoutEffect : Obligations.DataPhaseTimeoutEffect := by
  intro opc c s hw
  refine ⟨dataPhaseTimeout opc c s, rfl, fun k hk => ?slot, fun x hx => ?outside,
    dataPhaseTimeout_owner s opc c, dataPhaseTimeout_prDefined s opc c, fun k hk => ?pr, ?frame⟩
  case slot => exact read_dataPhaseTimeout_same hw opc c hk
  case outside => exact touches_not_inSlot (dataPhaseTimeout_touches opc c s) hw x hx
  case pr => exact words_dataPhaseTimeout s opc c hk
  case frame =>
    simp only [dataPhaseTimeout_eq, answered, State.releaseUnit, State.unspecifyPR, State.unspecifySlot, State.slotFill]

/-! ## HUPDATE and HFINAL ended by a data-phase Timeout (R261, R263) -/

/-- A data-phase Timeout in `u`, after slot `c` was loaded and only its words were written, loses that slot alone: the
previous owner stays saved, and the other slots and the session records stay. -/
theorem dataPhaseTimeout_after_load {a opc : BitVec 4} {c : BitVec 8} {s s1 u : State} (L : Loaded a c s s1)
    (ht : Touches c s1 u) (hsilent : Silent s u) :
    (∀ k < s.cfg.slotWords, Store.read (dataPhaseTimeout opc c u).store (slotAddr s.cfg c + k) =
      Config.freeWord (u.draws + k)) ∧
    (dataPhaseTimeout opc c u).owner = none ∧ (dataPhaseTimeout opc c u).prDefined = false ∧
    (dataPhaseTimeout opc c u).sessions = s.sessions ∧ ownerSaved c s (dataPhaseTimeout opc c u) ∧
    othersKept c s (dataPhaseTimeout opc c u) ∧
    (dataPhaseTimeout opc c u).responses = s.responses ++ [responseHeader opc .timeout c 0#8] := by
  have hcfg : u.cfg = s.cfg := ht.cfg.trans L.cfg
  obtain ⟨hsaved, hothers⟩ := loaded_touches L (touches_trans ht (dataPhaseTimeout_touches opc c u))
  refine ⟨fun k hk => ?_, dataPhaseTimeout_owner u opc c, dataPhaseTimeout_prDefined u opc c,
    (dataPhaseTimeout_sessions u opc c).trans hsilent.sessions, hsaved, hothers, ?_⟩
  · rw [← hcfg] at hk ⊢
    exact read_dataPhaseTimeout_same (ht.wf L.wf) opc c hk
  · rw [dataPhaseTimeout_responses, hsilent.responses]

/-- Only an HUPDATE that completes a word can time out in its data phase, so its swap loaded the slot
(41_session_lifecycle R156). -/
theorem load_of_absorbTimeout {a : BitVec 4} {c : BitVec 8} {data : List Byte} {s s1 u : State} (hw : Store.wf s.store)
    (hswap : hupdateSwap a c data s = .ok s1)
    (habs : absorbBytes c data (activate c (statShv (s.slotGet c .stat)) a s1) = .timeout u) :
    loadOrResume c a s = .ok s1 := by
  by_cases hfull : 4 ≤ (s.slotGet c .bufLen).toNat + data.length
  · rwa [hupdateSwap_full hfull] at hswap
  · have hshort : (s.slotGet c .bufLen).toNat + data.length < 4 := by omega
    rw [hupdateSwap_short hshort] at hswap
    cases hswap
    have hlen : (activate c (statShv (s.slotGet c .stat)) a s).slotGet c .bufLen = s.slotGet c .bufLen :=
      activate_get hw _ a .bufLen rfl
    rw [absorbBytes_short ((activate_touches c _ a s).wf hw) (by rwa [hlen])] at habs
    cases habs

theorem hupdateRun_of_dataTimeout {a : BitVec 4} {c : BitVec 8} {data : List Byte} {s s1 u : State}
    (hswap : hupdateSwap a c data s = .ok s1)
    (habs : absorbBytes c data (activate c (statShv (s.slotGet c .stat)) a s1) = .timeout u) :
    hupdateRun a c data s = dataPhaseTimeout 3#4 c u := by
  simp only [hupdateRun, hswap, hupdateBody, habs]

theorem hfinalRun_of_dataTimeout {a : BitVec 4} {c : BitVec 8} (d : BitVec 8) {s s1 u : State}
    (hload : loadOrResume c a s = .ok s1) (hdrain : hfinalDrain a c s1 = .timeout u) :
    hfinalRun a c d s = dataPhaseTimeout 4#4 c u := by
  simp only [hfinalRun, hload, hdrain]

/-- Settles O25: either data phase follows a load of the slot, writes no other slot, and answers nothing before its
Timeout. -/
theorem dataPhaseTimeoutHarmsOneSlot : Obligations.DataPhaseTimeoutHarmsOneSlot := by
  intro a c s s1 u hs hopen hlen
  have ho := ownerExists_of_sound hs
  refine ⟨fun len payload hswap habs => ?hupdate, fun d hd hload hdrain => ?hfinal⟩
  case hupdate =>
    have hload := load_of_absorbTimeout hs.store_wf hswap habs
    have htouch := touches_trans (activate_touches c (statShv (s.slotGet c .stat)) a s1)
      (absorbBytes_touches c (updateData s.cfg len payload) _)
    have hsilent := hupdate_silent (shv := statShv (s.slotGet c .stat)) (data := updateData s.cfg len payload)
      (hupdateSwap_swapped hswap)
    rw [habs] at htouch hsilent
    exact ⟨_, (exec_hupdate ho hopen hlen).trans (congrArg _ (hupdateRun_of_dataTimeout hswap habs)), rfl,
      dataPhaseTimeout_after_load (loaded_of_ok hs hload) htouch hsilent⟩
  case hfinal =>
    have htouch := hfinalDrain_touches a c s1
    have hsilent := hfinal_silent hload
    rw [hdrain] at htouch hsilent
    exact ⟨_, (exec_hfinal ho hopen hlen hd).trans (congrArg _ (hfinalRun_of_dataTimeout d hload hdrain)), rfl,
      dataPhaseTimeout_after_load (loaded_of_ok hs hload) htouch hsilent⟩

end Sys2Proof.Machine

/-! PROOFS. 70_reset_and_hazards: every command that starts is answered (R312), unless its slot holds what CMX never writes
(93_implementation_defined U4). -/

namespace Sys2Proof.Machine

/-! ## No check of a sound slot stops the machine (41_session_lifecycle R154; 44_cipher_adapter R234) -/

/-- Checks that do not stop the machine pass or end the command with a status. -/
theorem Check.pass_or_raise {k : Check} (h : ∀ r, k ≠ .stop r) : k = .pass ∨ ∃ st, k = .raise st := by
  cases k with
  | pass => exact .inl rfl
  | raise st => exact .inr ⟨st, rfl⟩
  | stop r => exact absurd rfl (h r)

theorem Check.raiseIf_ne_stop (b : Bool) (st : Status) (r : Refusal) : Check.raiseIf b st ≠ .stop r := by
  cases b <;> simp [Check.raiseIf]

/-- Checks in order stop the machine only if one of them does. -/
theorem Check.andThen_ne_stop {k l : Check} {r : Refusal} (hk : k ≠ .stop r) (hl : l ≠ .stop r) :
    k.andThen l ≠ .stop r := by
  cases k with
  | pass => exact hl
  | raise st => exact hk
  | stop r' => exact hk

theorem operandCheck_ne_stop (s : State) (a : BitVec 4) (c : BitVec 8) (r : Refusal) : operandCheck s a c ≠ .stop r :=
  Check.andThen_ne_stop (Check.raiseIf_ne_stop _ _ r) (Check.raiseIf_ne_stop _ _ r)

theorem lifecycleCheck_ne_stop (s : State) (a : BitVec 4) (c : BitVec 8) (r : Refusal) : lifecycleCheck s a c ≠ .stop r :=
  Check.andThen_ne_stop (Check.raiseIf_ne_stop _ _ r) (Check.raiseIf_ne_stop _ _ r)

theorem ainitCheck_ne_stop (f : BitVec 4) (k : BitVec 8) (b : Blocks) (s : State) (r : Refusal) :
    ainitCheck f k b s ≠ .stop r :=
  Check.andThen_ne_stop (Check.raiseIf_ne_stop _ _ r) (Check.andThen_ne_stop (Check.raiseIf_ne_stop _ _ r)
    (Check.andThen_ne_stop (Check.raiseIf_ne_stop _ _ r) (Check.raiseIf_ne_stop _ _ r)))

section SoundSlot

variable {s : State} {c : BitVec 8}

theorem statSoundCheck_ne_stop (hstat : statMalformed (s.slotGet c .stat) = false) (r : Refusal) :
    statSoundCheck s c ≠ .stop r := by
  simp [statSoundCheck_pass.2 hstat]

theorem bufLenSoundCheck_ne_stop (hlen : (s.slotGet c .bufLen).toNat ≤ 3) (r : Refusal) : bufLenSoundCheck s c ≠ .stop r := by
  simp [bufLenSoundCheck_pass.2 hlen]

/-- CLOAD does not look at BUFLEN (42_arbiter_swap R189). -/
theorem cloadCheck_ne_stop (a : BitVec 4) (hstat : statMalformed (s.slotGet c .stat) = false) (r : Refusal) :
    cloadCheck a c s ≠ .stop r :=
  Check.andThen_ne_stop (operandCheck_ne_stop s a c r)
    (Check.andThen_ne_stop (statSoundCheck_ne_stop hstat r) (lifecycleCheck_ne_stop s a c r))

theorem hupdateCheck_ne_stop (a : BitVec 4) (hstat : statMalformed (s.slotGet c .stat) = false)
    (hlen : (s.slotGet c .bufLen).toNat ≤ 3) (r : Refusal) : hupdateCheck a c s ≠ .stop r :=
  Check.andThen_ne_stop (operandCheck_ne_stop s a c r) (Check.andThen_ne_stop (statSoundCheck_ne_stop hstat r)
    (Check.andThen_ne_stop (bufLenSoundCheck_ne_stop hlen r) (lifecycleCheck_ne_stop s a c r)))

theorem hfinalCheck_ne_stop (a : BitVec 4) (d : BitVec 8) (hstat : statMalformed (s.slotGet c .stat) = false)
    (hlen : (s.slotGet c .bufLen).toNat ≤ 3) (r : Refusal) : hfinalCheck a c d s ≠ .stop r :=
  Check.andThen_ne_stop (operandCheck_ne_stop s a c r) (Check.andThen_ne_stop (Check.raiseIf_ne_stop _ _ r)
    (Check.andThen_ne_stop (statSoundCheck_ne_stop hstat r)
      (Check.andThen_ne_stop (bufLenSoundCheck_ne_stop hlen r) (lifecycleCheck_ne_stop s a c r))))

end SoundSlot

/-! ## Every command runs to its response (R312) -/

/-- Settles O12: DETECT, HINIT and CSAVE stop nowhere; the checks of the other four end the command with a status or pass,
and once they pass only an OWNER that does not exist would stop it. -/
theorem commandsRunToTheirResponse : Obligations.CommandsRunToTheirResponse := by
  intro i s ho hsound
  cases i with
  | detect => exact ⟨_, exec_detect s⟩
  | hinit c =>
    cases hslot : slotExists s.cfg c with
    | true => exact ⟨_, exec_hinit hslot⟩
    | false => exact ⟨_, exec_hinit_missing hslot⟩
  | hupdate a c len payload =>
    obtain ⟨hstat, hlen⟩ := hsound c rfl
    obtain hpass | ⟨st, hraise⟩ := Check.pass_or_raise (hupdateCheck_ne_stop a hstat hlen)
    · obtain ⟨hopen, hbuf⟩ := hupdateCheck_pass.1 hpass
      exact ⟨_, exec_hupdate ho hopen hbuf⟩
    · exact ⟨_, exec_hupdate_of_raise hraise len payload⟩
  | hfinal a c d =>
    obtain ⟨hstat, hlen⟩ := hsound c rfl
    obtain hpass | ⟨st, hraise⟩ := Check.pass_or_raise (hfinalCheck_ne_stop a d hstat hlen)
    · obtain ⟨hopen, hbuf, hd⟩ := hfinalCheck_pass.1 hpass
      exact ⟨_, exec_hfinal ho hopen hbuf hd⟩
    · exact ⟨_, exec_hfinal_of_raise hraise⟩
  | cload a c =>
    obtain ⟨hstat, _⟩ := hsound c rfl
    obtain hpass | ⟨st, hraise⟩ := Check.pass_or_raise (cloadCheck_ne_stop a hstat)
    · exact ⟨_, exec_cload ho (cloadCheck_pass.1 hpass)⟩
    · exact ⟨_, exec_cload_of_raise hraise⟩
  | csave c =>
    cases hslot : slotExists s.cfg c with
    | true => exact ⟨_, exec_csave hslot⟩
    | false => exact ⟨_, exec_csave_missing hslot⟩
  | ainit f k b =>
    obtain hpass | ⟨st, hraise⟩ := Check.pass_or_raise (ainitCheck_ne_stop f k b s)
    · exact ⟨_, exec_ainit ho (ainitCheck_pass.1 hpass)⟩
    · exact ⟨_, exec_ainit_of_raise hraise⟩

end Sys2Proof.Machine

/-! PROOFS. 93_implementation_defined U4: a command that reads a slot holding what CMX never writes is given no meaning. -/

namespace Sys2Proof.Machine

/-! ## The checks of a malformed slot stop the machine (41_session_lifecycle R154; 93_implementation_defined U4) -/

theorem Check.stop_andThen {k l : Check} {r : Refusal} (h : k = .stop r) : k.andThen l = .stop r := by rw [h]; rfl

theorem exec_hupdate_of_stop {s : State} {a : BitVec 4} {c : BitVec 8} {r : Refusal} (h : hupdateCheck a c s = .stop r)
    (len : Word) (payload : List Word) : exec (.hupdate a c len payload) s = .refused r := by
  simp only [exec, execHupdate, h]

theorem exec_hfinal_of_stop {s : State} {a : BitVec 4} {c d : BitVec 8} {r : Refusal} (h : hfinalCheck a c d s = .stop r) :
    exec (.hfinal a c d) s = .refused r := by
  simp only [exec, execHfinal, h]

theorem exec_cload_of_stop {s : State} {a : BitVec 4} {c : BitVec 8} {r : Refusal} (h : cloadCheck a c s = .stop r) :
    exec (.cload a c) s = .refused r := by
  simp only [exec, execCload, h]

section MalformedSlot

variable {s : State} {c : BitVec 8}

theorem statSoundCheck_stop (h : statMalformed (s.slotGet c .stat) = true) : statSoundCheck s c = .stop .malformedSlot := by
  simp only [statSoundCheck, h, if_true]

theorem bufLenSoundCheck_stop (h : 3 < (s.slotGet c .bufLen).toNat) : bufLenSoundCheck s c = .stop .malformedSlot := by
  simp only [bufLenSoundCheck, bufLenMalformed, h, decide_true, if_true]

/-- HUPDATE and HFINAL read both fields; a malformed one stops them whatever is checked after it. -/
theorem slotSoundChecks_stop (h : statMalformed (s.slotGet c .stat) = true ∨ 3 < (s.slotGet c .bufLen).toNat)
    (k : Check) : (statSoundCheck s c).andThen ((bufLenSoundCheck s c).andThen k) = .stop .malformedSlot := by
  cases hstat : statMalformed (s.slotGet c .stat) with
  | true => exact Check.stop_andThen (statSoundCheck_stop hstat)
  | false =>
    have hlen : 3 < (s.slotGet c .bufLen).toNat := h.resolve_left (by simp [hstat])
    rw [Check.pass_andThen (statSoundCheck_pass.2 hstat), Check.stop_andThen (bufLenSoundCheck_stop hlen)]

end MalformedSlot

/-- Settles O19: the checks that need only the packet pass, and the next ones read the malformed fields. -/
theorem malformedSlotIsRefused : Obligations.MalformedSlotIsRefused := by
  intro a c s hslot halg
  have hoperand := operandCheck_pass.2 ⟨hslot, halg⟩
  refine ⟨fun hstat => exec_cload_of_stop ?_,
    fun hbad => ⟨exec_hupdate_of_stop ?_, fun d hd => exec_hfinal_of_stop ?_⟩⟩
  · rw [cloadCheck, Check.pass_andThen hoperand, Check.stop_andThen (statSoundCheck_stop hstat)]
  · rw [hupdateCheck, Check.pass_andThen hoperand, slotSoundChecks_stop hbad]
  · rw [hfinalCheck, Check.pass_andThen hoperand, Check.pass_andThen (digestSizeCheck_pass.2 hd),
      slotSoundChecks_stop hbad]

end Sys2Proof.Machine
